-- ==== Sys2Proof/Word.lean ====
section
/-! DEFINITION. The bit-vector types of the block (00_scope.md R7): every register, command word and `DATA` value is 32 bits;
a coordinate, a dimension or a gradient sample is 16 bits; an opcode, a register number or an `OUT` sample is 8 bits. -/

namespace Sys2Proof

/-- A register, a command word, a `DATA` value, a binary32 sample or a stack entry (R7). -/
abbrev Word := BitVec 32

/-- A coordinate, a dimension or a signed gradient sample (R7, R32, R40). -/
abbrev Half := BitVec 16

/-- An opcode, a register number or a sample of `OUT` (R22, R70, R101). -/
abbrev Byte := BitVec 8

end Sys2Proof
end

