-- ==== Sys2Proof/Syntax.lean ====
section
/-! DEFINITION. The commands: one constructor for each row of spec/opcode_table.json (30_encoding.md R105), and the space ids
that format M names (20_memory.md R70). -/

namespace Sys2Proof

/-- The seven raster memories of R70, in the order of their ids 0 to 6. -/
inductive Space where
  | gx
  | gy
  | mag
  | sup
  | out
  | visit
  | stack
  deriving DecidableEq, Repr

/-- The twelve commands of R105. `sp` is the space id field and `inc` the post-increment bit of format M (R101, R102). -/
inductive Instr where
  | nop
  | hypot
  | nms
  | trace
  | lstart
  | lnext
  | ldrop
  | hypq
  | dirq
  | lds (sp : Space) (inc : Bool)
  | sts (sp : Space) (inc : Bool)
  | srst
  deriving DecidableEq, Repr

end Sys2Proof
end

