-- ==== Sys2Proof/WellFormed.lean ====
section
/-! DEFINITION. Which terms of `Instr` are commands. The one check of the command set that the syntax itself does not make is
30_encoding.md R110 (e): the host cannot store to the visit map or the stack. -/

namespace Sys2Proof

/-- The spaces `STS` may name: ids 0 to 4 (R110 (e), R251). -/
def Space.hostWritable : Space → Bool
  | .gx => true
  | .gy => true
  | .mag => true
  | .sup => true
  | .out => true
  | .visit => false
  | .stack => false

/-- A well-formed command. Only `STS` has an ill-formed term. -/
def Instr.wellFormed : Instr → Bool
  | .nop => true
  | .hypot => true
  | .nms => true
  | .trace => true
  | .lstart => true
  | .lnext => true
  | .ldrop => true
  | .hypq => true
  | .dirq => true
  | .lds _ _ => true
  | .sts sp _ => sp.hostWritable
  | .srst => true

end Sys2Proof
end

