-- ==== Sys2Proof/Decode.lean ====
section
/-! DEFINITION. Command encoding (30_encoding.md): the decoder, total on every 32-bit word and refusing an illegal one by the
case of R110 it falls under, and the encoder, both written from the tables of R101, R105 and R70. A command is one word written
whole to `CMD` (R100); it has no bytes and no byte order (R75). -/

namespace Sys2Proof

/-- The cases of R110, each with the word's opcode field. -/
inductive Illegal where
  /-- (a) `op` is none of the twelve values of R105. -/
  | unknownOpcode (op : Byte)
  /-- (b) format Z with `cmd[23:0]` not zero. -/
  | zeroFieldZ (op : Byte)
  /-- (c) format M with `cmd[18:0]` not zero. -/
  | zeroFieldM (op : Byte)
  /-- (d) format M with a reserved space id, 7 to 15. -/
  | reservedSpace (op : Byte)
  /-- (e) `STS` to `VISIT` or `STACK`. -/
  | spaceNotWritable (op : Byte)
  deriving DecidableEq, Repr

/-- The opcode field `cmd[31:24]` (R101). -/
def opField (w : Word) : Byte := w.extractLsb' 24 8

/-- The space id field `cmd[23:20]` (R101, R102). -/
def spField (w : Word) : BitVec 4 := w.extractLsb' 20 4

/-- The increment bit `cmd[19]` (R101, R102). -/
def incField (w : Word) : Bool := w.getLsbD 19

/-- `cmd[23:0]`, must be zero in format Z (R101). -/
def zeroZ (w : Word) : BitVec 24 := w.extractLsb' 0 24

/-- `cmd[18:0]`, must be zero in format M (R101). -/
def zeroM (w : Word) : BitVec 19 := w.extractLsb' 0 19

/-- The space of an id (R70); ids 7 to 15 are reserved. -/
def spaceOfId (n : BitVec 4) : Option Space :=
  match n.toNat with
  | 0 => some .gx
  | 1 => some .gy
  | 2 => some .mag
  | 3 => some .sup
  | 4 => some .out
  | 5 => some .visit
  | 6 => some .stack
  | _ => none

/-- The id of a space (R70). -/
def spaceId : Space → BitVec 4
  | .gx => 0#4
  | .gy => 1#4
  | .mag => 2#4
  | .sup => 3#4
  | .out => 4#4
  | .visit => 5#4
  | .stack => 6#4

/-- A format Z command (R101): its 24 low bits must be zero. -/
def decodeZ (w : Word) (i : Instr) : Except Illegal Instr :=
  if zeroZ w = 0#24 then .ok i else .error (.zeroFieldZ (opField w))

/-- A format M command (R101): its 19 low bits must be zero and its space id one of R70. -/
def decodeM (w : Word) (make : Space → Bool → Except Illegal Instr) : Except Illegal Instr :=
  if zeroM w = 0#19 then
    match spaceOfId (spField w) with
    | some sp => make sp (incField w)
    | none => .error (.reservedSpace (opField w))
  else .error (.zeroFieldM (opField w))

/-- `LDS` from any of the seven spaces. -/
def makeLds (sp : Space) (inc : Bool) : Except Illegal Instr := .ok (.lds sp inc)

/-- `STS` to one of the five host-writable spaces (R110 (e)). -/
def makeSts (sp : Space) (inc : Bool) : Except Illegal Instr :=
  if sp.hostWritable then .ok (.sts sp inc) else .error (.spaceNotWritable 0x11#8)

/-- The decoder (R105, R110). -/
def decode (w : Word) : Except Illegal Instr :=
  match (opField w).toNat with
  | 0x00 => decodeZ w .nop
  | 0x01 => decodeZ w .hypot
  | 0x02 => decodeZ w .nms
  | 0x03 => decodeZ w .trace
  | 0x04 => decodeZ w .lstart
  | 0x05 => decodeZ w .lnext
  | 0x06 => decodeZ w .ldrop
  | 0x08 => decodeZ w .hypq
  | 0x09 => decodeZ w .dirq
  | 0x10 => decodeM w makeLds
  | 0x11 => decodeM w makeSts
  | 0xFF => decodeZ w .srst
  | _ => .error (.unknownOpcode (opField w))

/-- The opcode of a command (R105): `cmd[31:24]` of its word, which fault entry records in `FAULT.OP` (10_state.md R30). -/
def opcodeOf : Instr → Byte
  | .nop => 0x00#8
  | .hypot => 0x01#8
  | .nms => 0x02#8
  | .trace => 0x03#8
  | .lstart => 0x04#8
  | .lnext => 0x05#8
  | .ldrop => 0x06#8
  | .hypq => 0x08#8
  | .dirq => 0x09#8
  | .lds _ _ => 0x10#8
  | .sts _ _ => 0x11#8
  | .srst => 0xFF#8

/-- Format Z of R101: the opcode over 24 zero bits. -/
def formatZ (op : Byte) : Word := op ++ 0#24

/-- Format M of R101: the opcode, the space id, the increment bit and 19 zero bits. -/
def formatM (op : Byte) (sp : Space) (inc : Bool) : Word := op ++ spaceId sp ++ BitVec.ofBool inc ++ 0#19

/-- The encoder: the word of a command, by the formats of R101 and the opcodes of R105. -/
def encode : Instr → Word
  | .nop => formatZ 0x00#8
  | .hypot => formatZ 0x01#8
  | .nms => formatZ 0x02#8
  | .trace => formatZ 0x03#8
  | .lstart => formatZ 0x04#8
  | .lnext => formatZ 0x05#8
  | .ldrop => formatZ 0x06#8
  | .hypq => formatZ 0x08#8
  | .dirq => formatZ 0x09#8
  | .lds sp inc => formatM 0x10#8 sp inc
  | .sts sp inc => formatM 0x11#8 sp inc
  | .srst => formatZ 0xFF#8

/-- The word that a table word of `nbits` bits stands for: every bit above `nbits` is zero. A command is one word, whose bit
numbering is the table's own (R7, R100). -/
def tableWord (nbits w : Nat) : Word := BitVec.ofNat 32 (w % 2 ^ nbits)

/-- The command the decoder reads from a word of spec/opcode_table.json; none where the word is illegal. -/
def decodeTableWord (nbits w : Nat) : Option Instr :=
  match decode (tableWord nbits w) with
  | .ok i => some i
  | .error _ => none

end Sys2Proof
end

