-- ==== Sys2Proof/Config.lean ====
section
/-! DEFINITION. What one implementation fixes (00_scope.md R6), and the values the spec leaves unspecified
(93_implementation_defined.md, treatment `any value`). The two function parameters of R6, `HYPOT_FN` and `DIR_FN`, have their
defaults in Machine/Hypot.lean and Machine/Direction.lean; the shared operations take them, and `STACK_DEPTH`, as arguments. -/

namespace Sys2Proof.Config

/-- `MAX_DIM` of R6. With the default every 16-bit value of `WIDTH` and `HEIGHT` is legal (R32). DESIGN CHOICE, log 11. -/
def maxDim : Nat := 65535

/-- `CAP` of R6: the samples each raster memory holds. DESIGN CHOICE, log 11. -/
def cap : Nat := 1048576

/-- `STACK_DEPTH` of R6: the entries the work stack holds; the default is `CAP`. DESIGN CHOICE, log 11. -/
def stackDepth : Nat := cap

/-- `BG` of R6: the background sample of `OUT`. -/
def bg : Byte := 0x00#8

/-- `FG` of R6: the foreground sample of `OUT`. -/
def fg : Byte := 0xFF#8

/-- `ID_VALUE` of R6 and R24. -/
def idValue : Word := 0x434E5907#32

/-- The free value with a given number: an unspecified register value (U7) or an unspecified read value (U8). It has no body:
nothing can be proved of it. Log 6, log 7. -/
opaque freeWord : Nat → Word

/-- The sample at an index of the arbitrary memory with a given number (R322, U4, U6); a space narrower than 32 bits takes the
low bits. It has no body: nothing can be proved of it. Log 4, log 5. -/
opaque freeSample : Nat → Nat → Word

end Sys2Proof.Config
end

