-- ==== Sys2Proof/Machine/State.lean ====
section
/-! DEFINITION. The state of one CANNY-CORE instance (10_state.md R20): the registers, the hidden tracer state, the operating
state and the seven raster memories, as plain data; beside them the model's own fields (the host's coming inputs, the value of
the last register read, the counter of free values). A register that is a view of other fields is computed
(Machine/Operands.lean, Machine/Flags.lean), not stored twice. -/

namespace Sys2Proof.Machine

/-- `OPSTATE` of R21. While busy the model keeps which command is running, because a busy violation records its opcode
(60_exceptions.md R284). DESIGN CHOICE, log 13. -/
inductive OpState where
  | idle
  | busy (running : Instr)
  | faulted
  deriving DecidableEq, Repr

/-- `PHASE` of R45. -/
inductive Phase where
  | off
  | scan
  | pop
  | expand
  | done
  deriving DecidableEq, Repr

/-- The cause codes of 60_exceptions.md R281; `none` is code 0, no fault recorded. -/
inductive Cause where
  | none
  | illegalCmd
  | badAccess
  | busyViolation
  | locked
  | dimSmall
  | dimLarge
  | thresh
  | noProducer
  | addrRange
  | stackOvf
  deriving DecidableEq, Repr

/-- A raster memory of `w`-bit samples (20_memory.md R70). `cells` lists the samples that have been written, by strictly rising
index; a sample that is not listed holds the free value of its index in the arbitrary memory number `gen` (R322). Log 4, log 12. -/
structure Mem (w : Nat) where
  cells : List (Nat × BitVec w)
  gen : Nat
  deriving DecidableEq, Repr

/-- One act of the outside world (00_scope.md R5, 70_reset_and_hazards.md R320): a register read, a register write (a write to
`CMD` issues a command) or the hardware reset. -/
inductive HostAction where
  | hardReset
  | read (n : Byte)
  | write (n : Byte) (v : Word)
  deriving DecidableEq, Repr

/-- A coming input. `early` says that it arrives while the command issued before it is still executing
(70_reset_and_hazards.md R330). DESIGN CHOICE, log 1, log 2. -/
structure Input where
  early : Bool
  act : HostAction
  deriving DecidableEq, Repr

/-- The state: R20 (a) to (d), then the model's own fields `inputs`, `lastRead`, `freeCount`. -/
structure State where
  /-- `OPSTATE`, R21; `STATUS.BUSY` and `STATUS.FAULTED` are views of it. -/
  opstate : OpState
  /-- `STATUS.LIVE`, R27. -/
  live : Bool
  /-- `STATUS.VALID`, R27. -/
  valid : Bool
  /-- `STATUS.EXHAUSTED`, R27. -/
  exhausted : Bool
  /-- `FAULT.CAUSE`, R30. -/
  faultCause : Cause
  /-- `FAULT.OP`, R30. -/
  faultOp : Byte
  /-- `FAULT.REGNO`, R30. -/
  faultReg : Byte
  /-- `WIDTH`, bits 15:0, R32. -/
  width : Half
  /-- `HEIGHT`, bits 15:0, R32. -/
  height : Half
  /-- `LOW`, R33. -/
  low : Word
  /-- `HIGH`, R33. -/
  high : Word
  /-- `ADDR`, R35. -/
  addr : Word
  /-- `DATA`, R35. -/
  data : Word
  /-- `ARG0`, R36. -/
  arg0 : Word
  /-- `ARG1`, R36. -/
  arg1 : Word
  /-- `RES`, R37. -/
  res : Word
  /-- `PIX`, R38. -/
  pix : Word
  /-- `SX`, `CURSOR` bits 15:0, R40. -/
  sx : Half
  /-- `SY`, `CURSOR` bits 31:16, R40. -/
  sy : Half
  /-- `SP`, R50. -/
  sp : Word
  /-- `PHASE`, hidden, R45. -/
  phase : Phase
  /-- `CX`, hidden, R45. -/
  cx : Half
  /-- `CY`, hidden, R45. -/
  cy : Half
  /-- `K`, hidden, 0 to 5, R45. -/
  k : Fin 6
  /-- space `GX`, id 0, R70. -/
  gx : Mem 16
  /-- space `GY`, id 1, R70. -/
  gy : Mem 16
  /-- space `MAG`, id 2, R70. -/
  mag : Mem 32
  /-- space `SUP`, id 3, R70. -/
  sup : Mem 32
  /-- space `OUT`, id 4, R70. -/
  out : Mem 8
  /-- space `VISIT`, id 5, R70, R54. -/
  visit : Mem 1
  /-- space `STACK`, id 6, R70, R50. -/
  stack : Mem 32
  /-- The model's own: what the outside will do, next first (log 1). -/
  inputs : List Input
  /-- The model's own: the value the last register read returned to the host, R255 (log 3). -/
  lastRead : Option Word
  /-- The model's own: the number of the next free value (log 4). -/
  freeCount : Nat
  deriving DecidableEq, Repr

/-- Why the machine has no next state. The spec gives every transaction in every state a next state
(93_implementation_defined.md); both faults stand for states that no run reaches. Log 14. -/
inductive Fault where
  /-- Raised by `LNEXT` when `STATUS.LIVE` = 1 and `PHASE = OFF`: R200 says the step function "is never run with `PHASE = OFF`".
  Safe. -/
  | tracerOff
  /-- Raised by `TRACE` or `LNEXT` when the traversal outlasts the step bound of R211, which the spec derives is impossible.
  Safe. -/
  | tracerStepBound
  deriving DecidableEq, Repr

/-- Why an instruction has no meaning. -/
inductive Refusal where
  /-- Raised by an arm of exec that has no meaning yet; every command has one, so no arm raises it. Safe. -/
  | notModelled (mnemonic : String)
  deriving DecidableEq, Repr

/-- A memory nothing has written: every sample is a free value of the arbitrary memory number `g` (R322). -/
def Mem.unspecified (w g : Nat) : Mem w := { cells := [], gen := g }

/-- The machine after hardware reset: the table of 70_reset_and_hazards.md R320. The spaces are unspecified (R322). The model's
own fields: no input is queued, nothing has been read, seven arbitrary memories are in use (log 1, 3, 4). -/
def State.reset : State where
  opstate := .idle
  live := false
  valid := false
  exhausted := false
  faultCause := .none
  faultOp := 0#8
  faultReg := 0#8
  width := 0#16
  height := 0#16
  low := 0#32
  high := 0#32
  addr := 0#32
  data := 0#32
  arg0 := 0#32
  arg1 := 0#32
  res := 0#32
  pix := 0#32
  sx := 0#16
  sy := 0#16
  sp := 0#32
  phase := .off
  cx := 0#16
  cy := 0#16
  k := 0
  gx := Mem.unspecified 16 0
  gy := Mem.unspecified 16 1
  mag := Mem.unspecified 32 2
  sup := Mem.unspecified 32 3
  out := Mem.unspecified 8 4
  visit := Mem.unspecified 1 5
  stack := Mem.unspecified 32 6
  inputs := []
  lastRead := none
  freeCount := 7

end Sys2Proof.Machine
end

