-- ==== Sys2Proof/Machine/Ops.lean ====
section
/-! DEFINITION. The named operations over memory and state that the meanings share: raster memories, pixels, the work stack,
free values, fault entry (taking the block's one kind of exception), the two resets (its only exits), and the issue of a
command. -/

namespace Sys2Proof.Machine

/-- The result of a command or of a step. -/
abbrev Result := Host.Outcome State Fault Refusal

/-! ### Raster memories (20_memory.md R70) -/

/-- The sample written at index `i`, if any. -/
def Mem.lookup {w : Nat} : List (Nat × BitVec w) → Nat → Option (BitVec w)
  | [], _ => none
  | (j, v) :: rest, i => if j = i then some v else Mem.lookup rest i

/-- Writing into the list of cells: the cell of index `i` is replaced, or put in its place. -/
def Mem.insert {w : Nat} (i : Nat) (v : BitVec w) : List (Nat × BitVec w) → List (Nat × BitVec w)
  | [] => [(i, v)]
  | (j, u) :: rest =>
    if i < j then (i, v) :: (j, u) :: rest
    else if i = j then (i, v) :: rest
    else (j, u) :: Mem.insert i v rest

/-- `M[i]`: a sample that nothing has written holds the free value of its index (R322). -/
def Mem.read {w : Nat} (m : Mem w) (i : Nat) : BitVec w :=
  match Mem.lookup m.cells i with
  | some v => v
  | none => (Config.freeSample m.gen i).setWidth w

/-- `M[i] <- v`. -/
def Mem.write {w : Nat} (m : Mem w) (i : Nat) (v : BitVec w) : Mem w :=
  { m with cells := Mem.insert i v m.cells }

/-- `M[i] <- f i` for every `i` below `n`; the samples at `n` and above keep what they hold (R71). -/
def Mem.fill {w : Nat} (m : Mem w) (n : Nat) (f : Nat → BitVec w) : Mem w :=
  { m with cells := (List.range n).map (fun i => (i, f i)) ++ m.cells.filter (fun c => decide (n ≤ c.1)) }

/-- Strictly rising indices, each at least `lo`. -/
def Mem.rising {w : Nat} : Nat → List (Nat × BitVec w) → Bool
  | _, [] => true
  | lo, (j, _) :: rest => decide (lo ≤ j) && Mem.rising (j + 1) rest

/-- The canonical form: strictly rising indices. An unlisted sample reads as no value of its own (a free value), so no cell can
equal it. Log 12. -/
def Mem.wf {w : Nat} (m : Mem w) : Bool := Mem.rising 0 m.cells

/-- No cell beyond the samples the space holds (R70). -/
def Mem.within {w : Nat} (bound : Nat) (m : Mem w) : Bool := m.cells.all fun c => decide (c.1 < bound)

/-! ### Pixels (00_scope.md R8) -/

/-- `W`. -/
def State.w (s : State) : Nat := s.width.toNat

/-- `H`. -/
def State.h (s : State) : Nat := s.height.toNat

/-- `W·H`: the samples of the current raster. -/
def State.area (s : State) : Nat := s.w * s.h

/-- `idx(x, y) = y·W + x`. -/
def State.idx (s : State) (x y : Nat) : Nat := y * s.w + x

/-- `interior(x, y)`: `1 ≤ x ≤ W − 2` and `1 ≤ y ≤ H − 2`, over mathematical integers (R8, R219). -/
def State.interior (s : State) (x y : Int) : Bool :=
  decide (1 ≤ x) && decide (x ≤ (s.w : Int) - 2) && decide (1 ≤ y) && decide (y ≤ (s.h : Int) - 2)

/-- Writing every pixel `(x, y)` of the raster: index `i` is pixel `(i mod W, i / W)` (R8). The order of the visits is free
(R135, R176). -/
def Mem.fillRaster {b : Nat} (m : Mem b) (s : State) (f : Nat → Nat → BitVec b) : Mem b :=
  m.fill s.area fun i => f (i % s.w) (i / s.w)

/-! ### The work stack (10_state.md R50, R52) -/

/-- A stack entry or a coordinate word: `y ‖ x`, `x` in bits 15:0 (R38, R50). -/
def coordWord (x y : Half) : Word := y ++ x

/-- The `x` of a coordinate word. -/
def coordX (e : Word) : Half := e.extractLsb' 0 16

/-- The `y` of a coordinate word. -/
def coordY (e : Word) : Half := e.extractLsb' 16 16

/-- `push(x, y)` on a stack of `depth` entries (R52): none stands for `STACK_OVF`. `SP` above the depth, which no run reaches,
overflows too (log 15). -/
def push (depth : Nat) (x y : Half) (s : State) : Option State :=
  if depth ≤ s.sp.toNat then none
  else some { s with stack := s.stack.write s.sp.toNat (coordWord x y), sp := s.sp + 1#32 }

/-- `pop()` (R52): none when the stack is empty. -/
def pop (s : State) : Option (Half × Half × State) :=
  if s.sp = 0#32 then none
  else
    let e := s.stack.read (s.sp - 1#32).toNat
    some (coordX e, coordY e, { s with sp := s.sp - 1#32 })

/-! ### Unspecified values (93_implementation_defined.md U6, U7, U8) -/

/-- Every sample of a space becomes unspecified: a new arbitrary memory (R322, U6). -/
def forgetSpace (sp : Space) (s : State) : State :=
  match sp with
  | .gx => { s with gx := Mem.unspecified 16 s.freeCount, freeCount := s.freeCount + 1 }
  | .gy => { s with gy := Mem.unspecified 16 s.freeCount, freeCount := s.freeCount + 1 }
  | .mag => { s with mag := Mem.unspecified 32 s.freeCount, freeCount := s.freeCount + 1 }
  | .sup => { s with sup := Mem.unspecified 32 s.freeCount, freeCount := s.freeCount + 1 }
  | .out => { s with out := Mem.unspecified 8 s.freeCount, freeCount := s.freeCount + 1 }
  | .visit => { s with visit := Mem.unspecified 1 s.freeCount, freeCount := s.freeCount + 1 }
  | .stack => { s with stack := Mem.unspecified 32 s.freeCount, freeCount := s.freeCount + 1 }

/-- A phase read from a free value: any of the five (log 8). -/
def phaseOfFree (v : Word) : Phase :=
  match v.toNat % 5 with
  | 0 => .off
  | 1 => .scan
  | 2 => .pop
  | 3 => .expand
  | _ => .done

/-- `SP`, `CURSOR` and the hidden tracer state become unspecified (R284, R293; log 6, log 8). -/
def forgetTracer (s : State) : State :=
  { s with
    sp := Config.freeWord s.freeCount
    sx := coordX (Config.freeWord (s.freeCount + 1))
    sy := coordY (Config.freeWord (s.freeCount + 1))
    phase := phaseOfFree (Config.freeWord (s.freeCount + 2))
    cx := coordX (Config.freeWord (s.freeCount + 3))
    cy := coordY (Config.freeWord (s.freeCount + 3))
    k := Fin.ofNat 6 (Config.freeWord (s.freeCount + 4)).toNat
    freeCount := s.freeCount + 5 }

/-- `PIX` becomes unspecified (U7). -/
def forgetPix (s : State) : State := { s with pix := Config.freeWord s.freeCount, freeCount := s.freeCount + 1 }

/-- `RES` becomes unspecified (U7). -/
def forgetRes (s : State) : State := { s with res := Config.freeWord s.freeCount, freeCount := s.freeCount + 1 }

/-- `DATA` becomes unspecified (U7). -/
def forgetData (s : State) : State := { s with data := Config.freeWord s.freeCount, freeCount := s.freeCount + 1 }

/-- `ADDR` becomes unspecified (U7). -/
def forgetAddr (s : State) : State := { s with addr := Config.freeWord s.freeCount, freeCount := s.freeCount + 1 }

/-- The spaces an abandoned command was writing become unspecified (R284, R321, U6). `STS` writes the space it names; the spec's
lists leave it out (log 5). -/
def abandonSpaces (i : Instr) (s : State) : State :=
  match i with
  | .nop => s
  | .hypot => forgetSpace .mag s
  | .nms => forgetSpace .sup s
  | .trace => forgetSpace .stack (forgetSpace .visit (forgetSpace .out s))
  | .lstart => forgetSpace .stack (forgetSpace .visit s)
  | .lnext => forgetSpace .stack (forgetSpace .visit s)
  | .ldrop => s
  | .hypq => s
  | .dirq => s
  | .lds _ _ => s
  | .sts sp _ => forgetSpace sp s
  | .srst => s

/-- The registers an abandoned command was writing become unspecified (R284, U7; log 6). -/
def abandonRegisters (i : Instr) (s : State) : State :=
  match i with
  | .nop => s
  | .hypot => s
  | .nms => s
  | .trace => forgetTracer s
  | .lstart => forgetPix (forgetTracer s)
  | .lnext => forgetPix (forgetTracer s)
  | .ldrop => forgetPix (forgetTracer s)
  | .hypq => forgetRes s
  | .dirq => forgetRes s
  | .lds _ inc => if inc then forgetAddr (forgetData s) else forgetData s
  | .sts _ inc => if inc then forgetAddr s else s
  | .srst => s

/-- A command abandoned where it stands (R284). -/
def abandon (i : Instr) (s : State) : State := abandonRegisters i (abandonSpaces i s)

/-! ### Fault entry (60_exceptions.md R290) -/

/-- `raise F(…)`: record the cause, the opcode and the register number, and stop in `FAULTED`. A fault already recorded stands
(R292: the first fault wins). Nothing else changes. -/
def raiseFault (c : Cause) (op regno : Byte) (s : State) : State :=
  match s.opstate with
  | .faulted => s
  | .idle => { s with opstate := .faulted, faultCause := c, faultOp := op, faultReg := regno }
  | .busy _ => { s with opstate := .faulted, faultCause := c, faultOp := op, faultReg := regno }

/-- `BUSY_VIOLATION` (R284): a transaction on register `n` while `i` executes. `i` is abandoned. -/
def busyViolation (i : Instr) (n : Byte) (s : State) : State :=
  raiseFault .busyViolation (opcodeOf i) n (abandon i s)

/-- `STACK_OVF` (R293) during `i`: what the traversal was writing becomes unspecified, `PIX` with it (log 6). -/
def stackOverflow (i : Instr) (s : State) : State :=
  raiseFault .stackOvf (opcodeOf i) 0#8 (forgetPix (forgetTracer (abandonSpaces i s)))

/-! ### The two resets, the only exits from `FAULTED` (60_exceptions.md R297) -/

/-- Every register and every piece of hidden state at the value of R320's table. -/
def resetRegisters (s : State) : State :=
  { s with
    opstate := .idle
    live := false
    valid := false
    exhausted := false
    faultCause := .none
    faultOp := 0#8
    faultReg := 0#8
    width := 0#16
    height := 0#16
    low := 0#32
    high := 0#32
    addr := 0#32
    data := 0#32
    arg0 := 0#32
    arg1 := 0#32
    res := 0#32
    pix := 0#32
    sx := 0#16
    sy := 0#16
    sp := 0#32
    phase := .off
    cx := 0#16
    cy := 0#16
    k := 0 }

/-- The soft reset of R321: a command running is abandoned, and no memory sample is written. -/
def softReset (s : State) : State :=
  match s.opstate with
  | .idle => resetRegisters s
  | .busy i => resetRegisters (abandonSpaces i s)
  | .faulted => resetRegisters s

/-- The hardware reset of R320: every space is unspecified afterwards (R322). -/
def hardReset (s : State) : State :=
  resetRegisters (forgetSpace .stack (forgetSpace .visit (forgetSpace .out (forgetSpace .sup (forgetSpace .mag
    (forgetSpace .gy (forgetSpace .gx s)))))))

/-! ### The issue of a command (30_encoding.md R104, steps 2, 3, 5 and 6) -/

/-- A decoded command reaches the block: ignored when faulted (R292), a busy violation on register `CMD` when another command is
running (R284), otherwise its issue-time checks and then, when they pass, its pseudocode, as one transition (R5; log 2). -/
def issue (i : Instr) (check : State → Option Cause) (body : State → Result) (s : State) : Result :=
  match s.opstate with
  | .faulted => .next s
  | .busy j => .next (busyViolation j 0x01#8 s)
  | .idle =>
    match check s with
    | some c => .next (raiseFault c (opcodeOf i) 0#8 s)
    | none => body s

/-- A command without issue-time checks. -/
def noCheck (_ : State) : Option Cause := none

end Sys2Proof.Machine
end

