-- ==== Sys2Proof/Machine/Flags.lean ====
section
/-! DEFINITION. The flag and comparison computations: the `STATUS` and `FAULT` words (10_state.md R27, R30), the binary32
comparisons (00_scope.md R10), and the issue-time conditions that are computed from registers (60_exceptions.md R285 to R289).
The block has no arithmetic condition codes. -/

namespace Sys2Proof.Machine

/-! ### Register views -/

/-- The code of a cause (R281). -/
def causeCode : Cause → Byte
  | .none => 0x00#8
  | .illegalCmd => 0x01#8
  | .badAccess => 0x02#8
  | .busyViolation => 0x03#8
  | .locked => 0x04#8
  | .dimSmall => 0x05#8
  | .dimLarge => 0x06#8
  | .thresh => 0x07#8
  | .noProducer => 0x08#8
  | .addrRange => 0x09#8
  | .stackOvf => 0x0A#8

/-- `STATUS.BUSY` (R21, R27). -/
def State.busyFlag (s : State) : Bool :=
  match s.opstate with
  | .idle => false
  | .busy _ => true
  | .faulted => false

/-- `STATUS.FAULTED` (R21, R27). -/
def State.faultedFlag (s : State) : Bool :=
  match s.opstate with
  | .idle => false
  | .busy _ => false
  | .faulted => true

/-- The `STATUS` word (R27): bit 0 `BUSY`, 1 `FAULTED`, 2 `LIVE`, 3 `VALID`, 4 `EXHAUSTED`, 31:5 zero. -/
def statusWord (s : State) : Word :=
  0#27 ++ BitVec.ofBool s.exhausted ++ BitVec.ofBool s.valid ++ BitVec.ofBool s.live ++ BitVec.ofBool s.faultedFlag ++
    BitVec.ofBool s.busyFlag

/-- The `FAULT` word (R30): `CAUSE` 7:0, `OP` 15:8, `REGNO` 23:16, 31:24 zero. -/
def faultWord (s : State) : Word := 0#8 ++ s.faultReg ++ s.faultOp ++ causeCode s.faultCause

/-! ### Binary32 comparisons (R10) -/

/-- `+0.0`. -/
def posZero : Word := 0x00000000#32

/-- The exponent field of a binary32 bit pattern. -/
def expField (a : Word) : BitVec 8 := a.extractLsb' 23 8

/-- The fraction field of a binary32 bit pattern. -/
def fracField (a : Word) : BitVec 23 := a.extractLsb' 0 23

/-- A NaN: exponent all ones and fraction not zero. -/
def isNaN (a : Word) : Bool := decide (expField a = 0xFF#8) && decide (fracField a ≠ 0#23)

/-- The order of binary32 values, −0.0 equal to +0.0: sign and magnitude read as an integer. -/
def orderKey (a : Word) : Int :=
  if a.getLsbD 31 then -((a.extractLsb' 0 31).toNat : Int) else ((a.extractLsb' 0 31).toNat : Int)

/-- `lt(a, b)`: quiet, false when either is a NaN. -/
def fLt (a b : Word) : Bool := !isNaN a && !isNaN b && decide (orderKey a < orderKey b)

/-- `le(a, b)`: quiet, false when either is a NaN. -/
def fLe (a b : Word) : Bool := !isNaN a && !isNaN b && decide (orderKey a ≤ orderKey b)

/-- `ge(a, b)`: quiet, false when either is a NaN. -/
def fGe (a b : Word) : Bool := !isNaN a && !isNaN b && decide (orderKey b ≤ orderKey a)

/-! ### Issue-time conditions -/

/-- The thresholds are valid (43_hysteresis_tracer_eager.md R193). -/
def thresholdsValid (s : State) : Bool := fGe s.low posZero && fGe s.high posZero && fLe s.low s.high

/-- `W·H > CAP` (R287), the product as a mathematical integer. -/
def dimTooLarge (s : State) : Bool := decide (Config.cap < s.area)

/-- `W < 3` or `H < 3` (R286). -/
def dimTooSmall (s : State) : Bool := decide (s.w < 3) || decide (s.h < 3)

/-- The dimension checks of R194 and R174: `DIM_LARGE`, then `DIM_SMALL` (R295). -/
def dimCheck (s : State) : Option Cause :=
  if dimTooLarge s then some .dimLarge else if dimTooSmall s then some .dimSmall else none

/-- The issue-time checks that `TRACE` and `LSTART` share, in the order of R295: `LOCKED`, `THRESH`, `DIM_LARGE`, `DIM_SMALL`
(R215, R231). -/
def traversalCheck (s : State) : Option Cause :=
  if s.live then some .locked else if thresholdsValid s then dimCheck s else some .thresh

end Sys2Proof.Machine
end

