-- ==== Sys2Proof/Machine/Operands.lean ====
section
/-! DEFINITION. The operand forms: the query operands (10_state.md R36), the host's sample accesses with their range check,
extension and truncation (20_memory.md R80, R81, R82), the two addressing modes (45_host_access_and_system.md R252), and the
readable registers by number (10_state.md R22). -/

namespace Sys2Proof.Machine

/-- `gx = ARG0[15:0]` (R36). -/
def State.argGx (s : State) : Half := s.arg0.extractLsb' 0 16

/-- `gy = ARG1[15:0]` (R36). -/
def State.argGy (s : State) : Half := s.arg1.extractLsb' 0 16

/-- The range check of R82. -/
def inRange (sp : Space) (i : Nat) (s : State) : Bool :=
  match sp with
  | .gx => decide (i < s.area) && decide (s.area ≤ Config.cap)
  | .gy => decide (i < s.area) && decide (s.area ≤ Config.cap)
  | .mag => decide (i < s.area) && decide (s.area ≤ Config.cap)
  | .sup => decide (i < s.area) && decide (s.area ≤ Config.cap)
  | .out => decide (i < s.area) && decide (s.area ≤ Config.cap)
  | .visit => decide (i < s.area) && decide (s.area ≤ Config.cap)
  | .stack => decide (i < s.sp.toNat)

/-- `MemRead(space, i)` after its range check (R80): gradients are sign-extended, `OUT` and `VISIT` zero-extended, the others
passed unchanged. -/
def memRead (sp : Space) (i : Nat) (s : State) : Word :=
  match sp with
  | .gx => (s.gx.read i).signExtend 32
  | .gy => (s.gy.read i).signExtend 32
  | .mag => s.mag.read i
  | .sup => s.sup.read i
  | .out => (s.out.read i).zeroExtend 32
  | .visit => (s.visit.read i).zeroExtend 32
  | .stack => s.stack.read i

/-- `MemWrite(space, i, v)` after its checks (R81): the low 16, 32 or 8 bits are stored. The host cannot write `VISIT` or `STACK`;
those two arms are never reached (the word is illegal, R110). -/
def memWrite (sp : Space) (i : Nat) (v : Word) (s : State) : State :=
  match sp with
  | .gx => { s with gx := s.gx.write i (v.extractLsb' 0 16) }
  | .gy => { s with gy := s.gy.write i (v.extractLsb' 0 16) }
  | .mag => { s with mag := s.mag.write i v }
  | .sup => { s with sup := s.sup.write i v }
  | .out => { s with out := s.out.write i (v.extractLsb' 0 8) }
  | .visit => s
  | .stack => s

/-- The addressing modes of R252: after the access, `ADDR + 1` modulo 2^32 when `inc` = 1. -/
def postIncrement (inc : Bool) (s : State) : State := if inc then { s with addr := s.addr + 1#32 } else s

/-- The value of a readable register by its number (R22); none for `CMD` and for the undefined numbers. -/
def regValue (n : Byte) (s : State) : Option Word :=
  match n.toNat with
  | 0x00 => some Config.idValue
  | 0x02 => some (statusWord s)
  | 0x03 => some (faultWord s)
  | 0x04 => some (s.width.zeroExtend 32)
  | 0x05 => some (s.height.zeroExtend 32)
  | 0x06 => some s.low
  | 0x07 => some s.high
  | 0x08 => some s.addr
  | 0x09 => some s.data
  | 0x0A => some s.arg0
  | 0x0B => some s.arg1
  | 0x0C => some s.res
  | 0x0D => some s.pix
  | 0x0E => some (coordWord s.sx s.sy)
  | 0x0F => some s.sp
  | _ => none

end Sys2Proof.Machine
end

