-- ==== Sys2Proof/Machine/Direction.lean ====
section
/-! DEFINITION. The direction_classifier unit (41_direction_classifier.md): the buckets, the function `dir`, the command
`DIRQ`. -/

namespace Sys2Proof.Machine

/-- The four direction buckets (R150). -/
inductive Bucket where
  | d0
  | d45
  | d90
  | d135
  deriving DecidableEq, Repr

/-- The code of a bucket (R150). -/
def bucketCode : Bucket → BitVec 2
  | .d0 => 0#2
  | .d45 => 1#2
  | .d90 => 2#2
  | .d135 => 3#2

/-- The classifier for a vector with `gy ≥ 0`: the part of R152 after the negation step. -/
def dirUpper (gx gy : Int) : Bucket :=
  if gy = 0 then .d0
  else if gx = 0 then .d90
  else
    let u : Int := (gx.natAbs : Int)
    if (u + gy) * (u + gy) < 2 * (u * u) then .d0
    else if gy ≤ u ∨ (gy - u) * (gy - u) < 2 * (u * u) then (if 0 < gx then .d45 else .d135)
    else .d90

/-- The default `DIR_FN` in its integer form (R152), over exact integers. Log 10. -/
def dir (gx gy : Int) : Bucket := if gy < 0 then dirUpper (-gx) (-gy) else dirUpper gx gy

/-- `DIR_FN` on two signed 16-bit samples (R151). -/
def dirFn (gx gy : Half) : Bucket := dir gx.toInt gy.toInt

/-- `DIRQ` (R158): the bucket code of `ARG0`, `ARG1` into `RES`. -/
def execDirq (s : State) : Result :=
  issue .dirq noCheck (fun s => .next { s with res := (bucketCode (dirFn s.argGx s.argGy)).zeroExtend 32 }) s

end Sys2Proof.Machine
end

