-- ==== Sys2Proof/Machine/HostAccess.lean ====
section
/-! DEFINITION. The host's loads and stores (45_host_access_and_system.md): `LDS`, `STS`. -/

namespace Sys2Proof.Machine

/-- The issue-time check of `LDS` (R250). -/
def ldsCheck (sp : Space) (s : State) : Option Cause := if inRange sp s.addr.toNat s then none else some .addrRange

/-- `LDS` (R250). -/
def execLds (sp : Space) (inc : Bool) (s : State) : Result :=
  issue (.lds sp inc) (ldsCheck sp) (fun s => .next (postIncrement inc { s with data := memRead sp s.addr.toNat s })) s

/-- The store is locked (10_state.md R29): `SUP` while a producer is live. -/
def storeLocked (sp : Space) (s : State) : Bool := decide (sp = .sup) && s.live

/-- The issue-time checks of `STS` (R251): an unwritable space is an illegal word (R110 (e); log 22), then `LOCKED`, then
`ADDR_RANGE`. -/
def stsCheck (sp : Space) (s : State) : Option Cause :=
  if sp.hostWritable then
    if storeLocked sp s then some .locked else if inRange sp s.addr.toNat s then none else some .addrRange
  else some .illegalCmd

/-- `STS` (R251). -/
def execSts (sp : Space) (inc : Bool) (s : State) : Result :=
  issue (.sts sp inc) (stsCheck sp) (fun s => .next (postIncrement inc (memWrite sp s.addr.toNat s.data s))) s

end Sys2Proof.Machine
end

