-- ==== Sys2Proof/Machine/Hypot.lean ====
section
/-! DEFINITION. The hypot_accumulator unit (40_hypot_accumulator.md): the function `hypot32` and the commands `HYPOT`, `HYPQ`. -/

namespace Sys2Proof.Machine

/-- The integer square root of a number below `4^b`, added to `acc`: bit by bit from bit `b - 1` down. -/
def isqrt : Nat → Nat → Nat → Nat
  | 0, acc, _ => acc
  | b + 1, acc, n => if (acc + 2 ^ b) * (acc + 2 ^ b) ≤ n then isqrt b (acc + 2 ^ b) n else isqrt b acc n

/-- The number `⌊log₂ √n⌋`: the exponent of the square root of `n > 0`. -/
def sqrtExponent (n : Nat) : Nat := Nat.log2 n / 2

/-- `√n` scaled to 24 significant bits and rounded to the nearest integer: with `a = n·4^(23 − k)`, the root of `a` is rounded up
exactly when it exceeds `r + ½`, which no integer `a` meets with equality (R131: a tie never occurs). -/
def sqrtSignificand (n : Nat) : Nat :=
  let a := n * 4 ^ (23 - sqrtExponent n)
  let r := isqrt 24 0 a
  if r * r + r < a then r + 1 else r

/-- The binary32 bit pattern of the correctly rounded `√n` (R131). A significand that rounds up to `2^24` carries into the
exponent field. -/
def sqrtBits (n : Nat) : Nat :=
  if n = 0 then 0 else (sqrtExponent n + 126) * 2 ^ 23 + sqrtSignificand n

/-- The default `HYPOT_FN` (R131): the correctly rounded binary32 square root of the exact integer `gx² + gy²`. Log 9. -/
def hypot32 (gx gy : Int) : Word := BitVec.ofNat 32 (sqrtBits (gx * gx + gy * gy).toNat)

/-- `HYPOT_FN` on two signed 16-bit samples (R130). -/
def hypotFn (gx gy : Half) : Word := hypot32 gx.toInt gy.toInt

/-- The whole-raster magnitude with a given `HYPOT_FN`: the pseudocode of R134. -/
def hypotRaster (fn : Half → Half → Word) (s : State) : State :=
  { s with mag := s.mag.fill s.area fun i => fn (s.gx.read i) (s.gy.read i) }

/-- The issue-time check of `HYPOT` (R134). -/
def hypotCheck (s : State) : Option Cause := if dimTooLarge s then some .dimLarge else none

/-- `HYPOT` (R134). -/
def execHypot (s : State) : Result := issue .hypot hypotCheck (fun s => .next (hypotRaster hypotFn s)) s

/-- `HYPQ` (R138): one evaluation on `ARG0`, `ARG1` into `RES`. -/
def execHypq (s : State) : Result := issue .hypq noCheck (fun s => .next { s with res := hypotFn s.argGx s.argGy }) s

end Sys2Proof.Machine
end

