-- ==== Sys2Proof/Machine/Tracer.lean ====
section
/-! DEFINITION. The hysteresis tracer (43_hysteresis_tracer_eager.md): traversal start, the step function that both forms share,
and the eager command `TRACE`. -/

namespace Sys2Proof.Machine

/-- The event of a tracer step (R200). -/
inductive Event where
  | none
  | found (x y : Half)
  | done
  deriving DecidableEq, Repr

/-- What one tracer step answers: a new state and an event, `STACK_OVF` (R52), or no step at all because `PHASE = OFF`, in which
the step function is never run (R200). -/
inductive TOutcome where
  | step (s : State) (e : Event)
  | overflow
  | off
  deriving DecidableEq, Repr

/-- `TInit` (R195), but for the visit map. -/
def startTraversal (s : State) : State :=
  { s with sp := 0#32, sx := 1#16, sy := 1#16, phase := .scan, cx := 0#16, cy := 0#16, k := 0 }

/-- `TInit` (R195): the visit map cleared, the stack emptied, the cursor at (1, 1). -/
def tInit (s : State) : State := startTraversal { s with visit := s.visit.fill s.area fun _ => 0#1 }

/-- The cursor's advance (R41): one position in row-major interior order. -/
def advanceCursor (s : State) : State :=
  if s.sx.toNat + 2 < s.w then { s with sx := s.sx + 1#16 } else { s with sx := 1#16, sy := s.sy + 1#16 }

/-- The pixel is Unvisited and its suppressed magnitude is at least the threshold (R190, R191). -/
def qualifies (s : State) (threshold : Word) (x y : Nat) : Bool :=
  decide (s.visit.read (s.idx x y) = 0#1) && fGe (s.sup.read (s.idx x y)) threshold

/-- A discovery (R203, R206): the visit bit set, the pixel pushed, `Found` reported. -/
def discover (depth : Nat) (x y : Half) (s : State) : TOutcome :=
  match push depth x y { s with visit := s.visit.write (s.idx x.toNat y.toNat) 1#1 } with
  | some t => .step t (.found x y)
  | none => .overflow

/-- The step in phase `SCAN` (R203). -/
def stepScan (depth : Nat) (s : State) : TOutcome :=
  if s.h ≤ s.sy.toNat + 1 then .step { s with phase := .done } .done
  else
    let x := s.sx
    let y := s.sy
    let t := advanceCursor s
    if qualifies s s.high x.toNat y.toNat then discover depth x y { t with phase := .pop } else .step t .none

/-- The step in phase `POP` (R204). -/
def stepPop (s : State) : TOutcome :=
  match pop s with
  | none => .step { s with phase := .scan } .none
  | some (x, y, t) => .step { t with cx := x, cy := y, k := 0, phase := .expand } .none

/-- The `dx` of the offset table (R205). -/
def offsetX (k : Fin 6) : Int :=
  match k.val with
  | 0 => 1
  | 1 => 1
  | 2 => 0
  | 3 => -1
  | 4 => -1
  | _ => -1

/-- The `dy` of the offset table (R205). -/
def offsetY (k : Fin 6) : Int :=
  match k.val with
  | 0 => 0
  | 1 => 1
  | 2 => 1
  | 3 => -1
  | 4 => 0
  | _ => 1

/-- The neighbour index moves on; after the sixth the phase returns to `POP` (R206). -/
def nextNeighbour (s : State) : State :=
  if s.k.val = 5 then { s with phase := .pop, k := 0 } else { s with k := Fin.ofNat 6 (s.k.val + 1) }

/-- The step in phase `EXPAND` (R206), over exact integers (R219): `SUP` and `VISIT` are read only at interior pixels. -/
def stepExpand (depth : Nat) (s : State) : TOutcome :=
  let nx : Int := s.cx.toNat + offsetX s.k
  let ny : Int := s.cy.toNat + offsetY s.k
  let t := nextNeighbour s
  if s.interior nx ny && qualifies s s.low nx.toNat ny.toNat then
    discover depth (BitVec.ofNat 16 nx.toNat) (BitVec.ofNat 16 ny.toNat) t
  else .step t .none

/-- `TStep` (R200) with a stack of `depth` entries. -/
def tStep (depth : Nat) (s : State) : TOutcome :=
  match s.phase with
  | .off => .off
  | .scan => stepScan depth s
  | .pop => stepPop s
  | .expand => stepExpand depth s
  | .done => .step s .done

/-- How the loop of `TRACE` ends; `bound` when the steps allowed ran out. -/
inductive TraceEnd where
  | done (s : State)
  | overflow
  | off
  | bound
  deriving DecidableEq, Repr

/-- `OUT[x, y] <- FG` (R215). -/
def writeForeground (x y : Half) (s : State) : State :=
  { s with out := s.out.write (s.idx x.toNat y.toNat) Config.fg }

/-- The loop of R215, at most `n` tracer steps. -/
def traceLoop (depth : Nat) : Nat → State → TraceEnd
  | 0, _ => .bound
  | n + 1, s =>
    match tStep depth s with
    | .step t .none => traceLoop depth n t
    | .step t (.found x y) => traceLoop depth n (writeForeground x y t)
    | .step t .done => .done t
    | .overflow => .overflow
    | .off => .off

/-- The number of interior pixels, `I = (W − 2)·(H − 2)` (R211). -/
def State.interiorCount (s : State) : Nat := (s.w - 2) * (s.h - 2)

/-- The bound of R211 on the steps of a whole traversal. -/
def traceBound (s : State) : Nat := 9 * s.interiorCount + 1

/-- `OUT` initialised to background, then `TInit` (R215). -/
def traceStart (s : State) : State := tInit { s with out := s.out.fill s.area fun _ => Config.bg }

/-- The pseudocode of `TRACE` (R215) with a stack of `depth` entries. -/
def traceBody (depth : Nat) (s : State) : Result :=
  match traceLoop depth (traceBound s) (traceStart s) with
  | .done t => .next t
  | .overflow => .next (stackOverflow .trace s)
  | .off => .fault .tracerOff
  | .bound => .fault .tracerStepBound

/-- `TRACE` (R215). -/
def execTrace (s : State) : Result := issue .trace traversalCheck (traceBody Config.stackDepth) s

/-- The traversal order (R214): the coordinates of the `Found` events, first discovered first, of at most `n` tracer steps. -/
def discoveries (depth : Nat) : Nat → State → List (Half × Half)
  | 0, _ => []
  | n + 1, s =>
    match tStep depth s with
    | .step t .none => discoveries depth n t
    | .step t (.found x y) => (x, y) :: discoveries depth n t
    | .step _ .done => []
    | .overflow => []
    | .off => []

end Sys2Proof.Machine
end

