-- ==== Sys2Proof/Machine/Lazy.lean ====
section
/-! DEFINITION. The lazy form of the hysteresis tracer (44_hysteresis_tracer_lazy.md): `LSTART`, `LNEXT`, `LDROP`. -/

namespace Sys2Proof.Machine

/-- The pseudocode of `LSTART` (R231). -/
def lstartBody (s : State) : State :=
  { tInit s with pix := 0#32, valid := false, exhausted := false, live := true }

/-- `LSTART` (R231). -/
def execLstart (s : State) : Result := issue .lstart traversalCheck (fun s => .next (lstartBody s)) s

/-- How the loop of `LNEXT` ends; `bound` when the steps allowed ran out. -/
inductive NextEnd where
  | found (s : State) (x y : Half)
  | exhausted (s : State)
  | overflow
  | off
  | bound
  deriving DecidableEq, Repr

/-- The loop of R234, at most `n` tracer steps. -/
def nextLoop (depth : Nat) : Nat → State → NextEnd
  | 0, _ => .bound
  | n + 1, s =>
    match tStep depth s with
    | .step t .none => nextLoop depth n t
    | .step t (.found x y) => .found t x y
    | .step t .done => .exhausted t
    | .overflow => .overflow
    | .off => .off

/-- A bound on the steps of one request, good in every state: seven for each stack entry and for the pixel being expanded, one
for each position the cursor can still take, and the last. -/
def nextBound (s : State) : Nat := 7 * s.sp.toNat + s.h * (s.w + 1) + 9

/-- A coordinate is yielded (R234). -/
def yieldPixel (x y : Half) (s : State) : State :=
  { s with pix := coordWord x y, valid := true, exhausted := false }

/-- Exhaustion is reported (R234); `PIX` is unchanged. -/
def reportExhausted (s : State) : State := { s with valid := false, exhausted := true }

/-- The pseudocode of `LNEXT` (R234) with a stack of `depth` entries. -/
def lnextBody (depth : Nat) (s : State) : Result :=
  match nextLoop depth (nextBound s) s with
  | .found t x y => .next (yieldPixel x y t)
  | .exhausted t => .next (reportExhausted t)
  | .overflow => .next (stackOverflow .lnext s)
  | .off => .fault .tracerOff
  | .bound => .fault .tracerStepBound

/-- The issue-time check of `LNEXT` (R234). -/
def lnextCheck (s : State) : Option Cause := if s.live then none else some .noProducer

/-- `LNEXT` (R234). -/
def execLnext (s : State) : Result := issue .lnext lnextCheck (lnextBody Config.stackDepth) s

/-- The pseudocode of `LDROP` (R238). -/
def ldropBody (s : State) : State :=
  { s with
    live := false
    valid := false
    exhausted := false
    phase := .off
    sx := 0#16
    sy := 0#16
    sp := 0#32
    cx := 0#16
    cy := 0#16
    k := 0
    pix := 0#32 }

/-- `LDROP` (R238). -/
def execLdrop (s : State) : Result := issue .ldrop noCheck (fun s => .next (ldropBody s)) s

end Sys2Proof.Machine
end

