-- ==== Sys2Proof/Machine/Nms.lean ====
section
/-! DEFINITION. The nms_ridge_thinner unit (42_nms_ridge_thinner.md): the neighbour lookup, keep or suppress, the command
`NMS`. -/

namespace Sys2Proof.Machine

/-- The comparison neighbour `p` of an interior pixel (R171). -/
def neighbourP (b : Bucket) (x y : Nat) : Nat × Nat :=
  match b with
  | .d0 => (x - 1, y)
  | .d45 => (x + 1, y + 1)
  | .d90 => (x, y - 1)
  | .d135 => (x - 1, y + 1)

/-- The comparison neighbour `q` of an interior pixel (R171). -/
def neighbourQ (b : Bucket) (x y : Nat) : Nat × Nat :=
  match b with
  | .d0 => (x + 1, y)
  | .d45 => (x - 1, y - 1)
  | .d90 => (x, y + 1)
  | .d135 => (x + 1, y - 1)

/-- `MAG[x, y]`. -/
def State.magAt (s : State) (p : Nat × Nat) : Word := s.mag.read (s.idx p.1 p.2)

/-- Keep or suppress (R172): a magnitude strictly less than either neighbour's becomes +0.0. -/
def thin (m p q : Word) : Word := if fLt m p || fLt m q then posZero else m

/-- The bucket of a pixel (R171). -/
def State.bucketAt (dirOf : Half → Half → Bucket) (s : State) (x y : Nat) : Bucket :=
  dirOf (s.gx.read (s.idx x y)) (s.gy.read (s.idx x y))

/-- The sample of `SUP` that `NMS` computes for a pixel (R172, R173, R174). -/
def suppressed (dirOf : Half → Half → Bucket) (s : State) (x y : Nat) : Word :=
  if s.interior x y then
    let b := s.bucketAt dirOf x y
    thin (s.magAt (x, y)) (s.magAt (neighbourP b x y)) (s.magAt (neighbourQ b x y))
  else posZero

/-- The whole-raster suppression with a given `DIR_FN`: the pseudocode of R174. -/
def nmsRaster (dirOf : Half → Half → Bucket) (s : State) : State :=
  { s with sup := s.sup.fillRaster s (suppressed dirOf s) }

/-- The issue-time checks of `NMS` (R174): `LOCKED`, `DIM_LARGE`, `DIM_SMALL`. -/
def nmsCheck (s : State) : Option Cause := if s.live then some .locked else dimCheck s

/-- `NMS` (R174). -/
def execNms (s : State) : Result := issue .nms nmsCheck (fun s => .next (nmsRaster dirFn s)) s

end Sys2Proof.Machine
end

