-- ==== Sys2Proof/Machine/System.lean ====
section
/-! DEFINITION. The system commands (45_host_access_and_system.md): `NOP`, `SRST`. -/

namespace Sys2Proof.Machine

/-- `NOP` (R260): accepted like any command, and changes nothing. -/
def execNop (s : State) : Result := issue .nop noCheck (fun s => .next s) s

/-- `SRST` (R262): the soft reset of R321, in every `OPSTATE`. -/
def execSrst (s : State) : Result := .next (softReset s)

end Sys2Proof.Machine
end

