-- ==== Sys2Proof/Machine/Dispatch.lean ====
section
/-! DEFINITION. The meaning of each command, one arm per constructor of `Instr`. -/

namespace Sys2Proof.Machine

/-- A command reaches the block in a given state (30_encoding.md R104). -/
def exec (i : Instr) (s : State) : Host.Outcome State Fault Refusal :=
  match i with
  | .nop => Sys2Proof.Machine.execNop s
  | .hypot => Sys2Proof.Machine.execHypot s
  | .nms => Sys2Proof.Machine.execNms s
  | .trace => Sys2Proof.Machine.execTrace s
  | .lstart => Sys2Proof.Machine.execLstart s
  | .lnext => Sys2Proof.Machine.execLnext s
  | .ldrop => Sys2Proof.Machine.execLdrop s
  | .hypq => Sys2Proof.Machine.execHypq s
  | .dirq => Sys2Proof.Machine.execDirq s
  | .lds sp inc => Sys2Proof.Machine.execLds sp inc s
  | .sts sp inc => Sys2Proof.Machine.execSts sp inc s
  | .srst => Sys2Proof.Machine.execSrst s

end Sys2Proof.Machine
end

