-- ==== Sys2Proof/Machine/Port.lean ====
section
/-! DEFINITION. The host port: the register read and write transactions (45_host_access_and_system.md R255, R256), the write to
`CMD` (30_encoding.md R104), the busy interval (70_reset_and_hazards.md R330), and the notation of host scripts
(30_encoding.md R115, R118). -/

namespace Sys2Proof.Machine

/-- The number of register `CMD` (10_state.md R22). -/
def cmdNumber : Byte := 0x01#8

/-- The word of `SRST`, the one word accepted in every `OPSTATE` (R104, R262). -/
def srstWord : Word := 0xFF000000#32

/-- The issue-time checks of a command (R104 step 5), each in its own rule. -/
def issueFault (i : Instr) (s : State) : Option Cause :=
  match i with
  | .nop => noCheck s
  | .hypot => hypotCheck s
  | .nms => nmsCheck s
  | .trace => traversalCheck s
  | .lstart => traversalCheck s
  | .lnext => lnextCheck s
  | .ldrop => noCheck s
  | .hypq => noCheck s
  | .dirq => noCheck s
  | .lds sp _ => ldsCheck sp s
  | .sts sp _ => stsCheck sp s
  | .srst => noCheck s

/-! ### Reads -/

/-- A read that returns a value. -/
def returnValue (v : Word) (s : State) : State := { s with lastRead := some v }

/-- A read that returns an unspecified value (U8; log 7). -/
def returnFree (s : State) : State :=
  { s with lastRead := some (Config.freeWord s.freeCount), freeCount := s.freeCount + 1 }

/-- The registers readable while a command runs: `ID`, `STATUS`, `FAULT` (R255). -/
def readableWhenBusy (n : Byte) : Bool := decide (n = 0x00#8) || decide (n = 0x02#8) || decide (n = 0x03#8)

/-- A register read (R255). -/
def readRegister (n : Byte) (s : State) : State :=
  match s.opstate with
  | .idle =>
    match regValue n s with
    | some v => returnValue v s
    | none => raiseFault .badAccess 0x00#8 n (returnFree s)
  | .busy i =>
    if readableWhenBusy n then
      match regValue n s with
      | some v => returnValue v s
      | none => returnFree s
    else busyViolation i n (returnFree s)
  | .faulted =>
    match regValue n s with
    | some v => returnValue v s
    | none => returnFree s

/-! ### Writes -/

/-- A write to a register that a live producer owns (10_state.md R29, R285). -/
def lockedWrite (n : Byte) (store : State → State) (s : State) : State :=
  if s.live then raiseFault .locked 0x00#8 n s else store s

/-- A register write in `IDLE` to any register but `CMD` (R256, R32). -/
def writeIdle (n : Byte) (v : Word) (s : State) : State :=
  match n.toNat with
  | 0x04 => lockedWrite n (fun s => { s with width := v.extractLsb' 0 16 }) s
  | 0x05 => lockedWrite n (fun s => { s with height := v.extractLsb' 0 16 }) s
  | 0x06 => lockedWrite n (fun s => { s with low := v }) s
  | 0x07 => lockedWrite n (fun s => { s with high := v }) s
  | 0x08 => { s with addr := v }
  | 0x09 => { s with data := v }
  | 0x0A => { s with arg0 := v }
  | 0x0B => { s with arg1 := v }
  | _ => raiseFault .badAccess 0x00#8 n s

/-- Whether the next input arrives before a command accepted now has completed (R330). -/
def overlapped (s : State) : Bool :=
  match s.inputs with
  | [] => false
  | i :: _ => i.early

/-- A command is accepted (R104 step 6): it executes, and completes in a later step. -/
def accept (i : Instr) (s : State) : State := { s with opstate := .busy i }

/-- The running command completes: its one transition, from the state at its issue, which no transaction allowed in `BUSY` has
changed (20_memory.md R93; log 2). -/
def complete (i : Instr) (s : State) : Result := exec i { s with opstate := .idle }

/-- A legal command written to `CMD` in `IDLE` (R104 steps 5 and 6). When the next input lands inside its execution it is accepted
and left running; otherwise it runs from issue to completion. -/
def issueIdle (i : Instr) (s : State) : Result :=
  if overlapped s then
    match issueFault i s with
    | none => .next (accept i s)
    | some c => .next (raiseFault c (opcodeOf i) 0#8 s)
  else exec i s

/-- A write to `CMD` (R104). -/
def writeCmd (v : Word) (s : State) : Result :=
  if v = srstWord then exec .srst s
  else
    match s.opstate with
    | .faulted => .next s
    | .busy i => .next (busyViolation i cmdNumber s)
    | .idle =>
      match decode v with
      | .error _ => .next (raiseFault .illegalCmd (opField v) 0#8 s)
      | .ok i => issueIdle i s

/-- A register write (R256). -/
def writeRegister (n : Byte) (v : Word) (s : State) : Result :=
  if n = cmdNumber then writeCmd v s
  else
    match s.opstate with
    | .idle => .next (writeIdle n v s)
    | .busy i => .next (busyViolation i n s)
    | .faulted => .next s

/-- One input reaches the block. -/
def perform (a : HostAction) (s : State) : Result :=
  match a with
  | .hardReset => .next (hardReset s)
  | .read n => .next (readRegister n s)
  | .write n v => writeRegister n v s

/-- With no input to take, a busy block completes its command (70_reset_and_hazards.md R340) and any other waits (R323). -/
def proceed (s : State) : Result :=
  match s.opstate with
  | .idle => .next s
  | .busy i => complete i s
  | .faulted => .next s

/-- The next input is taken off the queue. -/
def takeInput (rest : List Input) (s : State) : State := { s with inputs := rest }

/-- Whether an input must wait until the running command has completed: it is not marked early. -/
def waits (inp : Input) (s : State) : Bool := s.busyFlag && !inp.early

/-- One step of the block and its environment: the running command completes before an input that is not early. -/
def advance (s : State) : Result :=
  match s.inputs with
  | [] => proceed s
  | inp :: rest => if waits inp s then proceed s else perform inp.act (takeInput rest s)

/-! ### Placing a command (the fetch) -/

/-- The queue that holds exactly one write of a word to `CMD`, taken by the very next step. Log 19. -/
def commandQueue (v : Word) : List Input := [{ early := true, act := .write cmdNumber v }]

/-! ### Host scripts (30_encoding.md R115, R118; log 21) -/

/-- `wr REG, value`. -/
def scriptWrite (n : Byte) (v : Word) : Input := { early := false, act := .write n v }

/-- `rd REG`. -/
def scriptRead (n : Byte) : Input := { early := false, act := .read n }

/-- A command line: a write of its word to `CMD`. -/
def scriptCommand (i : Instr) : Input := scriptWrite cmdNumber (encode i)

/-- `wait` after `k` polls that find `BUSY` = 1: those are early reads of `STATUS`; the last poll finds `BUSY` = 0. -/
def scriptWait (k : Nat) : List Input := List.replicate k { early := true, act := .read 0x02#8 } ++ [scriptRead 0x02#8]

/-- A command and the wait for its completion. -/
def scriptRun (k : Nat) (i : Instr) : List Input := scriptCommand i :: scriptWait k

/-- `ldimg <space>, v0, v1, …` (R118). -/
def scriptLdimg (k : Nat) (sp : Space) (values : List Word) : List Input :=
  scriptWrite 0x08#8 0#32 :: (values.map fun v => scriptWrite 0x09#8 v :: scriptRun k (.sts sp true)).flatten

/-- `canny` (R118). -/
def scriptCanny (k : Nat) : List Input := scriptRun k .hypot ++ scriptRun k .nms ++ scriptRun k .trace

/-- `canny_pixels` with `n` requests (R118). -/
def scriptCannyPixels (k n : Nat) : List Input :=
  scriptRun k .hypot ++ scriptRun k .nms ++ scriptRun k .lstart ++ (List.replicate n (scriptRun k .lnext)).flatten

end Sys2Proof.Machine
end

