-- ==== Sys2Proof/Machine/Step.lean ====
section
/-! DEFINITION. One step of the machine, and the place a command word is fetched from: the host's next write to `CMD`
(30_encoding.md R100). -/

namespace Sys2Proof.Machine

/-- One step: the running command completes, or the next input reaches the block (00_scope.md R5). -/
def step (s : State) : Host.Outcome State Fault Refusal := advance s

/-- `s` with a command word where the next step takes it: as the host's one queued input, a write to `CMD`. Log 19. -/
def State.withFetchWord (s : State) (nbits w : Nat) : State := { s with inputs := commandQueue (tableWord nbits w) }

end Sys2Proof.Machine
end

