-- ==== Sys2Proof/Safety.lean ====
section
/-! DEFINITION. The vocabulary of the claims: what counts as a fault-free state, the reset table, what stays the same between two
states, the machine's invariant, and the pixels a traversal reaches. Nothing in Machine/ imports this file. -/

namespace Sys2Proof.Machine

/-! ### States and what two states share -/

/-- No fault is recorded: the premise of every claim about a run (60_exceptions.md R292). -/
def State.faultFree (s : State) : Bool := !s.faultedFlag

/-- Every register and every piece of hidden state holds its reset value (70_reset_and_hazards.md R320). -/
def State.atReset (s : State) : Prop :=
  s.opstate = .idle ∧ statusWord s = 0#32 ∧ faultWord s = 0#32 ∧ s.width = 0#16 ∧ s.height = 0#16 ∧ s.low = 0#32 ∧
    s.high = 0#32 ∧ s.addr = 0#32 ∧ s.data = 0#32 ∧ s.arg0 = 0#32 ∧ s.arg1 = 0#32 ∧ s.res = 0#32 ∧ s.pix = 0#32 ∧
    s.sx = 0#16 ∧ s.sy = 0#16 ∧ s.sp = 0#32 ∧ s.phase = .off ∧ s.cx = 0#16 ∧ s.cy = 0#16 ∧ s.k = 0

/-- A space holds the same samples in two states. -/
def sameSpace (sp : Space) (s t : State) : Prop :=
  match sp with
  | .gx => t.gx = s.gx
  | .gy => t.gy = s.gy
  | .mag => t.mag = s.mag
  | .sup => t.sup = s.sup
  | .out => t.out = s.out
  | .visit => t.visit = s.visit
  | .stack => t.stack = s.stack

/-- The spaces a command writes (60_exceptions.md R284), with the space an `STS` names. -/
def writesSpace (i : Instr) (sp : Space) : Bool :=
  match i with
  | .nop => false
  | .hypot => decide (sp = .mag)
  | .nms => decide (sp = .sup)
  | .trace => decide (sp = .out) || decide (sp = .visit) || decide (sp = .stack)
  | .lstart => decide (sp = .visit) || decide (sp = .stack)
  | .lnext => decide (sp = .visit) || decide (sp = .stack)
  | .ldrop => false
  | .hypq => false
  | .dirq => false
  | .lds _ _ => false
  | .sts sp' _ => decide (sp = sp')
  | .srst => false

/-- The traversal state: what a producer works from and what it keeps between requests (44_hysteresis_tracer_lazy.md R230,
R240). -/
def sameTraversal (s t : State) : Prop :=
  t.width = s.width ∧ t.height = s.height ∧ t.low = s.low ∧ t.high = s.high ∧ t.sup = s.sup ∧ t.visit = s.visit ∧
    t.stack = s.stack ∧ t.sp = s.sp ∧ t.sx = s.sx ∧ t.sy = s.sy ∧ t.phase = s.phase ∧ t.cx = s.cx ∧ t.cy = s.cy ∧
    t.k = s.k

/-- The state a recorded issue-time fault leaves: `FAULT` and `OPSTATE` written, nothing else (60_exceptions.md R290). -/
def faultedWith (c : Cause) (op regno : Byte) (s : State) : State :=
  { s with opstate := .faulted, faultCause := c, faultOp := op, faultReg := regno }

/-- The next step takes this input: it heads the queue, and if a command is running it is an early one (R330). -/
def State.takes (s : State) (a : HostAction) (rest : List Input) : Prop :=
  ∃ e, s.inputs = { early := e, act := a } :: rest ∧ (s.busyFlag = true → e = true)

/-! ### The invariant -/

/-- All seven spaces have the canonical form. -/
def State.memCanonical (s : State) : Bool :=
  s.gx.wf && s.gy.wf && s.mag.wf && s.sup.wf && s.out.wf && s.visit.wf && s.stack.wf

/-- No space holds a sample beyond its size (20_memory.md R70). -/
def State.memSized (s : State) : Bool :=
  s.gx.within Config.cap && s.gy.within Config.cap && s.mag.within Config.cap && s.sup.within Config.cap &&
    s.out.within Config.cap && s.visit.within Config.cap && s.stack.within Config.stackDepth

/-- The interior pixels still Unvisited. -/
def State.unvisited (s : State) : Nat :=
  (List.range s.area).countP fun i =>
    s.interior ((i % s.w : Nat) : Int) ((i / s.w : Nat) : Int) && decide (s.visit.read i = 0#1)

/-- What holds of a live producer while no fault is recorded (R231, R234, R41, R46, R212). -/
structure ProducerInv (s : State) : Prop where
  /-- The thresholds and the dimensions it was constructed with are valid, and locked (R29). -/
  thresholds : thresholdsValid s = true
  dims : dimCheck s = none
  /-- A context exists (R45). -/
  context : s.phase ≠ .off
  /-- The cursor is in range (R41). -/
  cursorX : 1 ≤ s.sx.toNat ∧ s.sx.toNat + 2 ≤ s.w
  cursorY : 1 ≤ s.sy.toNat ∧ s.sy.toNat + 1 ≤ s.h
  /-- Each interior pixel is pushed at most once (R212). -/
  room : s.sp.toNat + s.unvisited ≤ s.interiorCount
  /-- The stack is empty while the outer scan runs and once it is complete (R45). -/
  emptyStack : s.phase = .scan ∨ s.phase = .done → s.sp = 0#32
  /-- At `Done` the scan is complete, and past the last row the cursor is at its final value (1, H − 1) (R41). -/
  scanComplete : s.phase = .done → s.sy.toNat + 1 = s.h
  finalCursor : s.sy.toNat + 1 = s.h → s.sx = 1#16
  /-- Every live stack entry is an interior pixel (R52). -/
  entries : ∀ j, j < s.sp.toNat →
    s.interior (coordX (s.stack.read j)).toNat (coordY (s.stack.read j)).toNat = true
  /-- The pixel being expanded is interior (R219). -/
  current : s.phase = .expand → s.interior s.cx.toNat s.cy.toNat = true
  /-- The border ring is never visited (R54). -/
  border : ∀ x y : Nat, x < s.w → y < s.h → s.interior x y = false → s.visit.read (s.idx x y) = 0#1
  /-- After a yield the phase is `POP` or `EXPAND`, after exhaustion `DONE`, and the two flags exclude each other (R27, R46). -/
  yielded : s.valid = true → (s.phase = .pop ∨ s.phase = .expand) ∧ s.exhausted = false
  finished : s.exhausted = true → s.phase = .done

/-- The invariant of the machine. -/
structure Inv (s : State) : Prop where
  /-- The memories are canonical and within their sizes. -/
  canonical : s.memCanonical = true
  sized : s.memSized = true
  /-- No cause is recorded before a fault (R30). -/
  noCause : s.opstate ≠ .faulted → s.faultCause = .none ∧ s.faultOp = 0#8 ∧ s.faultReg = 0#8
  /-- In `FAULTED` a cause is recorded (R21, R30). -/
  cause : s.opstate = .faulted → s.faultCause ≠ .none
  /-- A running command was accepted: it is not `SRST`, and its issue-time checks hold (R104). -/
  accepted : ∀ i, s.opstate = .busy i → i ≠ .srst ∧ issueFault i s = none
  /-- Without a producer there is nothing to request (R46, R50, R27). -/
  noProducer : s.opstate ≠ .faulted → s.live = false →
    s.valid = false ∧ s.exhausted = false ∧ s.pix = 0#32 ∧ s.sp = 0#32 ∧ (s.phase = .off ∨ s.phase = .done)
  /-- A live producer is sound. -/
  producer : s.opstate ≠ .faulted → s.live = true → ProducerInv s

/-! ### What a traversal computes (43_hysteresis_tracer_eager.md R213) -/

/-- The set `S` of R213: interior pixels at least `HIGH`. -/
def isSeed (s : State) (x y : Int) : Prop :=
  s.interior x y = true ∧ fGe (s.sup.read (s.idx x.toNat y.toNat)) s.high = true

/-- The set `Q` of R213: interior pixels at least `LOW`. -/
def isCandidate (s : State) (x y : Int) : Prop :=
  s.interior x y = true ∧ fGe (s.sup.read (s.idx x.toNat y.toNat)) s.low = true

/-- The pixels reachable from a seed by chains of candidates along the six offsets of R205. -/
inductive Reachable (s : State) : Int → Int → Prop where
  | seed (x y : Int) : isSeed s x y → Reachable s x y
  | spread (x y : Int) (k : Fin 6) :
      Reachable s x y → isCandidate s (x + offsetX k) (y + offsetY k) → Reachable s (x + offsetX k) (y + offsetY k)

/-- The tracer after `n` steps; none once it has no next state. -/
def tracerRun (depth : Nat) : Nat → State → Option State
  | 0, s => some s
  | n + 1, s =>
    match tStep depth s with
    | .step t _ => tracerRun depth n t
    | .overflow => none
    | .off => none

/-- The tracer after `n` steps that report nothing, which is what a request runs before its last step
(44_hysteresis_tracer_lazy.md R234); none once a step reports a pixel or the end, or has no next state. -/
def quietRun (depth : Nat) : Nat → State → Option State
  | 0, s => some s
  | n + 1, s =>
    match tStep depth s with
    | .step t .none => quietRun depth n t
    | .step _ (.found _ _) => none
    | .step _ .done => none
    | .overflow => none
    | .off => none

/-- The next tracer step discovers a pixel, so it pushes: the scan finds a seed under the cursor, or the expansion a candidate at the
offset of `K`, Unvisited in either case (43_hysteresis_tracer_eager.md R203, R206). -/
def State.discovers (s : State) : Prop :=
  (s.phase = .scan ∧ s.sy.toNat + 1 < s.h ∧ s.visit.read (s.idx s.sx.toNat s.sy.toNat) = 0#1 ∧
    fGe (s.sup.read (s.idx s.sx.toNat s.sy.toNat)) s.high = true) ∨
  (s.phase = .expand ∧ isCandidate s (s.cx.toNat + offsetX s.k) (s.cy.toNat + offsetY s.k) ∧
    s.visit.read (s.idx (s.cx.toNat + offsetX s.k : Int).toNat (s.cy.toNat + offsetY s.k : Int).toNat) = 0#1)

/-- The requests of a consumer: `LNEXT` until the first `EXHAUSTED`, at most `n` of them; the words of `PIX` yielded, in order,
and the last state. -/
def requests : Nat → State → Option (List Word × State)
  | 0, _ => none
  | n + 1, s =>
    match exec .lnext s with
    | .next t =>
      if t.exhausted then some ([], t)
      else
        match requests n t with
        | some (ps, u) => some (t.pix :: ps, u)
        | none => none
    | .fault _ => none
    | .refused _ => none

end Sys2Proof.Machine
end

