-- ==== Sys2Proof/Certificates/Slice0/Obligations.lean ====
section
/-! DEFINITION. The statements about the model, one `Obligations.<Name>` each, and the real-number vocabulary some of them use.
Each docstring names the rule of spec/ it formalises. Where a statement rests on a choice of the model, its docstring names the
log entry. -/

open Sys2Proof Sys2Proof.Machine

/-! ### Real values (the statements' vocabulary) -/

namespace Sys2Proof.Statement

/-- A binary32 that is neither a NaN nor an infinity. -/
def isFinite (a : Word) : Bool := decide (expField a ≠ 0xFF#8)

/-- The real value of a finite binary32 bit pattern (00_scope.md R10). -/
noncomputable def f32Value (a : Word) : ℝ :=
  (if a.getLsbD 31 then -1 else 1) *
    (if expField a = 0#8 then ((fracField a).toNat : ℝ) * 2 ^ (-149 : ℤ)
     else ((2 ^ 23 + (fracField a).toNat : ℕ) : ℝ) * 2 ^ (((expField a).toNat : ℤ) - 150))

/-- The value of a binary32 that is not a NaN, the infinities included. -/
noncomputable def f32Extended (a : Word) : EReal :=
  if isFinite a then ((f32Value a : ℝ) : EReal) else if a.getLsbD 31 then ⊥ else ⊤

/-- One unit in the last place of a binary32 whose exponent field is this one's. -/
noncomputable def f32Ulp (a : Word) : ℝ := 2 ^ (((expField a).toNat : ℤ) - 150)

/-- The Euclidean norm of a gradient vector (40_hypot_accumulator.md R130). -/
noncomputable def norm2 (gx gy : Int) : ℝ := Real.sqrt ((gx : ℝ) ^ 2 + (gy : ℝ) ^ 2)

/-- A signed 16-bit integer (00_scope.md R7). -/
def isHalf (g : Int) : Prop := -32768 ≤ g ∧ g ≤ 32767

/-- θ of 41_direction_classifier.md R151: the angle of the vector, in (−π, π]; 0 for the zero vector. Radians for degrees. -/
noncomputable def theta (gx gy : Int) : ℝ := Complex.arg ⟨(gx : ℝ), (gy : ℝ)⟩

/-- θ′ of R151: a half turn added when θ is negative. -/
noncomputable def thetaLine (gx gy : Int) : ℝ := if theta gx gy < 0 then theta gx gy + Real.pi else theta gx gy

/-- The word of each command, as 30_encoding.md R119 writes it out: the 34 legal words. -/
def legalWords : List (Word × Instr) :=
  [(0x00000000#32, .nop), (0x01000000#32, .hypot), (0x02000000#32, .nms), (0x03000000#32, .trace), (0x04000000#32, .lstart),
   (0x05000000#32, .lnext), (0x06000000#32, .ldrop), (0x08000000#32, .hypq), (0x09000000#32, .dirq), (0xFF000000#32, .srst)] ++
  [(0x10000000#32, .lds .gx false), (0x10100000#32, .lds .gy false), (0x10200000#32, .lds .mag false),
   (0x10300000#32, .lds .sup false), (0x10400000#32, .lds .out false), (0x10500000#32, .lds .visit false),
   (0x10600000#32, .lds .stack false)] ++
  [(0x10080000#32, .lds .gx true), (0x10180000#32, .lds .gy true), (0x10280000#32, .lds .mag true),
   (0x10380000#32, .lds .sup true), (0x10480000#32, .lds .out true), (0x10580000#32, .lds .visit true),
   (0x10680000#32, .lds .stack true)] ++
  [(0x11000000#32, .sts .gx false), (0x11100000#32, .sts .gy false), (0x11200000#32, .sts .mag false),
   (0x11300000#32, .sts .sup false), (0x11400000#32, .sts .out false)] ++
  [(0x11080000#32, .sts .gx true), (0x11180000#32, .sts .gy true), (0x11280000#32, .sts .mag true),
   (0x11380000#32, .sts .sup true), (0x11480000#32, .sts .out true)]

/-- The cases (a) to (e) of 30_encoding.md R110, on the fields of a word. -/
def illegalWord (w : Word) : Prop :=
  let op := (w.extractLsb' 24 8).toNat
  let sp := (w.extractLsb' 20 4).toNat
  op ∉ [0x00, 0x01, 0x02, 0x03, 0x04, 0x05, 0x06, 0x08, 0x09, 0x10, 0x11, 0xFF] ∨
  (op ∈ [0x00, 0x01, 0x02, 0x03, 0x04, 0x05, 0x06, 0x08, 0x09, 0xFF] ∧ w.extractLsb' 0 24 ≠ 0#24) ∨
  (op ∈ [0x10, 0x11] ∧ w.extractLsb' 0 19 ≠ 0#19) ∨
  (op ∈ [0x10, 0x11] ∧ 7 ≤ sp) ∨
  (op = 0x11 ∧ (sp = 5 ∨ sp = 6))

/-- An index is in range for a host access (20_memory.md R82). -/
def indexInRange (sp : Space) (s : State) : Prop :=
  (sp ≠ .stack ∧ s.addr.toNat < s.w * s.h ∧ s.w * s.h ≤ Config.cap) ∨ (sp = .stack ∧ s.addr.toNat < s.sp.toNat)

/-- The traversal's issue-time conditions all hold (43_hysteresis_tracer_eager.md R193, R194, R215). -/
def traversalReady (s : State) : Prop :=
  s.opstate = .idle ∧ s.live = false ∧ thresholdsValid s = true ∧ s.w * s.h ≤ Config.cap ∧ 3 ≤ s.w ∧ 3 ≤ s.h

/-- Two states hold the same dimensions, thresholds and suppressed raster. -/
def sameTraversalInput (s t : State) : Prop :=
  t.width = s.width ∧ t.height = s.height ∧ t.low = s.low ∧ t.high = s.high ∧
    ∀ i, i < s.w * s.h → t.sup.read i = s.sup.read i

/-- What a recorded `STACK_OVF` leaves (60_exceptions.md R293): `FAULT` with the opcode of the command, and everything the command was not
writing. `OUT`, `VISIT`, `STACK`, `SP`, `CURSOR`, `PIX` and the hidden tracer state are unspecified. That the flags are kept is
10_state.md R27 and R290; they mean nothing then (log 17). -/
def overflowed (op : Byte) (s t : State) : Prop :=
  t.opstate = .faulted ∧ t.faultCause = .stackOvf ∧ t.faultOp = op ∧ t.faultReg = 0#8 ∧
    t.gx = s.gx ∧ t.gy = s.gy ∧ t.mag = s.mag ∧ t.sup = s.sup ∧ t.width = s.width ∧ t.height = s.height ∧ t.low = s.low ∧
    t.high = s.high ∧ t.addr = s.addr ∧ t.data = s.data ∧ t.arg0 = s.arg0 ∧ t.arg1 = s.arg1 ∧ t.res = s.res ∧
    t.live = s.live ∧ t.valid = s.valid ∧ t.exhausted = s.exhausted

/-- No space lists a sample: all of memory is unspecified (70_reset_and_hazards.md R322). -/
def nothingKnown (s : State) : Prop :=
  s.gx.cells = [] ∧ s.gy.cells = [] ∧ s.mag.cells = [] ∧ s.sup.cells = [] ∧ s.out.cells = [] ∧ s.visit.cells = [] ∧
    s.stack.cells = []

end Sys2Proof.Statement

open Sys2Proof.Statement

/-! ### Encoding -/

/-- R119: the 34 words listed are the legal command words, each of its command, and every other word is illegal. -/
def Obligations.LegalWordsAreTheThirtyFour : Prop :=
  legalWords.length = 34 ∧ (∀ w i, decode w = .ok i ↔ (w, i) ∈ legalWords) ∧
    (∀ w, (∀ i, (w, i) ∉ legalWords) → ∃ r, decode w = .error r)

/-- R101, R105: a word decodes to a command exactly when it is that command's encoding, every field at every value. -/
def Obligations.DecodeIsInverseOfEncode : Prop :=
  ∀ (w : Word) (i : Instr), decode w = .ok i ↔ i.wellFormed = true ∧ encode i = w

/-- R105, R110: a word of each format written out bit by bit, and an illegal word of each case. -/
def Obligations.SampleWordsDecode : Prop :=
  decode 0b00000101000000000000000000000000#32 = .ok .lnext ∧
  decode 0b00001000000000000000000000000000#32 = .ok .hypq ∧
  decode 0b00010000010110000000000000000000#32 = .ok (.lds .visit true) ∧
  decode 0b00010001001100000000000000000000#32 = .ok (.sts .sup false) ∧
  decode 0b00000111000000000000000000000000#32 = .error (.unknownOpcode 0x07#8) ∧
  decode 0b00000001000000000000000000000001#32 = .error (.zeroFieldZ 0x01#8) ∧
  decode 0b00010000000000000000000000000001#32 = .error (.zeroFieldM 0x10#8) ∧
  decode 0b00010000011100000000000000000000#32 = .error (.reservedSpace 0x10#8) ∧
  decode 0b00010001010100000000000000000000#32 = .error (.spaceNotWritable 0x11#8)

/-- R110: a word is illegal in exactly the cases (a) to (e); written to `CMD` in `IDLE` it raises `ILLEGAL_CMD`, in `FAULTED` it is
ignored, in `BUSY` it is a busy violation (`0xFF` with low bits not zero among them). -/
def Obligations.IllegalWordsFault : Prop :=
  (∀ w : Word, (∃ r, decode w = .error r) ↔ illegalWord w) ∧
  ∀ (s : State) (w : Word) (rest : List Input), s.takes (.write 0x01#8 w) rest → illegalWord w →
    (s.opstate = .idle → step s = .next (faultedWith .illegalCmd (w.extractLsb' 24 8) 0#8 (takeInput rest s))) ∧
    (s.opstate = .faulted → step s = .next (takeInput rest s)) ∧
    (∀ i, s.opstate = .busy i → ∃ t, step s = .next t ∧ t.opstate = .faulted ∧ t.faultCause = .busyViolation)

/-! ### The step -/

/-- R104: a legal word written to `CMD` in `IDLE` runs the command it decodes to. When the next input is marked early, the command
is accepted and stays `BUSY` unless it is `SRST` or faults at issue (the early mark is the model's: log 1, log 2). A word placed by
`withFetchWord` is such a write (log 19). -/
def Obligations.StepRunsTheDecodedCommand : Prop :=
  (∀ (s : State) (w : Word) (i : Instr) (rest : List Input), s.takes (.write 0x01#8 w) rest → s.opstate = .idle →
    decode w = .ok i →
    (overlapped (takeInput rest s) = false → step s = exec i (takeInput rest s)) ∧
    (overlapped (takeInput rest s) = true → (i = .srst ∨ ∃ c, issueFault i s = some c) → step s = exec i (takeInput rest s)) ∧
    (overlapped (takeInput rest s) = true → i ≠ .srst → issueFault i s = none →
      step s = .next { takeInput rest s with opstate := .busy i })) ∧
  ∀ (s : State) (n : Nat) (i : Instr), s.opstate = .idle → decodeTableWord 32 n = some i →
    step (s.withFetchWord 32 n) = exec i { s with inputs := [] }

/-- R104 step 6, R330: a running command completes as the one transition it makes from `IDLE`, before an input that is not early;
accepting it and completing it is the same as running it at once (log 2). With nothing queued any other block waits (R323, R340). -/
def Obligations.BusyIntervalEndsInCompletion : Prop :=
  (∀ (s : State) (i : Instr), s.opstate = .busy i →
    (s.inputs = [] ∨ ∃ a rest, s.inputs = { early := false, act := a } :: rest) →
    step s = exec i { s with opstate := .idle }) ∧
  (∀ (s : State) (i : Instr), s.opstate = .idle → s.inputs = [] → step (accept i s) = exec i s) ∧
  ∀ s : State, s.inputs = [] → s.busyFlag = false → step s = .next s

/-- R118: the script of `canny`, from an idle state whose conditions hold, runs `HYPOT`, `NMS` and `TRACE` in order and polls
`STATUS` after each (the queue of inputs is the model's: log 1, log 21). -/
def Obligations.CannyScriptRunsThePipeline : Prop :=
  ∀ s : State, traversalReady s → s.inputs = scriptCanny 0 →
    ∃ u v t, exec .hypot { s with inputs := [] } = .next u ∧ exec .nms u = .next v ∧ exec .trace v = .next t ∧
      core.run 6 s = .next { t with lastRead := some (statusWord t) }

/-! ### Registers and flags -/

/-- R22, R24, R32, R40: what each register number reads as; `CMD` and the numbers from 0x10 cannot be read. R21, R27, R30, R281: the
bits of `STATUS` and the fields of `FAULT`, with the cause codes. -/
def Obligations.RegisterMapReads : Prop :=
  (∀ s : State,
    regValue 0x00#8 s = some 0x434E5907#32 ∧ regValue 0x02#8 s = some (statusWord s) ∧
    regValue 0x03#8 s = some (faultWord s) ∧
    (∃ v, regValue 0x04#8 s = some v ∧ v.toNat = s.width.toNat) ∧
    (∃ v, regValue 0x05#8 s = some v ∧ v.toNat = s.height.toNat) ∧
    regValue 0x06#8 s = some s.low ∧ regValue 0x07#8 s = some s.high ∧ regValue 0x08#8 s = some s.addr ∧
    regValue 0x09#8 s = some s.data ∧ regValue 0x0A#8 s = some s.arg0 ∧ regValue 0x0B#8 s = some s.arg1 ∧
    regValue 0x0C#8 s = some s.res ∧ regValue 0x0D#8 s = some s.pix ∧
    (∃ v, regValue 0x0E#8 s = some v ∧ v.toNat = s.sy.toNat * 65536 + s.sx.toNat) ∧
    regValue 0x0F#8 s = some s.sp) ∧
  (∀ (s : State) (n : Byte), regValue n s = none ↔ n = 0x01#8 ∨ 0x10 ≤ n.toNat) ∧
  ∀ s : State,
    ((statusWord s).getLsbD 0 = true ↔ ∃ i, s.opstate = .busy i) ∧
    ((statusWord s).getLsbD 1 = true ↔ s.opstate = .faulted) ∧
    (statusWord s).getLsbD 2 = s.live ∧ (statusWord s).getLsbD 3 = s.valid ∧ (statusWord s).getLsbD 4 = s.exhausted ∧
    (∀ b, 5 ≤ b → (statusWord s).getLsbD b = false) ∧
    (faultWord s).extractLsb' 0 8 = causeCode s.faultCause ∧ (faultWord s).extractLsb' 8 8 = s.faultOp ∧
    (faultWord s).extractLsb' 16 8 = s.faultReg ∧ (faultWord s).extractLsb' 24 8 = 0#8 ∧
    causeCode .none = 0x00#8 ∧ causeCode .illegalCmd = 0x01#8 ∧ causeCode .badAccess = 0x02#8 ∧
    causeCode .busyViolation = 0x03#8 ∧ causeCode .locked = 0x04#8 ∧ causeCode .dimSmall = 0x05#8 ∧
    causeCode .dimLarge = 0x06#8 ∧ causeCode .thresh = 0x07#8 ∧ causeCode .noProducer = 0x08#8 ∧
    causeCode .addrRange = 0x09#8 ∧ causeCode .stackOvf = 0x0A#8

/-- R255: a register read in each `OPSTATE`. Beside the value returned nothing changes but what a fault records; the counter of free
values may move (log 3, log 7). -/
def Obligations.RegisterReadTransactions : Prop :=
  ∀ (s : State) (n : Byte) (rest : List Input), s.takes (.read n) rest →
    (s.opstate = .idle → ∀ v, regValue n s = some v → step s = .next { takeInput rest s with lastRead := some v }) ∧
    (s.opstate = .idle → regValue n s = none → ∃ t, step s = .next t ∧
      t = { faultedWith .badAccess 0#8 n (takeInput rest s) with lastRead := t.lastRead, freeCount := t.freeCount }) ∧
    (∀ i, s.opstate = .busy i → n ∈ [0x00#8, 0x02#8, 0x03#8] → ∃ v, regValue n s = some v ∧
      step s = .next { takeInput rest s with lastRead := some v }) ∧
    (∀ i, s.opstate = .busy i → n ∉ [0x00#8, 0x02#8, 0x03#8] → ∃ t, step s = .next t ∧ t.opstate = .faulted ∧
      t.faultCause = .busyViolation ∧ t.faultOp = opcodeOf i ∧ t.faultReg = n) ∧
    (s.opstate = .faulted → ∀ v, regValue n s = some v → step s = .next { takeInput rest s with lastRead := some v }) ∧
    (s.opstate = .faulted → regValue n s = none → ∃ t, step s = .next t ∧
      t = { takeInput rest s with lastRead := t.lastRead, freeCount := t.freeCount })

/-- R256, R32: a register write in `IDLE` to any register but `CMD`. -/
def Obligations.RegisterWriteTransactions : Prop :=
  ∀ (s : State) (n : Byte) (v : Word) (rest : List Input), s.takes (.write n v) rest → s.opstate = .idle →
    (n ∈ [0x04#8, 0x05#8, 0x06#8, 0x07#8] → s.live = true →
      step s = .next (faultedWith .locked 0#8 n (takeInput rest s))) ∧
    (n = 0x04#8 → s.live = false → step s = .next { takeInput rest s with width := v.extractLsb' 0 16 }) ∧
    (n = 0x05#8 → s.live = false → step s = .next { takeInput rest s with height := v.extractLsb' 0 16 }) ∧
    (n = 0x06#8 → s.live = false → step s = .next { takeInput rest s with low := v }) ∧
    (n = 0x07#8 → s.live = false → step s = .next { takeInput rest s with high := v }) ∧
    (n = 0x08#8 → step s = .next { takeInput rest s with addr := v }) ∧
    (n = 0x09#8 → step s = .next { takeInput rest s with data := v }) ∧
    (n = 0x0A#8 → step s = .next { takeInput rest s with arg0 := v }) ∧
    (n = 0x0B#8 → step s = .next { takeInput rest s with arg1 := v }) ∧
    (n ∈ [0x00#8, 0x02#8, 0x03#8, 0x0C#8, 0x0D#8, 0x0E#8, 0x0F#8] ∨ 0x10 ≤ n.toNat →
      step s = .next (faultedWith .badAccess 0#8 n (takeInput rest s)))

/-! ### Faults -/

/-- R286, R287, R288, R289: the issue-time faults of the stage and tracer commands, each under the conditions in which no cause of
higher priority applies (R295), with the opcode recorded and nothing else written. -/
def Obligations.IssueTimeFaults : Prop :=
  ∀ s : State, s.opstate = .idle →
    (Config.cap < s.w * s.h → exec .hypot s = .next (faultedWith .dimLarge 0x01#8 0#8 s)) ∧
    (s.live = false → Config.cap < s.w * s.h → exec .nms s = .next (faultedWith .dimLarge 0x02#8 0#8 s)) ∧
    (s.live = false → s.w * s.h ≤ Config.cap → s.w < 3 ∨ s.h < 3 →
      exec .nms s = .next (faultedWith .dimSmall 0x02#8 0#8 s)) ∧
    (s.live = false → thresholdsValid s = false →
      exec .trace s = .next (faultedWith .thresh 0x03#8 0#8 s) ∧ exec .lstart s = .next (faultedWith .thresh 0x04#8 0#8 s)) ∧
    (s.live = false → thresholdsValid s = true → Config.cap < s.w * s.h →
      exec .trace s = .next (faultedWith .dimLarge 0x03#8 0#8 s) ∧
      exec .lstart s = .next (faultedWith .dimLarge 0x04#8 0#8 s)) ∧
    (s.live = false → thresholdsValid s = true → s.w * s.h ≤ Config.cap → s.w < 3 ∨ s.h < 3 →
      exec .trace s = .next (faultedWith .dimSmall 0x03#8 0#8 s) ∧
      exec .lstart s = .next (faultedWith .dimSmall 0x04#8 0#8 s)) ∧
    (s.live = false → exec .lnext s = .next (faultedWith .noProducer 0x05#8 0#8 s)) ∧
    (s.w * s.h ≤ Config.cap → ∃ t, exec .hypot s = .next t ∧ t.opstate = .idle)

/-- R29, R285: what a live producer locks, and that nothing else is locked, nor anything without one. -/
def Obligations.LiveProducerLocks : Prop :=
  (∀ (s : State) (n : Byte) (v : Word) (rest : List Input), s.takes (.write n v) rest → s.opstate = .idle → s.live = true →
    n ∈ [0x04#8, 0x05#8, 0x06#8, 0x07#8] → step s = .next (faultedWith .locked 0#8 n (takeInput rest s))) ∧
  (∀ s : State, s.opstate = .idle → s.live = true →
    exec .nms s = .next (faultedWith .locked 0x02#8 0#8 s) ∧ exec .trace s = .next (faultedWith .locked 0x03#8 0#8 s) ∧
    exec .lstart s = .next (faultedWith .locked 0x04#8 0#8 s) ∧
    ∀ inc, exec (.sts .sup inc) s = .next (faultedWith .locked 0x11#8 0#8 s)) ∧
  ∀ (s t : State) (i : Instr), s.opstate = .idle → exec i s = .next t → t.faultCause = .locked → s.faultCause = .none →
    s.live = true ∧ (i = .nms ∨ i = .trace ∨ i = .lstart ∨ ∃ inc, i = .sts .sup inc)

/-- R290, R295: a command whose issue-time check fails leaves everything but `FAULT` and `OPSTATE` as it was, and records its own
opcode; a command whose checks pass never records an issue-time cause. -/
def Obligations.IssueFaultsArePrecise : Prop :=
  ∀ (s : State) (i : Instr), s.opstate = .idle →
    (∀ c, issueFault i s = some c → exec i s = .next (faultedWith c (opcodeOf i) 0#8 s)) ∧
    (issueFault i s = none → ∀ t, exec i s = .next t → t.opstate = .idle ∨ t.faultCause = .stackOvf)

/-- R284: a transaction that is not allowed in `BUSY` records `BUSY_VIOLATION` with the running opcode and the register number; the
spaces the running command does not write, the thresholds, the dimensions and the operands keep their values, and so do `LIVE`, `VALID`
and `EXHAUSTED` (R27, R290; that this holds of an abandoned command too is log 17, and they mean nothing in `FAULTED`). R30, R105: the
opcode recorded for each command is the opcode field of its word. -/
def Obligations.BusyViolationAbandons : Prop :=
  ((∀ i, opcodeOf i = (encode i).extractLsb' 24 8) ∧
    [opcodeOf .nop, opcodeOf .hypot, opcodeOf .nms, opcodeOf .trace, opcodeOf .lstart, opcodeOf .lnext, opcodeOf .ldrop,
      opcodeOf .hypq, opcodeOf .dirq, opcodeOf .srst] =
      [0x00#8, 0x01#8, 0x02#8, 0x03#8, 0x04#8, 0x05#8, 0x06#8, 0x08#8, 0x09#8, 0xFF#8] ∧
    ∀ sp inc, opcodeOf (.lds sp inc) = 0x10#8 ∧ opcodeOf (.sts sp inc) = 0x11#8) ∧
  ∀ (s : State) (i : Instr) (n : Byte) (a : HostAction) (rest : List Input), s.takes a rest → s.opstate = .busy i →
    (a = .read n ∧ n ∉ [0x00#8, 0x02#8, 0x03#8]) ∨ (∃ v, a = .write n v ∧ ¬(n = 0x01#8 ∧ v = 0xFF000000#32)) →
    ∃ t, step s = .next t ∧ t.opstate = .faulted ∧ t.faultCause = .busyViolation ∧ t.faultOp = opcodeOf i ∧ t.faultReg = n ∧
      (∀ sp, writesSpace i sp = false → sameSpace sp s t) ∧ t.width = s.width ∧ t.height = s.height ∧ t.low = s.low ∧
      t.high = s.high ∧ t.arg0 = s.arg0 ∧ t.arg1 = s.arg1 ∧ t.live = s.live ∧ t.valid = s.valid ∧ t.exhausted = s.exhausted

/-- R292: in `FAULTED` every write but that of `SRST` is ignored, a read returns the register's value where it is readable and
changes nothing else, and the sequencer does nothing. -/
def Obligations.FaultedIgnoresEverything : Prop :=
  ∀ s : State, s.opstate = .faulted →
    (∀ n v rest, s.takes (.write n v) rest → ¬(n = 0x01#8 ∧ v = 0xFF000000#32) → step s = .next (takeInput rest s)) ∧
    (∀ n rest, s.takes (.read n) rest → ∃ t, step s = .next t ∧
      t = { takeInput rest s with lastRead := t.lastRead, freeCount := t.freeCount } ∧
      ∀ v, regValue n s = some v → t.lastRead = some v) ∧
    (∀ i, i ≠ .srst → exec i s = .next s) ∧ (s.inputs = [] → step s = .next s)

/-- R297, R21: whatever step leaves `FAULTED` is a reset, and the state after it is the reset state; a step that does not leave it
keeps `FAULT`, every register and every space. -/
def Obligations.OnlyResetLeavesFaulted : Prop :=
  ∀ s t : State, s.opstate = .faulted → step s = .next t →
    (t.opstate = .faulted ∧ t = { s with inputs := t.inputs, lastRead := t.lastRead, freeCount := t.freeCount }) ∨
    (t.atReset ∧ ∃ a rest, s.takes a rest ∧ (a = .hardReset ∨ a = .write 0x01#8 0xFF000000#32))

/-- R293, R52: at every depth of the stack, `TRACE` and `LNEXT` record `STACK_OVF`, with opcode 3 and 5, exactly when the traversal comes
to a state in which `SP` equals the depth and the next step discovers a pixel; `TRACE` and `LNEXT` run their pseudocode at the depth of
Config. What the fault leaves free is log 5 and log 6. With that depth, the default, no run overflows (R212, log 11). -/
def Obligations.StackOverflowFaults : Prop :=
  ((∀ s : State, traversalReady s → exec .trace s = traceBody Config.stackDepth s) ∧
    ∀ s : State, s.opstate = .idle → s.live = true → exec .lnext s = lnextBody Config.stackDepth s) ∧
  (∀ (depth k : Nat) (s u : State), traversalReady s → tracerRun depth k (traceStart s) = some u → u.discovers →
    u.sp.toNat = depth → ∃ t, traceBody depth s = .next t ∧ overflowed 0x03#8 s t) ∧
  (∀ (depth k : Nat) (s u : State), Inv s → s.opstate = .idle → s.live = true → quietRun depth k s = some u → u.discovers →
    u.sp.toNat = depth → ∃ t, lnextBody depth s = .next t ∧ overflowed 0x05#8 s t) ∧
  (∀ (depth : Nat) (s t : State), traversalReady s → s.faultCause = .none → traceBody depth s = .next t →
    t.faultCause = .stackOvf → ∃ k u, tracerRun depth k (traceStart s) = some u ∧ u.discovers ∧ u.sp.toNat = depth) ∧
  ∀ (depth : Nat) (s t : State), Inv s → s.opstate = .idle → s.live = true → s.sp.toNat ≤ depth → lnextBody depth s = .next t →
    t.faultCause = .stackOvf → ∃ k u, quietRun depth k s = some u ∧ u.discovers ∧ u.sp.toNat = depth

/-! ### Reset -/

/-- R320: the hardware reset, in any `OPSTATE` and during any command, gives every register and every piece of hidden state its
value; `ID` stays; no sample of any space is known afterwards (a sample not listed is a free value, log 4). -/
def Obligations.HardwareResetTable : Prop :=
  (State.reset.atReset ∧ regValue 0x00#8 State.reset = some 0x434E5907#32 ∧ nothingKnown State.reset) ∧
  ∀ (s : State) (rest : List Input), s.takes .hardReset rest → ∃ t, step s = .next t ∧ t.atReset ∧ t.inputs = rest ∧
    regValue 0x00#8 t = some 0x434E5907#32 ∧ nothingKnown t

/-- R321, R262: `SRST` in every `OPSTATE` gives the reset table and writes no memory sample: a space that no abandoned command was
writing keeps its contents. -/
def Obligations.SoftResetKeepsMemory : Prop :=
  (∀ s : State, ∃ t, exec .srst s = .next t ∧ t.atReset ∧
    (∀ sp, (∀ i, s.opstate = .busy i → writesSpace i sp = false) → sameSpace sp s t)) ∧
  ∀ (s : State) (rest : List Input), s.takes (.write 0x01#8 0xFF000000#32) rest → step s = exec .srst (takeInput rest s)

/-! ### NOP, HYPOT, HYPQ, DIRQ -/

/-- R260: `NOP` sets and clears `BUSY` and changes nothing else; it is a busy violation in `BUSY` and ignored in `FAULTED`. -/
def Obligations.NopChangesNothing : Prop :=
  encode .nop = 0x00000000#32 ∧
  (∀ s : State, s.opstate = .idle → exec .nop s = .next s ∧ (statusWord (accept .nop s)).getLsbD 0 = true ∧
    (s.inputs = [] → step (accept .nop s) = .next s)) ∧
  (∀ s : State, s.opstate = .faulted → exec .nop s = .next s) ∧
  ∀ (s : State) (i : Instr), s.opstate = .busy i → ∃ t, exec .nop s = .next t ∧ t.opstate = .faulted ∧
    t.faultCause = .busyViolation ∧ t.faultOp = opcodeOf i ∧ t.faultReg = 0x01#8

/-- R134, R135, R130: `HYPOT` writes the magnitude of every pixel and nothing else, for every admitted dimension, live producer or not. -/
def Obligations.HypotWritesMagnitudes : Prop :=
  encode .hypot = 0x01000000#32 ∧
  ∀ s : State, s.opstate = .idle →
    (Config.cap < s.w * s.h → exec .hypot s = .next (faultedWith .dimLarge 0x01#8 0#8 s)) ∧
    (s.w * s.h ≤ Config.cap → ∃ t, exec .hypot s = .next t ∧ t = { s with mag := t.mag } ∧
      (∀ x y, x < s.w → y < s.h →
        t.mag.read (y * s.w + x) = hypot32 (s.gx.read (y * s.w + x)).toInt (s.gy.read (y * s.w + x)).toInt) ∧
      ∀ i, s.w * s.h ≤ i → t.mag.read i = s.mag.read i)

/-- R138: `HYPQ` puts `hypot32` of the two query operands, their low halves as signed integers, in `RES` and changes nothing else; the
corner cases and the example of the rule. -/
def Obligations.HypqEvaluatesOnce : Prop :=
  encode .hypq = 0x08000000#32 ∧
  (∀ s : State, s.opstate = .idle →
    exec .hypq s = .next { s with
      res := hypot32 (s.arg0.extractLsb' 0 16).toInt (s.arg1.extractLsb' 0 16).toInt }) ∧
  ∀ p ∈ [(0xFFFF8000#32, 0x00000000#32, 0x47000000#32), (0x00000003#32, 0x0000FFFC#32, 0x40A00000#32),
      (0x12340003#32, 0x0000FFFC#32, 0x40A00000#32)],
    ∀ s : State, s.opstate = .idle → s.arg0 = p.1 → s.arg1 = p.2.1 → exec .hypq s = .next { s with res := p.2.2 }

/-- R158, R150: `DIRQ` puts the bucket code of the two query operands, their low halves as signed integers, in `RES`, zero-extended, and
changes nothing else; the codes, and the corner cases and the example of the rule. -/
def Obligations.DirqEvaluatesOnce : Prop :=
  encode .dirq = 0x09000000#32 ∧
  bucketCode .d0 = 0#2 ∧ bucketCode .d45 = 1#2 ∧ bucketCode .d90 = 2#2 ∧ bucketCode .d135 = 3#2 ∧
  (∀ s : State, s.opstate = .idle → exec .dirq s = .next { s with
    res := BitVec.ofNat 32 (bucketCode (dir (s.arg0.extractLsb' 0 16).toInt (s.arg1.extractLsb' 0 16).toInt)).toNat }) ∧
  ∀ p ∈ [(0x00000000#32, 0x00000000#32, 0#32), (0x0000FFFF#32, 0x00000000#32, 0#32), (0x00008000#32, 0x00008000#32, 1#32),
      (0x00000005#32, 0x00000003#32, 1#32)],
    ∀ s : State, s.opstate = .idle → s.arg0 = p.1 → s.arg1 = p.2.1 → exec .dirq s = .next { s with res := p.2.2 }

/-- R131: the default `HYPOT_FN` is the binary32 nearest to the Euclidean norm, strictly nearer than any other value (no tie occurs),
and its result is +0.0 or lies between 1 and 46340.95; the radicand needs 32 bits. -/
def Obligations.HypotIsCorrectlyRounded : Prop :=
  ∀ gx gy : Int, isHalf gx → isHalf gy →
    gx * gx + gy * gy ≤ 2147483648 ∧ isFinite (hypot32 gx gy) = true ∧ (hypot32 gx gy).getLsbD 31 = false ∧
    (∀ b : Word, isFinite b = true → f32Value b ≠ f32Value (hypot32 gx gy) →
      |f32Value (hypot32 gx gy) - norm2 gx gy| < |f32Value b - norm2 gx gy|) ∧
    (hypot32 gx gy = 0#32 ∨ (1 ≤ f32Value (hypot32 gx gy) ∧ f32Value (hypot32 gx gy) ≤ 46340.95))

/-- R132 (b) to (g): the obligations on any `HYPOT_FN`, met by the default. -/
def Obligations.HypotMeetsItsObligations : Prop :=
  hypot32 0 0 = 0x00000000#32 ∧
  (∀ a : Int, isHalf a → f32Value (hypot32 a 0) = (a.natAbs : ℝ) ∧ hypot32 0 a = hypot32 a 0) ∧
  (∀ a b : Int, hypot32 a b = hypot32 b a ∧ hypot32 a b = hypot32 (-a) b ∧ hypot32 a b = hypot32 a (-b)) ∧
  (∀ a b : Int, isHalf a → isHalf b → isFinite (hypot32 a b) = true ∧ (hypot32 a b).getLsbD 31 = false) ∧
  (∀ a b a' b' : Int, isHalf a → isHalf b → isHalf a' → isHalf b' → a.natAbs ≤ a'.natAbs → b.natAbs ≤ b'.natAbs →
    fLe (hypot32 a b) (hypot32 a' b') = true) ∧
  (∀ a b : Int, isHalf a → isHalf b → |f32Value (hypot32 a b) - norm2 a b| ≤ f32Ulp (hypot32 a b))

/-- R151: the integer classifier gives the bucket of the exact angle, 180° and the zero vector in `D0`. -/
def Obligations.DirectionIsTheExactAngle : Prop :=
  ∀ gx gy : Int,
    (0 ≤ thetaLine gx gy ∧ thetaLine gx gy ≤ Real.pi) ∧
    (thetaLine gx gy < Real.pi / 8 ∨ 7 * Real.pi / 8 ≤ thetaLine gx gy → dir gx gy = .d0) ∧
    (Real.pi / 8 ≤ thetaLine gx gy ∧ thetaLine gx gy < 3 * Real.pi / 8 → dir gx gy = .d45) ∧
    (3 * Real.pi / 8 ≤ thetaLine gx gy ∧ thetaLine gx gy < 5 * Real.pi / 8 → dir gx gy = .d90) ∧
    (5 * Real.pi / 8 ≤ thetaLine gx gy ∧ thetaLine gx gy < 7 * Real.pi / 8 → dir gx gy = .d135)

/-- R153: opposite vectors share a bucket, the axes and the diagonals, mirroring, and that only the direction matters. -/
def Obligations.DirectionSymmetries : Prop :=
  (∀ gx gy : Int, dir (-gx) (-gy) = dir gx gy) ∧ (∀ gx : Int, dir gx 0 = .d0) ∧ (∀ gy : Int, gy ≠ 0 → dir 0 gy = .d90) ∧
  (∀ g : Int, g ≠ 0 → dir g g = .d45 ∧ dir g (-g) = .d135) ∧
  (∀ gx gy : Int, (dir (-gx) gy = .d45 ↔ dir gx gy = .d135) ∧ (dir (-gx) gy = .d135 ↔ dir gx gy = .d45) ∧
    (dir (-gx) gy = .d0 ↔ dir gx gy = .d0) ∧ (dir (-gx) gy = .d90 ↔ dir gx gy = .d90)) ∧
  (∀ k gx gy : Int, 1 ≤ k → dir (k * gx) (k * gy) = dir gx gy)

/-! ### Binary32 comparisons -/

/-- R10: the quiet comparisons are false on a NaN and otherwise hold exactly when the values compare so, the infinities beyond every
finite value, each equal to itself, and −0.0 equal to +0.0. -/
def Obligations.ComparisonsFollowValues : Prop :=
  (∀ a b : Word, isNaN a = true ∨ isNaN b = true → fLt a b = false ∧ fLe a b = false ∧ fGe a b = false) ∧
  (∀ a b : Word, isFinite a = true → isFinite b = true →
    (fLt a b = true ↔ f32Value a < f32Value b) ∧ (fLe a b = true ↔ f32Value a ≤ f32Value b) ∧
    (fGe a b = true ↔ f32Value b ≤ f32Value a)) ∧
  (∀ a b : Word, isNaN a = false → isNaN b = false →
    (fLt a b = true ↔ f32Extended a < f32Extended b) ∧ (fLe a b = true ↔ f32Extended a ≤ f32Extended b) ∧
    (fGe a b = true ↔ f32Extended b ≤ f32Extended a)) ∧
  f32Extended 0x7F800000#32 = ⊤ ∧ f32Extended 0xFF800000#32 = ⊥ ∧
  (∀ a : Word, isFinite a = true → fLt a 0x7F800000#32 = true ∧ fLt 0xFF800000#32 a = true) ∧
  (∀ a : Word, isNaN a = false → fLe a 0x7F800000#32 = true ∧ fLe 0xFF800000#32 a = true) ∧
  f32Value 0x80000000#32 = f32Value 0x00000000#32

/-- R193: which threshold pairs are valid: 0 ≤ `LOW` ≤ `HIGH`, −0.0 as zero, +infinity allowed, a NaN never; and that a pair that is
not makes `TRACE` and `LSTART` fault `THRESH` and change nothing. -/
def Obligations.ThresholdValidity : Prop :=
  ∀ s : State,
    (isNaN s.low = true ∨ isNaN s.high = true → thresholdsValid s = false) ∧
    (isFinite s.low = true → isFinite s.high = true →
      (thresholdsValid s = true ↔ 0 ≤ f32Value s.low ∧ f32Value s.low ≤ f32Value s.high)) ∧
    (isFinite s.low = true → s.high = 0x7F800000#32 → (thresholdsValid s = true ↔ 0 ≤ f32Value s.low)) ∧
    (s.low = 0x7F800000#32 → s.high = 0x7F800000#32 → thresholdsValid s = true) ∧
    (s.low = 0x7F800000#32 → isFinite s.high = true → thresholdsValid s = false) ∧
    (s.low = 0xFF800000#32 ∨ s.high = 0xFF800000#32 → thresholdsValid s = false) ∧
    (s.opstate = .idle → s.live = false → thresholdsValid s = false →
      exec .trace s = .next (faultedWith .thresh 0x03#8 0#8 s) ∧ exec .lstart s = .next (faultedWith .thresh 0x04#8 0#8 s))

/-! ### NMS -/

/-- R174, R171, R172, R173: `NMS` writes +0.0 on the border ring and keeps or zeroes every interior pixel by its two neighbours along
the bucket, and writes nothing else; its issue-time checks in their order. -/
def Obligations.NmsThinsAlongTheGradient : Prop :=
  encode .nms = 0x02000000#32 ∧
  ∀ s : State, s.opstate = .idle →
    (s.live = true → exec .nms s = .next (faultedWith .locked 0x02#8 0#8 s)) ∧
    (s.live = false → Config.cap < s.w * s.h → exec .nms s = .next (faultedWith .dimLarge 0x02#8 0#8 s)) ∧
    (s.live = false → s.w * s.h ≤ Config.cap → s.w < 3 ∨ s.h < 3 →
      exec .nms s = .next (faultedWith .dimSmall 0x02#8 0#8 s)) ∧
    (s.live = false → s.w * s.h ≤ Config.cap → 3 ≤ s.w → 3 ≤ s.h → ∃ t, exec .nms s = .next t ∧ t = { s with sup := t.sup } ∧
      (∀ i, s.w * s.h ≤ i → t.sup.read i = s.sup.read i) ∧
      (∀ x y, x < s.w → y < s.h → x = 0 ∨ x = s.w - 1 ∨ y = 0 ∨ y = s.h - 1 → t.sup.read (y * s.w + x) = 0x00000000#32) ∧
      ∀ x y, 1 ≤ x → x ≤ s.w - 2 → 1 ≤ y → y ≤ s.h - 2 →
        let mag := fun x y => s.mag.read (y * s.w + x)
        let b := dir (s.gx.read (y * s.w + x)).toInt (s.gy.read (y * s.w + x)).toInt
        let keep := fun p q => t.sup.read (y * s.w + x) = if fLt (mag x y) p || fLt (mag x y) q then 0x00000000#32 else mag x y
        (b = .d0 → keep (mag (x - 1) y) (mag (x + 1) y)) ∧
        (b = .d45 → keep (mag (x + 1) (y + 1)) (mag (x - 1) (y - 1))) ∧
        (b = .d90 → keep (mag x (y - 1)) (mag x (y + 1))) ∧
        (b = .d135 → keep (mag (x - 1) (y + 1)) (mag (x + 1) (y - 1))))

/-! ### The tracer's step -/

/-- R200: a step reads and writes the tracer's state only: everything else is as it was. -/
def Obligations.TracerStepFrame : Prop :=
  ∀ (depth : Nat) (s : State), (s.phase ≠ .off → tStep depth s ≠ .off) ∧
    ∀ (t : State) (e : Event), tStep depth s = .step t e →
      t = { s with
            visit := t.visit, stack := t.stack, sp := t.sp, sx := t.sx, sy := t.sy, phase := t.phase, cx := t.cx, cy := t.cy,
            k := t.k }

/-- R203, R41: the step in phase `SCAN`: the scan is complete, or the cursor moves on and the pixel under it is a seed or not. -/
def Obligations.ScanStepTestsOnePixel : Prop :=
  ∀ (depth : Nat) (s : State), s.phase = .scan →
    (s.h ≤ s.sy.toNat + 1 → tStep depth s = .step { s with phase := .done } .done) ∧
    (s.sy.toNat + 1 < s.h →
      ∃ cx' cy' : Half,
        (s.sx.toNat + 1 < s.w - 1 → cx' = s.sx + 1#16 ∧ cy' = s.sy) ∧
        (s.w - 1 ≤ s.sx.toNat + 1 → cx' = 1#16 ∧ cy' = s.sy + 1#16) ∧
        (¬(s.visit.read (s.idx s.sx.toNat s.sy.toNat) = 0#1 ∧ fGe (s.sup.read (s.idx s.sx.toNat s.sy.toNat)) s.high = true) →
          tStep depth s = .step { s with sx := cx', sy := cy' } .none) ∧
        (s.visit.read (s.idx s.sx.toNat s.sy.toNat) = 0#1 → fGe (s.sup.read (s.idx s.sx.toNat s.sy.toNat)) s.high = true →
          (s.sp.toNat < depth →
            tStep depth s = .step { s with
              sx := cx', sy := cy', phase := .pop, visit := s.visit.write (s.idx s.sx.toNat s.sy.toNat) 1#1,
              stack := s.stack.write s.sp.toNat (coordWord s.sx s.sy), sp := s.sp + 1#32 } (.found s.sx s.sy)) ∧
          (s.sp.toNat = depth → tStep depth s = .overflow)))

/-- R204, R52: the step in phase `POP`: back to `SCAN` on an empty stack, else the last pixel pushed is taken up for expansion. -/
def Obligations.PopStepTakesTheTop : Prop :=
  ∀ (depth : Nat) (s : State), s.phase = .pop →
    (s.sp = 0#32 → tStep depth s = .step { s with phase := .scan } .none) ∧
    (s.sp ≠ 0#32 → tStep depth s = .step { s with
      sp := s.sp - 1#32, cx := (s.stack.read (s.sp - 1#32).toNat).extractLsb' 0 16,
      cy := (s.stack.read (s.sp - 1#32).toNat).extractLsb' 16 16, k := 0, phase := .expand } .none)

/-- R206, R205: the step in phase `EXPAND`: the neighbour index moves on, and the neighbour at the offset of `K` is discovered when it
is interior, Unvisited and at least `LOW`. -/
def Obligations.ExpandStepTestsOneNeighbour : Prop :=
  ([offsetX 0, offsetX 1, offsetX 2, offsetX 3, offsetX 4, offsetX 5] = [1, 1, 0, -1, -1, -1] ∧
    [offsetY 0, offsetY 1, offsetY 2, offsetY 3, offsetY 4, offsetY 5] = [0, 1, 1, -1, 0, 1]) ∧
  ∀ (depth : Nat) (s : State), s.phase = .expand →
    let nx : Int := s.cx.toNat + offsetX s.k
    let ny : Int := s.cy.toNat + offsetY s.k
    let hit := isCandidate s nx ny ∧ s.visit.read (s.idx nx.toNat ny.toNat) = 0#1
    ∃ (k' : Fin 6) (ph : Phase),
      (s.k = 5 → ph = .pop ∧ k' = 0) ∧ (s.k ≠ 5 → ph = .expand ∧ k'.val = s.k.val + 1) ∧
      (¬hit → tStep depth s = .step { s with phase := ph, k := k' } .none) ∧
      (hit → s.sp.toNat < depth → ∃ x y : Half, (x.toNat : Int) = nx ∧ (y.toNat : Int) = ny ∧
        tStep depth s = .step { s with
          phase := ph, k := k', visit := s.visit.write (s.idx x.toNat y.toNat) 1#1,
          stack := s.stack.write s.sp.toNat (coordWord x y), sp := s.sp + 1#32 } (.found x y)) ∧
      (hit → s.sp.toNat = depth → tStep depth s = .overflow)

/-- R207: in phase `DONE` a step reports `Done` and changes nothing, and once `Done` is reported it is reported ever after. -/
def Obligations.DoneStepIsFinal : Prop :=
  ∀ (depth : Nat) (s : State), (s.phase = .done → tStep depth s = .step s .done) ∧
    ∀ t, tStep depth s = .step t .done → tStep depth t = .step t .done

/-- R210: the phase graph. -/
def Obligations.PhaseGraph : Prop :=
  ∀ (depth : Nat) (s t : State) (e : Event), tStep depth s = .step t e →
    (s.phase, t.phase) ∈ [(Phase.scan, Phase.scan), (.scan, .pop), (.scan, .done), (.pop, .expand), (.pop, .scan),
      (.expand, .expand), (.expand, .pop), (.done, .done)] ∧
    (s.phase = .scan → (t.phase = .pop ↔ ∃ x y, e = .found x y)) ∧ (s.phase = .expand → (t.phase = .pop ↔ s.k = 5))

/-- R54, R190: a visit bit changes only at a discovery, from 0 to 1, at the pixel reported. -/
def Obligations.VisitBitsNeverClear : Prop :=
  ∀ (depth : Nat) (s t : State) (e : Event), tStep depth s = .step t e →
    (∀ x y, e = .found x y → s.visit.read (s.idx x.toNat y.toNat) = 0#1 ∧
      ∀ i, t.visit.read i = if i = s.idx x.toNat y.toNat then 1#1 else s.visit.read i) ∧
    ((∀ x y, e ≠ .found x y) → t.visit = s.visit)

/-- R52, R50: what was pushed last is popped first, and the stack is as before; a full stack refuses a push, an empty one a pop.
`depth` is within the constraint of R6. -/
def Obligations.StackIsLastInFirstOut : Prop :=
  ∀ (depth : Nat) (s : State) (x y : Half), depth ≤ 4294967295 →
    (s.sp.toNat = depth → push depth x y s = none) ∧ (s.sp = 0#32 ↔ pop s = none) ∧
    (s.sp.toNat < depth → ∃ t u, push depth x y s = some t ∧ t.sp.toNat = s.sp.toNat + 1 ∧ pop t = some (x, y, u) ∧
      u.sp = s.sp ∧ ∀ j, j < s.sp.toNat → u.stack.read j = s.stack.read j)

/-! ### Whole traversals -/

/-- R211: from `TInit` the traversal ends within `9·I + 1` steps, whatever the depth of the stack, in `Done` or in `STACK_OVF`. -/
def Obligations.TraversalEndsWithinItsBound : Prop :=
  ∀ (depth : Nat) (s : State), traversalReady s →
    (∃ t, traceLoop depth (9 * ((s.w - 2) * (s.h - 2)) + 1) (traceStart s) = .done t) ∨
    traceLoop depth (9 * ((s.w - 2) * (s.h - 2)) + 1) (traceStart s) = .overflow

/-- R212: at every step of a traversal `SP` is at most the number of interior pixels, so a stack of that depth never overflows. -/
def Obligations.StackDepthSuffices : Prop :=
  ∀ (depth n : Nat) (s : State), traversalReady s →
    (∀ t, tracerRun depth n (tInit s) = some t → t.sp.toNat ≤ (s.w - 2) * (s.h - 2)) ∧
    ((s.w - 2) * (s.h - 2) ≤ depth → ∃ t, tracerRun depth n (tInit s) = some t)

/-- R215: `TRACE` runs the whole traversal: its end state, the output raster (binary, its border background: R216 (a), (e)), and what
it leaves unchanged. -/
def Obligations.TraceCompletes : Prop :=
  encode .trace = 0x03000000#32 ∧
  ∀ s : State, traversalReady s → ∃ t, exec .trace s = .next t ∧
    t = { s with
          out := t.out, visit := t.visit, stack := t.stack, sp := t.sp, sx := t.sx, sy := t.sy, phase := t.phase, cx := t.cx,
          cy := t.cy, k := t.k } ∧
    t.phase = .done ∧ t.sp = 0#32 ∧ t.sx = 1#16 ∧ t.sy.toNat = s.h - 1 ∧
    (∀ x y, x < s.w → y < s.h →
      t.out.read (y * s.w + x) = if t.visit.read (y * s.w + x) = 1#1 then 0xFF#8 else 0x00#8) ∧
    (∀ x y : Nat, x < s.w → y < s.h → s.interior x y = false → t.out.read (y * s.w + x) = 0x00#8) ∧
    ∀ i, s.w * s.h ≤ i → t.out.read i = s.out.read i ∧ t.visit.read i = s.visit.read i

/-- R213: after `TRACE` the Edge pixels are exactly the interior pixels reachable from a seed by chains of candidates along the six
offsets. -/
def Obligations.TraceFindsTheReachablePixels : Prop :=
  ∀ s : State, traversalReady s → ∃ t, exec .trace s = .next t ∧ (∀ x y, isSeed s x y → isCandidate s x y) ∧
    (∀ x y : Nat, x < s.w → y < s.h → (t.visit.read (s.idx x y) = 1#1 ↔ Reachable s x y)) ∧
    (∀ x y : Nat, x < s.w → y < s.h → (t.out.read (s.idx x y) = 0xFF#8 ↔ Reachable s x y))

/-- R216 (b): on one suppressed raster, raising both thresholds only removes foreground pixels. -/
def Obligations.TighterThresholdsFindLess : Prop :=
  ∀ s s' : State, traversalReady s → traversalReady s' → s'.width = s.width → s'.height = s.height →
    (∀ i, i < s.w * s.h → s'.sup.read i = s.sup.read i) → fLe s.low s'.low = true → fLe s.high s'.high = true →
    ∃ t t', exec .trace s = .next t ∧ exec .trace s' = .next t' ∧
      (∀ i, i < s.w * s.h → t'.out.read i = 0xFF#8 → t.out.read i = 0xFF#8) ∧
      (List.range (s.w * s.h)).countP (fun i => decide (t'.out.read i = 0xFF#8)) ≤
        (List.range (s.w * s.h)).countP (fun i => decide (t.out.read i = 0xFF#8))

/-- R216 (c) with 90_conflicts.md C4: a zero raster gives all background when `HIGH` is greater than zero, and a foreground interior
when `HIGH` is zero. -/
def Obligations.ZeroRasterTrace : Prop :=
  ∀ s : State, traversalReady s → (∀ i, i < s.w * s.h → s.sup.read i = 0x00000000#32) → ∃ t, exec .trace s = .next t ∧
    (fLt 0x00000000#32 s.high = true → ∀ i, i < s.w * s.h → t.out.read i = 0x00#8) ∧
    (s.high = 0x00000000#32 ∨ s.high = 0x80000000#32 →
      ∀ x y : Nat, s.interior x y = true → t.out.read (s.idx x y) = 0xFF#8)

/-- R216 (d), R58: the result of `TRACE` depends on the dimensions, the thresholds and the suppressed raster alone, not on what an
earlier run left in any memory or register. -/
def Obligations.TraceDependsOnItsInputsOnly : Prop :=
  ∀ s s' : State, traversalReady s → traversalReady s' → sameTraversalInput s s' →
    ∃ t t', exec .trace s = .next t ∧ exec .trace s' = .next t' ∧ t'.sp = t.sp ∧ t'.sx = t.sx ∧ t'.sy = t.sy ∧
      t'.phase = t.phase ∧
      ∀ i, i < s.w * s.h → t'.out.read i = t.out.read i ∧ t'.visit.read i = t.visit.read i

/-! ### The lazy form -/

/-- R231: `LSTART` constructs the producer: the traversal start, `PIX` zero and the flags; it reads no sample and writes nothing
else. -/
def Obligations.LstartConstructsTheProducer : Prop :=
  encode .lstart = 0x04000000#32 ∧
  ∀ s : State, traversalReady s → ∃ t, exec .lstart s = .next t ∧
    t = { s with
          visit := t.visit, sp := 0#32, sx := 1#16, sy := 1#16, phase := .scan, cx := 0#16, cy := 0#16, k := 0, pix := 0#32,
          live := true, valid := false, exhausted := false } ∧
    (∀ i, i < s.w * s.h → t.visit.read i = 0#1) ∧ ∀ i, s.w * s.h ≤ i → t.visit.read i = s.visit.read i

/-- R234: from a state that meets the invariant, a request completes: it yields one newly discovered interior coordinate or reports
exhaustion, and writes nothing but the tracer's state, `PIX` and the two flags. -/
def Obligations.LnextYieldsOrIsExhausted : Prop :=
  encode .lnext = 0x05000000#32 ∧
  ∀ s : State, Inv s → s.opstate = .idle → s.live = true → ∃ t, exec .lnext s = .next t ∧
    t = { s with
          visit := t.visit, stack := t.stack, sp := t.sp, sx := t.sx, sy := t.sy, phase := t.phase, cx := t.cx, cy := t.cy,
          k := t.k, pix := t.pix, valid := t.valid, exhausted := t.exhausted } ∧
    ((t.valid = true ∧ t.exhausted = false ∧ (t.phase = .pop ∨ t.phase = .expand) ∧
        ∃ x y : Half, t.pix.toNat = y.toNat * 65536 + x.toNat ∧ s.interior x.toNat y.toNat = true ∧
          s.visit.read (s.idx x.toNat y.toNat) = 0#1 ∧
          ∀ i, t.visit.read i = if i = s.idx x.toNat y.toNat then 1#1 else s.visit.read i) ∨
      (t.valid = false ∧ t.exhausted = true ∧ t.phase = .done ∧ t.pix = s.pix ∧ t.visit = s.visit ∧ t.sp = 0#32 ∧
        t.sx = 1#16 ∧ t.sy.toNat + 1 = s.h))

/-- R236: a request after exhaustion is answered "exhausted" again and changes nothing else. -/
def Obligations.ExhaustedStaysExhausted : Prop :=
  ∀ s : State, s.opstate = .idle → s.live = true → s.phase = .done →
    exec .lnext s = .next { s with valid := false, exhausted := true }

/-- R238: `LDROP` discards the producer, with one or without, and leaves the memories, the dimensions and the thresholds. -/
def Obligations.LdropDiscardsTheProducer : Prop :=
  encode .ldrop = 0x06000000#32 ∧
  ∀ s : State, s.opstate = .idle → exec .ldrop s = .next { s with
    live := false, valid := false, exhausted := false, phase := .off, sx := 0#16, sy := 0#16, sp := 0#32, cx := 0#16,
    cy := 0#16, k := 0, pix := 0#32 }

/-- R240: a suspended producer is not touched by what the host may do between requests. -/
def Obligations.SuspendedProducerIsUntouched : Prop :=
  ∀ (s t : State) (i : Instr), s.opstate = .idle → s.live = true → exec i s = .next t →
    (i = .nop ∨ i = .hypot ∨ i = .hypq ∨ i = .dirq ∨ (∃ sp inc, i = .lds sp inc) ∨ ∃ sp inc, i = .sts sp inc) →
    sameTraversal s t ∧ t.live = s.live ∧ t.valid = s.valid ∧ t.exhausted = s.exhausted ∧ t.pix = s.pix

/-- R242: eager and lazy forms agree: the coordinates yielded by `LSTART` and the requests are the discoveries of `TRACE` in order,
without duplicates, at most `I`, before the first exhaustion; foreground written at them over background is the output of `TRACE`; the
two forms leave the same visit map, `SP` = 0 and cursor (1, H − 1). -/
def Obligations.LazyAndEagerAgree : Prop :=
  ∀ s : State, traversalReady s → ∃ t u v ps, exec .trace s = .next t ∧ exec .lstart s = .next u ∧
    requests ((s.w - 2) * (s.h - 2) + 1) u = some (ps, v) ∧
    ps = (discoveries Config.stackDepth (traceBound s) (traceStart s)).map (fun p => coordWord p.1 p.2) ∧
    ps.Nodup ∧ ps.length ≤ (s.w - 2) * (s.h - 2) ∧
    (∀ x y : Half, x.toNat < s.w → y.toNat < s.h →
      t.out.read (s.idx x.toNat y.toNat) = if coordWord x y ∈ ps then 0xFF#8 else 0x00#8) ∧
    (∀ p ∈ ps, s.interior (coordX p).toNat (coordY p).toNat = true) ∧
    (∀ i, i < s.w * s.h → v.visit.read i = t.visit.read i) ∧ v.sp = 0#32 ∧ t.sp = 0#32 ∧ v.sx = 1#16 ∧ t.sx = 1#16 ∧
    v.sy.toNat = s.h - 1 ∧ t.sy = v.sy

/-! ### Host access -/

/-- R80, R250, R252: `LDS` puts the sample in `DATA`, extended by its space, moves `ADDR` on when `inc` is set, and changes nothing
else. -/
def Obligations.LdsLoadsOneSample : Prop :=
  (∀ (s : State) (sp : Space) (inc : Bool), s.opstate = .idle → indexInRange sp s →
    exec (.lds sp inc) s = .next { s with
      data := memRead sp s.addr.toNat s, addr := if inc then s.addr + 1#32 else s.addr }) ∧
  ∀ (s : State) (i : Nat),
    (memRead .gx i s).toInt = (s.gx.read i).toInt ∧ (memRead .gy i s).toInt = (s.gy.read i).toInt ∧
    memRead .mag i s = s.mag.read i ∧ memRead .sup i s = s.sup.read i ∧
    (memRead .out i s).toNat = (s.out.read i).toNat ∧ (memRead .visit i s).toNat = (s.visit.read i).toNat ∧
    memRead .stack i s = s.stack.read i

/-- R81, R251, R252: `STS` stores the low bits of `DATA` at one index of one space, moves `ADDR` on when `inc` is set, and changes
nothing else; no word names `VISIT` or `STACK`. -/
def Obligations.StsStoresOneSample : Prop :=
  (∀ (s : State) (sp : Space) (inc : Bool), s.opstate = .idle → sp ≠ .visit → sp ≠ .stack → ¬(sp = .sup ∧ s.live = true) →
    indexInRange sp s → ∃ t, exec (.sts sp inc) s = .next t ∧
      (t.addr = if inc then s.addr + 1#32 else s.addr) ∧
      (sp = .gx → t = { s with addr := t.addr, gx := t.gx } ∧ t.gx.read s.addr.toNat = s.data.extractLsb' 0 16 ∧
        ∀ k, k ≠ s.addr.toNat → t.gx.read k = s.gx.read k) ∧
      (sp = .gy → t = { s with addr := t.addr, gy := t.gy } ∧ t.gy.read s.addr.toNat = s.data.extractLsb' 0 16 ∧
        ∀ k, k ≠ s.addr.toNat → t.gy.read k = s.gy.read k) ∧
      (sp = .mag → t = { s with addr := t.addr, mag := t.mag } ∧ t.mag.read s.addr.toNat = s.data ∧
        ∀ k, k ≠ s.addr.toNat → t.mag.read k = s.mag.read k) ∧
      (sp = .sup → t = { s with addr := t.addr, sup := t.sup } ∧ t.sup.read s.addr.toNat = s.data ∧
        ∀ k, k ≠ s.addr.toNat → t.sup.read k = s.sup.read k) ∧
      (sp = .out → t = { s with addr := t.addr, out := t.out } ∧ t.out.read s.addr.toNat = s.data.extractLsb' 0 8 ∧
        ∀ k, k ≠ s.addr.toNat → t.out.read k = s.out.read k)) ∧
  ∀ (w : Word) (inc : Bool), decode w ≠ .ok (.sts .visit inc) ∧ decode w ≠ .ok (.sts .stack inc)

/-- R82, R291: an index out of range moves no data, leaves `ADDR` and raises `ADDR_RANGE`; with a zero dimension no raster index is in
range. -/
def Obligations.OutOfRangeFaults : Prop :=
  (∀ (s : State) (sp : Space) (inc : Bool), s.opstate = .idle → ¬indexInRange sp s →
    exec (.lds sp inc) s = .next (faultedWith .addrRange 0x10#8 0#8 s) ∧
    (sp ≠ .visit → sp ≠ .stack → ¬(sp = .sup ∧ s.live = true) →
      exec (.sts sp inc) s = .next (faultedWith .addrRange 0x11#8 0#8 s))) ∧
  ∀ (s : State) (sp : Space), sp ≠ .stack → s.w = 0 ∨ s.h = 0 → ¬indexInRange sp s

/-! ### Whole-machine invariants -/

/-- 20_memory.md R70 with log 12: every step keeps the canonical form of every memory. -/
def Obligations.StepsKeepMemoryCanonical : Prop :=
  ∀ s t : State, s.memCanonical = true → step s = .next t → t.memCanonical = true

/-- R320: the invariant holds of the state after reset. -/
def Obligations.InvariantHoldsAtReset : Prop := Inv State.reset

/-- R20 to R54: every step keeps the invariant. -/
def Obligations.StepsKeepTheInvariant : Prop := ∀ s t : State, Inv s → step s = .next t → Inv t

/-- 93_implementation_defined.md ("every transaction in every state has a defined next state"): in a state that meets the invariant the
machine always has a next state, and no command is refused in any state. -/
def Obligations.EveryStepHasANextState : Prop :=
  (∀ s : State, Inv s → ∃ t, step s = .next t) ∧ ∀ (s : State) (i : Instr) (r : Refusal), exec i s ≠ .refused r

/-- R331, R29: while a producer stays live and no fault is recorded, no step changes the dimensions, the thresholds or the suppressed
raster it works from. -/
def Obligations.LiveProducerKeepsItsInputs : Prop :=
  ∀ s t : State, Inv s → s.opstate ≠ .faulted → s.live = true → step s = .next t → t.live = true →
    t.width = s.width ∧ t.height = s.height ∧ t.low = s.low ∧ t.high = s.high ∧ t.sup = s.sup

/-- R327: the gradient rasters are changed by no command but `STS`, and the magnitudes and the suppressed raster by no tracer
command. -/
def Obligations.StagesPreserveTheirInputs : Prop :=
  ∀ (s t : State) (i : Instr), s.opstate = .idle → exec i s = .next t →
    ((∀ sp inc, i ≠ .sts sp inc) → t.gx = s.gx ∧ t.gy = s.gy) ∧
    (i = .trace ∨ i = .lstart ∨ i = .lnext ∨ i = .ldrop → t.mag = s.mag ∧ t.sup = s.sup)
end

