-- ==== Sys2Proof/Laws/Hypot.lean ====
section
/-! SUPPORT. The integer square root behind `hypot32` (40_hypot_accumulator.md R131). -/

namespace Sys2Proof.Machine

/-- `isqrt` finds the integer square root of a number between `acc²` and `(acc + 2^b)²`. -/
theorem isqrt_spec (b acc n : Nat) (lo : acc * acc ≤ n) (hi : n < (acc + 2 ^ b) * (acc + 2 ^ b)) :
    isqrt b acc n * isqrt b acc n ≤ n ∧ n < (isqrt b acc n + 1) * (isqrt b acc n + 1) := by
  induction b generalizing acc with
  | zero => exact ⟨lo, by simpa [isqrt] using hi⟩
  | succ b ih =>
    unfold isqrt
    split
    · next h => exact ih _ h (by rwa [show acc + 2 ^ b + 2 ^ b = acc + 2 ^ (b + 1) by rw [pow_succ]; ring])
    · next h => exact ih _ lo (by omega)

/-- The root is Mathlib's integer square root. -/
theorem isqrt_eq_sqrt {n : Nat} (h : n < 2 ^ 24 * 2 ^ 24) : isqrt 24 0 n = Nat.sqrt n := by
  have := isqrt_spec 24 0 n (Nat.zero_le n) (by simpa using h)
  exact (Nat.eq_sqrt.mpr this)

end Sys2Proof.Machine
end

