-- ==== Sys2Proof/Laws/Memory.lean ====
section
/-! SUPPORT. The laws of a raster memory: what a sample reads as after a write, a fill or a loss of contents, and that every
operation keeps the canonical form and the size. -/

namespace Sys2Proof.Machine

variable {w : Nat}

/-! ### One cell -/

theorem Mem.lookup_insert_same (cs : List (Nat × BitVec w)) (i : Nat) (v : BitVec w) :
    Mem.lookup (Mem.insert i v cs) i = some v := by
  induction cs with
  | nil => simp [Mem.insert, Mem.lookup]
  | cons c rest ih =>
    obtain ⟨j, u⟩ := c
    unfold Mem.insert
    split
    · simp [Mem.lookup]
    · split
      · simp [Mem.lookup]
      · next hne => simp [Mem.lookup, Ne.symm hne, ih]

theorem Mem.lookup_insert_other (cs : List (Nat × BitVec w)) {i k : Nat} (v : BitVec w) (h : k ≠ i) :
    Mem.lookup (Mem.insert i v cs) k = Mem.lookup cs k := by
  induction cs with
  | nil => simp [Mem.insert, Mem.lookup, Ne.symm h]
  | cons c rest ih =>
    obtain ⟨j, u⟩ := c
    unfold Mem.insert
    split
    · simp [Mem.lookup, Ne.symm h]
    · split
      · next he => subst he; simp [Mem.lookup, Ne.symm h]
      · simp [Mem.lookup, ih]

/-- A sample reads as the value last written to it. -/
@[simp] theorem Mem.read_write_same (m : Mem w) (i : Nat) (v : BitVec w) : (m.write i v).read i = v := by
  simp [Mem.read, Mem.write, Mem.lookup_insert_same]

/-- A write leaves every other sample alone. -/
theorem Mem.read_write_other (m : Mem w) {i k : Nat} (v : BitVec w) (h : k ≠ i) :
    (m.write i v).read k = m.read k := by
  simp [Mem.read, Mem.write, Mem.lookup_insert_other _ _ h]

/-- What any sample reads as after a write. -/
theorem Mem.read_write (m : Mem w) (i k : Nat) (v : BitVec w) :
    (m.write i v).read k = if k = i then v else m.read k := by
  split
  · next h => subst h; simp
  · next h => exact Mem.read_write_other m v h

/-! ### A whole raster -/

theorem Mem.lookup_append (cs ds : List (Nat × BitVec w)) (i : Nat) :
    Mem.lookup (cs ++ ds) i = (Mem.lookup cs i).or (Mem.lookup ds i) := by
  induction cs with
  | nil => simp [Mem.lookup]
  | cons c rest ih =>
    obtain ⟨j, u⟩ := c
    simp only [List.cons_append, Mem.lookup]
    split <;> simp_all

theorem Mem.lookup_map (l : List Nat) (f : Nat → BitVec w) (i : Nat) :
    Mem.lookup (l.map fun j => (j, f j)) i = if i ∈ l then some (f i) else none := by
  induction l with
  | nil => simp [Mem.lookup]
  | cons a rest ih =>
    simp only [List.map_cons, Mem.lookup, ih, List.mem_cons]
    by_cases h : a = i
    · subst h; simp
    · simp [h, Ne.symm h]

theorem Mem.lookup_filter (cs : List (Nat × BitVec w)) (n i : Nat) (h : n ≤ i) :
    Mem.lookup (cs.filter fun c => decide (n ≤ c.1)) i = Mem.lookup cs i := by
  induction cs with
  | nil => rfl
  | cons c rest ih =>
    obtain ⟨j, u⟩ := c
    by_cases hj : n ≤ j
    · simp [hj, Mem.lookup, ih]
    · have : j ≠ i := by omega
      simp [hj, Mem.lookup, ih, this]

/-- What any sample reads as after a fill. -/
theorem Mem.read_fill (m : Mem w) (n i : Nat) (f : Nat → BitVec w) :
    (m.fill n f).read i = if i < n then f i else m.read i := by
  unfold Mem.read Mem.fill
  simp only [Mem.lookup_append, Mem.lookup_map, List.mem_range]
  split
  · next v h =>
    by_cases hi : i < n
    · simp_all
    · simp only [hi, if_false, Option.none_or] at h ⊢
      rw [Mem.lookup_filter _ _ _ (by omega)] at h
      simp [h]
  · next h =>
    by_cases hi : i < n
    · simp_all
    · simp only [hi, if_false, Option.none_or] at h ⊢
      rw [Mem.lookup_filter _ _ _ (by omega)] at h
      simp [h]

@[simp] theorem Mem.read_fill_lt (m : Mem w) {n i : Nat} (f : Nat → BitVec w) (h : i < n) :
    (m.fill n f).read i = f i := by
  simp [Mem.read_fill, h]

theorem Mem.read_fill_ge (m : Mem w) {n i : Nat} (f : Nat → BitVec w) (h : n ≤ i) :
    (m.fill n f).read i = m.read i := by
  simp [Mem.read_fill, Nat.not_lt.mpr h]

/-! ### The canonical form -/

theorem Mem.rising_mono {lo lo' : Nat} (h : lo' ≤ lo) (cs : List (Nat × BitVec w)) (hr : Mem.rising lo cs = true) :
    Mem.rising lo' cs = true := by
  cases cs with
  | nil => rfl
  | cons c rest =>
    obtain ⟨j, u⟩ := c
    simp only [Mem.rising, Bool.and_eq_true, decide_eq_true_eq] at hr ⊢
    exact ⟨by omega, hr.2⟩

theorem Mem.rising_insert (i : Nat) (v : BitVec w) (cs : List (Nat × BitVec w)) (lo : Nat) (hlo : lo ≤ i)
    (hr : Mem.rising lo cs = true) : Mem.rising lo (Mem.insert i v cs) = true := by
  induction cs generalizing lo with
  | nil => simp [Mem.insert, Mem.rising, hlo]
  | cons c rest ih =>
    obtain ⟨j, u⟩ := c
    simp only [Mem.rising, Bool.and_eq_true, decide_eq_true_eq] at hr
    unfold Mem.insert
    split
    · next h =>
      simp only [Mem.rising, Bool.and_eq_true, decide_eq_true_eq]
      exact ⟨hlo, by omega, hr.2⟩
    · split
      · next h => subst h; simp only [Mem.rising, Bool.and_eq_true, decide_eq_true_eq]; exact ⟨hlo, hr.2⟩
      · next h1 h2 =>
        simp only [Mem.rising, Bool.and_eq_true, decide_eq_true_eq]
        exact ⟨hr.1, ih (j + 1) (by omega) hr.2⟩

theorem Mem.rising_filter (n lo : Nat) (cs : List (Nat × BitVec w)) (hr : Mem.rising lo cs = true) :
    Mem.rising (max lo n) (cs.filter fun c => decide (n ≤ c.1)) = true := by
  induction cs generalizing lo with
  | nil => rfl
  | cons c rest ih =>
    obtain ⟨j, u⟩ := c
    simp only [Mem.rising, Bool.and_eq_true, decide_eq_true_eq] at hr
    by_cases hj : n ≤ j
    · simp only [List.filter_cons, hj, decide_true, if_true, Mem.rising, Bool.and_eq_true, decide_eq_true_eq]
      refine ⟨by omega, ?_⟩
      have := ih (j + 1) hr.2
      rwa [Nat.max_eq_left (by omega)] at this
    · simp only [List.filter_cons, hj, decide_false]
      exact Mem.rising_mono (by omega) _ (ih (j + 1) hr.2)

theorem Mem.rising_append (lo mid : Nat) (cs ds : List (Nat × BitVec w)) (hc : Mem.rising lo cs = true)
    (hd : Mem.rising mid ds = true) (hb : ∀ c ∈ cs, c.1 < mid) (hm : lo ≤ mid) : Mem.rising lo (cs ++ ds) = true := by
  induction cs generalizing lo with
  | nil => exact Mem.rising_mono hm _ hd
  | cons c rest ih =>
    obtain ⟨j, u⟩ := c
    simp only [Mem.rising, Bool.and_eq_true, decide_eq_true_eq] at hc
    simp only [List.cons_append, Mem.rising, Bool.and_eq_true, decide_eq_true_eq]
    have hj : j < mid := hb (j, u) (by simp)
    exact ⟨hc.1, ih (j + 1) hc.2 (fun c hcm => hb c (by simp [hcm])) (by omega)⟩

theorem Mem.rising_map_range' (f : Nat → BitVec w) (start n : Nat) :
    Mem.rising start ((List.range' start n).map fun i => (i, f i)) = true := by
  induction n generalizing start with
  | zero => rfl
  | succ n ih =>
    simp only [List.range'_succ, List.map_cons, Mem.rising, Bool.and_eq_true, decide_eq_true_eq]
    exact ⟨Nat.le_refl _, ih (start + 1)⟩

/-- A write keeps the canonical form. -/
theorem Mem.wf_write (m : Mem w) (i : Nat) (v : BitVec w) (h : m.wf = true) : (m.write i v).wf = true :=
  Mem.rising_insert i v m.cells 0 (Nat.zero_le _) h

/-- A fill keeps the canonical form. -/
theorem Mem.wf_fill (m : Mem w) (n : Nat) (f : Nat → BitVec w) (h : m.wf = true) : (m.fill n f).wf = true := by
  have hd := Mem.rising_filter n 0 m.cells h
  rw [Nat.zero_max] at hd
  refine Mem.rising_append 0 n _ _ ?_ hd ?_ (Nat.zero_le _)
  · rw [List.range_eq_range']; exact Mem.rising_map_range' f 0 n
  · simp

/-- A memory that nothing has written has the canonical form. -/
@[simp] theorem Mem.wf_unspecified (g : Nat) : (Mem.unspecified w g).wf = true := rfl

/-! ### The size -/

theorem Mem.mem_insert {i : Nat} {v : BitVec w} {cs : List (Nat × BitVec w)} {c : Nat × BitVec w}
    (h : c ∈ Mem.insert i v cs) : c = (i, v) ∨ c ∈ cs := by
  induction cs with
  | nil => simpa [Mem.insert] using h
  | cons d rest ih =>
    obtain ⟨j, u⟩ := d
    unfold Mem.insert at h
    split at h
    · simpa using h
    · split at h
      · simp only [List.mem_cons] at h ⊢; tauto
      · simp only [List.mem_cons] at h ⊢
        rcases h with h | h
        · exact .inr (.inl h)
        · exact (ih h).imp_right .inr

/-- A write below the size keeps every cell below the size. -/
theorem Mem.within_write (m : Mem w) (b i : Nat) (v : BitVec w) (hi : i < b) (h : m.within b = true) :
    (m.write i v).within b = true := by
  simp only [Mem.within, Mem.write, List.all_eq_true, decide_eq_true_eq] at h ⊢
  intro c hc
  rcases Mem.mem_insert hc with rfl | hc
  · exact hi
  · exact h c hc

/-- A fill of at most the size keeps every cell below the size. -/
theorem Mem.within_fill (m : Mem w) (b n : Nat) (f : Nat → BitVec w) (hn : n ≤ b) (h : m.within b = true) :
    (m.fill n f).within b = true := by
  simp only [Mem.within, Mem.fill, List.all_eq_true, decide_eq_true_eq, List.mem_append, List.mem_map, List.mem_range,
    List.mem_filter] at h ⊢
  rintro c (⟨i, hi, rfl⟩ | ⟨hc, -⟩)
  · exact Nat.lt_of_lt_of_le hi hn
  · exact h c hc

@[simp] theorem Mem.within_unspecified (b g : Nat) : (Mem.unspecified w g).within b = true := rfl

@[simp] theorem Mem.cells_unspecified (g : Nat) : (Mem.unspecified w g).cells = [] := rfl

@[simp] theorem Mem.gen_unspecified (g : Nat) : (Mem.unspecified w g).gen = g := rfl

@[simp] theorem Mem.gen_write (m : Mem w) (i : Nat) (v : BitVec w) : (m.write i v).gen = m.gen := rfl

@[simp] theorem Mem.gen_fill (m : Mem w) (n : Nat) (f : Nat → BitVec w) : (m.fill n f).gen = m.gen := rfl

end Sys2Proof.Machine
end

