-- ==== Sys2Proof/Laws/State.lean ====
section
/-! SUPPORT. What each field of the state holds after each named update: one lemma per field per update, true by unfolding, so that
no later proof unfolds a record update. -/

namespace Sys2Proof.Machine

/-! ### `takeInput`: the next input is taken off the queue (the model's own, log 1) -/

@[simp] theorem takeInput_opstate (rest : List Input) (s : State) : (takeInput rest s).opstate = s.opstate := rfl
@[simp] theorem takeInput_live (rest : List Input) (s : State) : (takeInput rest s).live = s.live := rfl
@[simp] theorem takeInput_valid (rest : List Input) (s : State) : (takeInput rest s).valid = s.valid := rfl
@[simp] theorem takeInput_exhausted (rest : List Input) (s : State) : (takeInput rest s).exhausted = s.exhausted := rfl
@[simp] theorem takeInput_faultCause (rest : List Input) (s : State) : (takeInput rest s).faultCause = s.faultCause := rfl
@[simp] theorem takeInput_faultOp (rest : List Input) (s : State) : (takeInput rest s).faultOp = s.faultOp := rfl
@[simp] theorem takeInput_faultReg (rest : List Input) (s : State) : (takeInput rest s).faultReg = s.faultReg := rfl
@[simp] theorem takeInput_width (rest : List Input) (s : State) : (takeInput rest s).width = s.width := rfl
@[simp] theorem takeInput_height (rest : List Input) (s : State) : (takeInput rest s).height = s.height := rfl
@[simp] theorem takeInput_low (rest : List Input) (s : State) : (takeInput rest s).low = s.low := rfl
@[simp] theorem takeInput_high (rest : List Input) (s : State) : (takeInput rest s).high = s.high := rfl
@[simp] theorem takeInput_addr (rest : List Input) (s : State) : (takeInput rest s).addr = s.addr := rfl
@[simp] theorem takeInput_data (rest : List Input) (s : State) : (takeInput rest s).data = s.data := rfl
@[simp] theorem takeInput_arg0 (rest : List Input) (s : State) : (takeInput rest s).arg0 = s.arg0 := rfl
@[simp] theorem takeInput_arg1 (rest : List Input) (s : State) : (takeInput rest s).arg1 = s.arg1 := rfl
@[simp] theorem takeInput_res (rest : List Input) (s : State) : (takeInput rest s).res = s.res := rfl
@[simp] theorem takeInput_pix (rest : List Input) (s : State) : (takeInput rest s).pix = s.pix := rfl
@[simp] theorem takeInput_sx (rest : List Input) (s : State) : (takeInput rest s).sx = s.sx := rfl
@[simp] theorem takeInput_sy (rest : List Input) (s : State) : (takeInput rest s).sy = s.sy := rfl
@[simp] theorem takeInput_sp (rest : List Input) (s : State) : (takeInput rest s).sp = s.sp := rfl
@[simp] theorem takeInput_phase (rest : List Input) (s : State) : (takeInput rest s).phase = s.phase := rfl
@[simp] theorem takeInput_cx (rest : List Input) (s : State) : (takeInput rest s).cx = s.cx := rfl
@[simp] theorem takeInput_cy (rest : List Input) (s : State) : (takeInput rest s).cy = s.cy := rfl
@[simp] theorem takeInput_k (rest : List Input) (s : State) : (takeInput rest s).k = s.k := rfl
@[simp] theorem takeInput_gx (rest : List Input) (s : State) : (takeInput rest s).gx = s.gx := rfl
@[simp] theorem takeInput_gy (rest : List Input) (s : State) : (takeInput rest s).gy = s.gy := rfl
@[simp] theorem takeInput_mag (rest : List Input) (s : State) : (takeInput rest s).mag = s.mag := rfl
@[simp] theorem takeInput_sup (rest : List Input) (s : State) : (takeInput rest s).sup = s.sup := rfl
@[simp] theorem takeInput_out (rest : List Input) (s : State) : (takeInput rest s).out = s.out := rfl
@[simp] theorem takeInput_visit (rest : List Input) (s : State) : (takeInput rest s).visit = s.visit := rfl
@[simp] theorem takeInput_stack (rest : List Input) (s : State) : (takeInput rest s).stack = s.stack := rfl
@[simp] theorem takeInput_inputs (rest : List Input) (s : State) : (takeInput rest s).inputs = rest := rfl
@[simp] theorem takeInput_lastRead (rest : List Input) (s : State) : (takeInput rest s).lastRead = s.lastRead := rfl
@[simp] theorem takeInput_freeCount (rest : List Input) (s : State) : (takeInput rest s).freeCount = s.freeCount := rfl
@[simp] theorem takeInput_w (rest : List Input) (s : State) : (takeInput rest s).w = s.w := rfl
@[simp] theorem takeInput_h (rest : List Input) (s : State) : (takeInput rest s).h = s.h := rfl
@[simp] theorem takeInput_area (rest : List Input) (s : State) : (takeInput rest s).area = s.area := rfl
@[simp] theorem takeInput_interiorCount (rest : List Input) (s : State) : (takeInput rest s).interiorCount = s.interiorCount := rfl
@[simp] theorem takeInput_idx (rest : List Input) (s : State) (a b : Nat) : (takeInput rest s).idx a b = s.idx a b := rfl
@[simp] theorem takeInput_interior (rest : List Input) (s : State) (a b : Int) : (takeInput rest s).interior a b = s.interior a b := rfl

/-! ### `accept`: a command is accepted (R104 step 6) -/

@[simp] theorem accept_opstate (i : Instr) (s : State) : (accept i s).opstate = .busy i := rfl
@[simp] theorem accept_live (i : Instr) (s : State) : (accept i s).live = s.live := rfl
@[simp] theorem accept_valid (i : Instr) (s : State) : (accept i s).valid = s.valid := rfl
@[simp] theorem accept_exhausted (i : Instr) (s : State) : (accept i s).exhausted = s.exhausted := rfl
@[simp] theorem accept_faultCause (i : Instr) (s : State) : (accept i s).faultCause = s.faultCause := rfl
@[simp] theorem accept_faultOp (i : Instr) (s : State) : (accept i s).faultOp = s.faultOp := rfl
@[simp] theorem accept_faultReg (i : Instr) (s : State) : (accept i s).faultReg = s.faultReg := rfl
@[simp] theorem accept_width (i : Instr) (s : State) : (accept i s).width = s.width := rfl
@[simp] theorem accept_height (i : Instr) (s : State) : (accept i s).height = s.height := rfl
@[simp] theorem accept_low (i : Instr) (s : State) : (accept i s).low = s.low := rfl
@[simp] theorem accept_high (i : Instr) (s : State) : (accept i s).high = s.high := rfl
@[simp] theorem accept_addr (i : Instr) (s : State) : (accept i s).addr = s.addr := rfl
@[simp] theorem accept_data (i : Instr) (s : State) : (accept i s).data = s.data := rfl
@[simp] theorem accept_arg0 (i : Instr) (s : State) : (accept i s).arg0 = s.arg0 := rfl
@[simp] theorem accept_arg1 (i : Instr) (s : State) : (accept i s).arg1 = s.arg1 := rfl
@[simp] theorem accept_res (i : Instr) (s : State) : (accept i s).res = s.res := rfl
@[simp] theorem accept_pix (i : Instr) (s : State) : (accept i s).pix = s.pix := rfl
@[simp] theorem accept_sx (i : Instr) (s : State) : (accept i s).sx = s.sx := rfl
@[simp] theorem accept_sy (i : Instr) (s : State) : (accept i s).sy = s.sy := rfl
@[simp] theorem accept_sp (i : Instr) (s : State) : (accept i s).sp = s.sp := rfl
@[simp] theorem accept_phase (i : Instr) (s : State) : (accept i s).phase = s.phase := rfl
@[simp] theorem accept_cx (i : Instr) (s : State) : (accept i s).cx = s.cx := rfl
@[simp] theorem accept_cy (i : Instr) (s : State) : (accept i s).cy = s.cy := rfl
@[simp] theorem accept_k (i : Instr) (s : State) : (accept i s).k = s.k := rfl
@[simp] theorem accept_gx (i : Instr) (s : State) : (accept i s).gx = s.gx := rfl
@[simp] theorem accept_gy (i : Instr) (s : State) : (accept i s).gy = s.gy := rfl
@[simp] theorem accept_mag (i : Instr) (s : State) : (accept i s).mag = s.mag := rfl
@[simp] theorem accept_sup (i : Instr) (s : State) : (accept i s).sup = s.sup := rfl
@[simp] theorem accept_out (i : Instr) (s : State) : (accept i s).out = s.out := rfl
@[simp] theorem accept_visit (i : Instr) (s : State) : (accept i s).visit = s.visit := rfl
@[simp] theorem accept_stack (i : Instr) (s : State) : (accept i s).stack = s.stack := rfl
@[simp] theorem accept_inputs (i : Instr) (s : State) : (accept i s).inputs = s.inputs := rfl
@[simp] theorem accept_lastRead (i : Instr) (s : State) : (accept i s).lastRead = s.lastRead := rfl
@[simp] theorem accept_freeCount (i : Instr) (s : State) : (accept i s).freeCount = s.freeCount := rfl
@[simp] theorem accept_w (i : Instr) (s : State) : (accept i s).w = s.w := rfl
@[simp] theorem accept_h (i : Instr) (s : State) : (accept i s).h = s.h := rfl
@[simp] theorem accept_area (i : Instr) (s : State) : (accept i s).area = s.area := rfl
@[simp] theorem accept_interiorCount (i : Instr) (s : State) : (accept i s).interiorCount = s.interiorCount := rfl
@[simp] theorem accept_idx (i : Instr) (s : State) (a b : Nat) : (accept i s).idx a b = s.idx a b := rfl
@[simp] theorem accept_interior (i : Instr) (s : State) (a b : Int) : (accept i s).interior a b = s.interior a b := rfl

/-! ### `returnValue`: a register read returns a value (R255) -/

@[simp] theorem returnValue_opstate (v : Word) (s : State) : (returnValue v s).opstate = s.opstate := rfl
@[simp] theorem returnValue_live (v : Word) (s : State) : (returnValue v s).live = s.live := rfl
@[simp] theorem returnValue_valid (v : Word) (s : State) : (returnValue v s).valid = s.valid := rfl
@[simp] theorem returnValue_exhausted (v : Word) (s : State) : (returnValue v s).exhausted = s.exhausted := rfl
@[simp] theorem returnValue_faultCause (v : Word) (s : State) : (returnValue v s).faultCause = s.faultCause := rfl
@[simp] theorem returnValue_faultOp (v : Word) (s : State) : (returnValue v s).faultOp = s.faultOp := rfl
@[simp] theorem returnValue_faultReg (v : Word) (s : State) : (returnValue v s).faultReg = s.faultReg := rfl
@[simp] theorem returnValue_width (v : Word) (s : State) : (returnValue v s).width = s.width := rfl
@[simp] theorem returnValue_height (v : Word) (s : State) : (returnValue v s).height = s.height := rfl
@[simp] theorem returnValue_low (v : Word) (s : State) : (returnValue v s).low = s.low := rfl
@[simp] theorem returnValue_high (v : Word) (s : State) : (returnValue v s).high = s.high := rfl
@[simp] theorem returnValue_addr (v : Word) (s : State) : (returnValue v s).addr = s.addr := rfl
@[simp] theorem returnValue_data (v : Word) (s : State) : (returnValue v s).data = s.data := rfl
@[simp] theorem returnValue_arg0 (v : Word) (s : State) : (returnValue v s).arg0 = s.arg0 := rfl
@[simp] theorem returnValue_arg1 (v : Word) (s : State) : (returnValue v s).arg1 = s.arg1 := rfl
@[simp] theorem returnValue_res (v : Word) (s : State) : (returnValue v s).res = s.res := rfl
@[simp] theorem returnValue_pix (v : Word) (s : State) : (returnValue v s).pix = s.pix := rfl
@[simp] theorem returnValue_sx (v : Word) (s : State) : (returnValue v s).sx = s.sx := rfl
@[simp] theorem returnValue_sy (v : Word) (s : State) : (returnValue v s).sy = s.sy := rfl
@[simp] theorem returnValue_sp (v : Word) (s : State) : (returnValue v s).sp = s.sp := rfl
@[simp] theorem returnValue_phase (v : Word) (s : State) : (returnValue v s).phase = s.phase := rfl
@[simp] theorem returnValue_cx (v : Word) (s : State) : (returnValue v s).cx = s.cx := rfl
@[simp] theorem returnValue_cy (v : Word) (s : State) : (returnValue v s).cy = s.cy := rfl
@[simp] theorem returnValue_k (v : Word) (s : State) : (returnValue v s).k = s.k := rfl
@[simp] theorem returnValue_gx (v : Word) (s : State) : (returnValue v s).gx = s.gx := rfl
@[simp] theorem returnValue_gy (v : Word) (s : State) : (returnValue v s).gy = s.gy := rfl
@[simp] theorem returnValue_mag (v : Word) (s : State) : (returnValue v s).mag = s.mag := rfl
@[simp] theorem returnValue_sup (v : Word) (s : State) : (returnValue v s).sup = s.sup := rfl
@[simp] theorem returnValue_out (v : Word) (s : State) : (returnValue v s).out = s.out := rfl
@[simp] theorem returnValue_visit (v : Word) (s : State) : (returnValue v s).visit = s.visit := rfl
@[simp] theorem returnValue_stack (v : Word) (s : State) : (returnValue v s).stack = s.stack := rfl
@[simp] theorem returnValue_inputs (v : Word) (s : State) : (returnValue v s).inputs = s.inputs := rfl
@[simp] theorem returnValue_lastRead (v : Word) (s : State) : (returnValue v s).lastRead = some v := rfl
@[simp] theorem returnValue_freeCount (v : Word) (s : State) : (returnValue v s).freeCount = s.freeCount := rfl
@[simp] theorem returnValue_w (v : Word) (s : State) : (returnValue v s).w = s.w := rfl
@[simp] theorem returnValue_h (v : Word) (s : State) : (returnValue v s).h = s.h := rfl
@[simp] theorem returnValue_area (v : Word) (s : State) : (returnValue v s).area = s.area := rfl
@[simp] theorem returnValue_interiorCount (v : Word) (s : State) : (returnValue v s).interiorCount = s.interiorCount := rfl
@[simp] theorem returnValue_idx (v : Word) (s : State) (a b : Nat) : (returnValue v s).idx a b = s.idx a b := rfl
@[simp] theorem returnValue_interior (v : Word) (s : State) (a b : Int) : (returnValue v s).interior a b = s.interior a b := rfl

/-! ### `returnFree`: a read returns an unspecified value (U8, log 7) -/

@[simp] theorem returnFree_opstate (s : State) : (returnFree s).opstate = s.opstate := rfl
@[simp] theorem returnFree_live (s : State) : (returnFree s).live = s.live := rfl
@[simp] theorem returnFree_valid (s : State) : (returnFree s).valid = s.valid := rfl
@[simp] theorem returnFree_exhausted (s : State) : (returnFree s).exhausted = s.exhausted := rfl
@[simp] theorem returnFree_faultCause (s : State) : (returnFree s).faultCause = s.faultCause := rfl
@[simp] theorem returnFree_faultOp (s : State) : (returnFree s).faultOp = s.faultOp := rfl
@[simp] theorem returnFree_faultReg (s : State) : (returnFree s).faultReg = s.faultReg := rfl
@[simp] theorem returnFree_width (s : State) : (returnFree s).width = s.width := rfl
@[simp] theorem returnFree_height (s : State) : (returnFree s).height = s.height := rfl
@[simp] theorem returnFree_low (s : State) : (returnFree s).low = s.low := rfl
@[simp] theorem returnFree_high (s : State) : (returnFree s).high = s.high := rfl
@[simp] theorem returnFree_addr (s : State) : (returnFree s).addr = s.addr := rfl
@[simp] theorem returnFree_data (s : State) : (returnFree s).data = s.data := rfl
@[simp] theorem returnFree_arg0 (s : State) : (returnFree s).arg0 = s.arg0 := rfl
@[simp] theorem returnFree_arg1 (s : State) : (returnFree s).arg1 = s.arg1 := rfl
@[simp] theorem returnFree_res (s : State) : (returnFree s).res = s.res := rfl
@[simp] theorem returnFree_pix (s : State) : (returnFree s).pix = s.pix := rfl
@[simp] theorem returnFree_sx (s : State) : (returnFree s).sx = s.sx := rfl
@[simp] theorem returnFree_sy (s : State) : (returnFree s).sy = s.sy := rfl
@[simp] theorem returnFree_sp (s : State) : (returnFree s).sp = s.sp := rfl
@[simp] theorem returnFree_phase (s : State) : (returnFree s).phase = s.phase := rfl
@[simp] theorem returnFree_cx (s : State) : (returnFree s).cx = s.cx := rfl
@[simp] theorem returnFree_cy (s : State) : (returnFree s).cy = s.cy := rfl
@[simp] theorem returnFree_k (s : State) : (returnFree s).k = s.k := rfl
@[simp] theorem returnFree_gx (s : State) : (returnFree s).gx = s.gx := rfl
@[simp] theorem returnFree_gy (s : State) : (returnFree s).gy = s.gy := rfl
@[simp] theorem returnFree_mag (s : State) : (returnFree s).mag = s.mag := rfl
@[simp] theorem returnFree_sup (s : State) : (returnFree s).sup = s.sup := rfl
@[simp] theorem returnFree_out (s : State) : (returnFree s).out = s.out := rfl
@[simp] theorem returnFree_visit (s : State) : (returnFree s).visit = s.visit := rfl
@[simp] theorem returnFree_stack (s : State) : (returnFree s).stack = s.stack := rfl
@[simp] theorem returnFree_inputs (s : State) : (returnFree s).inputs = s.inputs := rfl
@[simp] theorem returnFree_lastRead (s : State) : (returnFree s).lastRead = some (Config.freeWord s.freeCount) := rfl
@[simp] theorem returnFree_freeCount (s : State) : (returnFree s).freeCount = s.freeCount + 1 := rfl
@[simp] theorem returnFree_w (s : State) : (returnFree s).w = s.w := rfl
@[simp] theorem returnFree_h (s : State) : (returnFree s).h = s.h := rfl
@[simp] theorem returnFree_area (s : State) : (returnFree s).area = s.area := rfl
@[simp] theorem returnFree_interiorCount (s : State) : (returnFree s).interiorCount = s.interiorCount := rfl
@[simp] theorem returnFree_idx (s : State) (a b : Nat) : (returnFree s).idx a b = s.idx a b := rfl
@[simp] theorem returnFree_interior (s : State) (a b : Int) : (returnFree s).interior a b = s.interior a b := rfl

/-! ### `startTraversal`: the tracer's registers at `TInit` (R195) -/

@[simp] theorem startTraversal_opstate (s : State) : (startTraversal s).opstate = s.opstate := rfl
@[simp] theorem startTraversal_live (s : State) : (startTraversal s).live = s.live := rfl
@[simp] theorem startTraversal_valid (s : State) : (startTraversal s).valid = s.valid := rfl
@[simp] theorem startTraversal_exhausted (s : State) : (startTraversal s).exhausted = s.exhausted := rfl
@[simp] theorem startTraversal_faultCause (s : State) : (startTraversal s).faultCause = s.faultCause := rfl
@[simp] theorem startTraversal_faultOp (s : State) : (startTraversal s).faultOp = s.faultOp := rfl
@[simp] theorem startTraversal_faultReg (s : State) : (startTraversal s).faultReg = s.faultReg := rfl
@[simp] theorem startTraversal_width (s : State) : (startTraversal s).width = s.width := rfl
@[simp] theorem startTraversal_height (s : State) : (startTraversal s).height = s.height := rfl
@[simp] theorem startTraversal_low (s : State) : (startTraversal s).low = s.low := rfl
@[simp] theorem startTraversal_high (s : State) : (startTraversal s).high = s.high := rfl
@[simp] theorem startTraversal_addr (s : State) : (startTraversal s).addr = s.addr := rfl
@[simp] theorem startTraversal_data (s : State) : (startTraversal s).data = s.data := rfl
@[simp] theorem startTraversal_arg0 (s : State) : (startTraversal s).arg0 = s.arg0 := rfl
@[simp] theorem startTraversal_arg1 (s : State) : (startTraversal s).arg1 = s.arg1 := rfl
@[simp] theorem startTraversal_res (s : State) : (startTraversal s).res = s.res := rfl
@[simp] theorem startTraversal_pix (s : State) : (startTraversal s).pix = s.pix := rfl
@[simp] theorem startTraversal_sx (s : State) : (startTraversal s).sx = 1#16 := rfl
@[simp] theorem startTraversal_sy (s : State) : (startTraversal s).sy = 1#16 := rfl
@[simp] theorem startTraversal_sp (s : State) : (startTraversal s).sp = 0#32 := rfl
@[simp] theorem startTraversal_phase (s : State) : (startTraversal s).phase = .scan := rfl
@[simp] theorem startTraversal_cx (s : State) : (startTraversal s).cx = 0#16 := rfl
@[simp] theorem startTraversal_cy (s : State) : (startTraversal s).cy = 0#16 := rfl
@[simp] theorem startTraversal_k (s : State) : (startTraversal s).k = 0 := rfl
@[simp] theorem startTraversal_gx (s : State) : (startTraversal s).gx = s.gx := rfl
@[simp] theorem startTraversal_gy (s : State) : (startTraversal s).gy = s.gy := rfl
@[simp] theorem startTraversal_mag (s : State) : (startTraversal s).mag = s.mag := rfl
@[simp] theorem startTraversal_sup (s : State) : (startTraversal s).sup = s.sup := rfl
@[simp] theorem startTraversal_out (s : State) : (startTraversal s).out = s.out := rfl
@[simp] theorem startTraversal_visit (s : State) : (startTraversal s).visit = s.visit := rfl
@[simp] theorem startTraversal_stack (s : State) : (startTraversal s).stack = s.stack := rfl
@[simp] theorem startTraversal_inputs (s : State) : (startTraversal s).inputs = s.inputs := rfl
@[simp] theorem startTraversal_lastRead (s : State) : (startTraversal s).lastRead = s.lastRead := rfl
@[simp] theorem startTraversal_freeCount (s : State) : (startTraversal s).freeCount = s.freeCount := rfl
@[simp] theorem startTraversal_w (s : State) : (startTraversal s).w = s.w := rfl
@[simp] theorem startTraversal_h (s : State) : (startTraversal s).h = s.h := rfl
@[simp] theorem startTraversal_area (s : State) : (startTraversal s).area = s.area := rfl
@[simp] theorem startTraversal_interiorCount (s : State) : (startTraversal s).interiorCount = s.interiorCount := rfl
@[simp] theorem startTraversal_idx (s : State) (a b : Nat) : (startTraversal s).idx a b = s.idx a b := rfl
@[simp] theorem startTraversal_interior (s : State) (a b : Int) : (startTraversal s).interior a b = s.interior a b := rfl

/-! ### `tInit`: `TInit` (R195) -/

@[simp] theorem tInit_opstate (s : State) : (tInit s).opstate = s.opstate := rfl
@[simp] theorem tInit_live (s : State) : (tInit s).live = s.live := rfl
@[simp] theorem tInit_valid (s : State) : (tInit s).valid = s.valid := rfl
@[simp] theorem tInit_exhausted (s : State) : (tInit s).exhausted = s.exhausted := rfl
@[simp] theorem tInit_faultCause (s : State) : (tInit s).faultCause = s.faultCause := rfl
@[simp] theorem tInit_faultOp (s : State) : (tInit s).faultOp = s.faultOp := rfl
@[simp] theorem tInit_faultReg (s : State) : (tInit s).faultReg = s.faultReg := rfl
@[simp] theorem tInit_width (s : State) : (tInit s).width = s.width := rfl
@[simp] theorem tInit_height (s : State) : (tInit s).height = s.height := rfl
@[simp] theorem tInit_low (s : State) : (tInit s).low = s.low := rfl
@[simp] theorem tInit_high (s : State) : (tInit s).high = s.high := rfl
@[simp] theorem tInit_addr (s : State) : (tInit s).addr = s.addr := rfl
@[simp] theorem tInit_data (s : State) : (tInit s).data = s.data := rfl
@[simp] theorem tInit_arg0 (s : State) : (tInit s).arg0 = s.arg0 := rfl
@[simp] theorem tInit_arg1 (s : State) : (tInit s).arg1 = s.arg1 := rfl
@[simp] theorem tInit_res (s : State) : (tInit s).res = s.res := rfl
@[simp] theorem tInit_pix (s : State) : (tInit s).pix = s.pix := rfl
@[simp] theorem tInit_sx (s : State) : (tInit s).sx = 1#16 := rfl
@[simp] theorem tInit_sy (s : State) : (tInit s).sy = 1#16 := rfl
@[simp] theorem tInit_sp (s : State) : (tInit s).sp = 0#32 := rfl
@[simp] theorem tInit_phase (s : State) : (tInit s).phase = .scan := rfl
@[simp] theorem tInit_cx (s : State) : (tInit s).cx = 0#16 := rfl
@[simp] theorem tInit_cy (s : State) : (tInit s).cy = 0#16 := rfl
@[simp] theorem tInit_k (s : State) : (tInit s).k = 0 := rfl
@[simp] theorem tInit_gx (s : State) : (tInit s).gx = s.gx := rfl
@[simp] theorem tInit_gy (s : State) : (tInit s).gy = s.gy := rfl
@[simp] theorem tInit_mag (s : State) : (tInit s).mag = s.mag := rfl
@[simp] theorem tInit_sup (s : State) : (tInit s).sup = s.sup := rfl
@[simp] theorem tInit_out (s : State) : (tInit s).out = s.out := rfl
@[simp] theorem tInit_visit (s : State) : (tInit s).visit = s.visit.fill s.area fun _ => 0#1 := rfl
@[simp] theorem tInit_stack (s : State) : (tInit s).stack = s.stack := rfl
@[simp] theorem tInit_inputs (s : State) : (tInit s).inputs = s.inputs := rfl
@[simp] theorem tInit_lastRead (s : State) : (tInit s).lastRead = s.lastRead := rfl
@[simp] theorem tInit_freeCount (s : State) : (tInit s).freeCount = s.freeCount := rfl
@[simp] theorem tInit_w (s : State) : (tInit s).w = s.w := rfl
@[simp] theorem tInit_h (s : State) : (tInit s).h = s.h := rfl
@[simp] theorem tInit_area (s : State) : (tInit s).area = s.area := rfl
@[simp] theorem tInit_interiorCount (s : State) : (tInit s).interiorCount = s.interiorCount := rfl
@[simp] theorem tInit_idx (s : State) (a b : Nat) : (tInit s).idx a b = s.idx a b := rfl
@[simp] theorem tInit_interior (s : State) (a b : Int) : (tInit s).interior a b = s.interior a b := rfl

/-! ### `traceStart`: the start of `TRACE` (R215) -/

@[simp] theorem traceStart_opstate (s : State) : (traceStart s).opstate = s.opstate := rfl
@[simp] theorem traceStart_live (s : State) : (traceStart s).live = s.live := rfl
@[simp] theorem traceStart_valid (s : State) : (traceStart s).valid = s.valid := rfl
@[simp] theorem traceStart_exhausted (s : State) : (traceStart s).exhausted = s.exhausted := rfl
@[simp] theorem traceStart_faultCause (s : State) : (traceStart s).faultCause = s.faultCause := rfl
@[simp] theorem traceStart_faultOp (s : State) : (traceStart s).faultOp = s.faultOp := rfl
@[simp] theorem traceStart_faultReg (s : State) : (traceStart s).faultReg = s.faultReg := rfl
@[simp] theorem traceStart_width (s : State) : (traceStart s).width = s.width := rfl
@[simp] theorem traceStart_height (s : State) : (traceStart s).height = s.height := rfl
@[simp] theorem traceStart_low (s : State) : (traceStart s).low = s.low := rfl
@[simp] theorem traceStart_high (s : State) : (traceStart s).high = s.high := rfl
@[simp] theorem traceStart_addr (s : State) : (traceStart s).addr = s.addr := rfl
@[simp] theorem traceStart_data (s : State) : (traceStart s).data = s.data := rfl
@[simp] theorem traceStart_arg0 (s : State) : (traceStart s).arg0 = s.arg0 := rfl
@[simp] theorem traceStart_arg1 (s : State) : (traceStart s).arg1 = s.arg1 := rfl
@[simp] theorem traceStart_res (s : State) : (traceStart s).res = s.res := rfl
@[simp] theorem traceStart_pix (s : State) : (traceStart s).pix = s.pix := rfl
@[simp] theorem traceStart_sx (s : State) : (traceStart s).sx = 1#16 := rfl
@[simp] theorem traceStart_sy (s : State) : (traceStart s).sy = 1#16 := rfl
@[simp] theorem traceStart_sp (s : State) : (traceStart s).sp = 0#32 := rfl
@[simp] theorem traceStart_phase (s : State) : (traceStart s).phase = .scan := rfl
@[simp] theorem traceStart_cx (s : State) : (traceStart s).cx = 0#16 := rfl
@[simp] theorem traceStart_cy (s : State) : (traceStart s).cy = 0#16 := rfl
@[simp] theorem traceStart_k (s : State) : (traceStart s).k = 0 := rfl
@[simp] theorem traceStart_gx (s : State) : (traceStart s).gx = s.gx := rfl
@[simp] theorem traceStart_gy (s : State) : (traceStart s).gy = s.gy := rfl
@[simp] theorem traceStart_mag (s : State) : (traceStart s).mag = s.mag := rfl
@[simp] theorem traceStart_sup (s : State) : (traceStart s).sup = s.sup := rfl
@[simp] theorem traceStart_out (s : State) : (traceStart s).out = s.out.fill s.area fun _ => Config.bg := rfl
@[simp] theorem traceStart_visit (s : State) : (traceStart s).visit = s.visit.fill s.area fun _ => 0#1 := rfl
@[simp] theorem traceStart_stack (s : State) : (traceStart s).stack = s.stack := rfl
@[simp] theorem traceStart_inputs (s : State) : (traceStart s).inputs = s.inputs := rfl
@[simp] theorem traceStart_lastRead (s : State) : (traceStart s).lastRead = s.lastRead := rfl
@[simp] theorem traceStart_freeCount (s : State) : (traceStart s).freeCount = s.freeCount := rfl
@[simp] theorem traceStart_w (s : State) : (traceStart s).w = s.w := rfl
@[simp] theorem traceStart_h (s : State) : (traceStart s).h = s.h := rfl
@[simp] theorem traceStart_area (s : State) : (traceStart s).area = s.area := rfl
@[simp] theorem traceStart_interiorCount (s : State) : (traceStart s).interiorCount = s.interiorCount := rfl
@[simp] theorem traceStart_idx (s : State) (a b : Nat) : (traceStart s).idx a b = s.idx a b := rfl
@[simp] theorem traceStart_interior (s : State) (a b : Int) : (traceStart s).interior a b = s.interior a b := rfl

/-! ### `lstartBody`: `LSTART` (R231) -/

@[simp] theorem lstartBody_opstate (s : State) : (lstartBody s).opstate = s.opstate := rfl
@[simp] theorem lstartBody_live (s : State) : (lstartBody s).live = true := rfl
@[simp] theorem lstartBody_valid (s : State) : (lstartBody s).valid = false := rfl
@[simp] theorem lstartBody_exhausted (s : State) : (lstartBody s).exhausted = false := rfl
@[simp] theorem lstartBody_faultCause (s : State) : (lstartBody s).faultCause = s.faultCause := rfl
@[simp] theorem lstartBody_faultOp (s : State) : (lstartBody s).faultOp = s.faultOp := rfl
@[simp] theorem lstartBody_faultReg (s : State) : (lstartBody s).faultReg = s.faultReg := rfl
@[simp] theorem lstartBody_width (s : State) : (lstartBody s).width = s.width := rfl
@[simp] theorem lstartBody_height (s : State) : (lstartBody s).height = s.height := rfl
@[simp] theorem lstartBody_low (s : State) : (lstartBody s).low = s.low := rfl
@[simp] theorem lstartBody_high (s : State) : (lstartBody s).high = s.high := rfl
@[simp] theorem lstartBody_addr (s : State) : (lstartBody s).addr = s.addr := rfl
@[simp] theorem lstartBody_data (s : State) : (lstartBody s).data = s.data := rfl
@[simp] theorem lstartBody_arg0 (s : State) : (lstartBody s).arg0 = s.arg0 := rfl
@[simp] theorem lstartBody_arg1 (s : State) : (lstartBody s).arg1 = s.arg1 := rfl
@[simp] theorem lstartBody_res (s : State) : (lstartBody s).res = s.res := rfl
@[simp] theorem lstartBody_pix (s : State) : (lstartBody s).pix = 0#32 := rfl
@[simp] theorem lstartBody_sx (s : State) : (lstartBody s).sx = 1#16 := rfl
@[simp] theorem lstartBody_sy (s : State) : (lstartBody s).sy = 1#16 := rfl
@[simp] theorem lstartBody_sp (s : State) : (lstartBody s).sp = 0#32 := rfl
@[simp] theorem lstartBody_phase (s : State) : (lstartBody s).phase = .scan := rfl
@[simp] theorem lstartBody_cx (s : State) : (lstartBody s).cx = 0#16 := rfl
@[simp] theorem lstartBody_cy (s : State) : (lstartBody s).cy = 0#16 := rfl
@[simp] theorem lstartBody_k (s : State) : (lstartBody s).k = 0 := rfl
@[simp] theorem lstartBody_gx (s : State) : (lstartBody s).gx = s.gx := rfl
@[simp] theorem lstartBody_gy (s : State) : (lstartBody s).gy = s.gy := rfl
@[simp] theorem lstartBody_mag (s : State) : (lstartBody s).mag = s.mag := rfl
@[simp] theorem lstartBody_sup (s : State) : (lstartBody s).sup = s.sup := rfl
@[simp] theorem lstartBody_out (s : State) : (lstartBody s).out = s.out := rfl
@[simp] theorem lstartBody_visit (s : State) : (lstartBody s).visit = s.visit.fill s.area fun _ => 0#1 := rfl
@[simp] theorem lstartBody_stack (s : State) : (lstartBody s).stack = s.stack := rfl
@[simp] theorem lstartBody_inputs (s : State) : (lstartBody s).inputs = s.inputs := rfl
@[simp] theorem lstartBody_lastRead (s : State) : (lstartBody s).lastRead = s.lastRead := rfl
@[simp] theorem lstartBody_freeCount (s : State) : (lstartBody s).freeCount = s.freeCount := rfl
@[simp] theorem lstartBody_w (s : State) : (lstartBody s).w = s.w := rfl
@[simp] theorem lstartBody_h (s : State) : (lstartBody s).h = s.h := rfl
@[simp] theorem lstartBody_area (s : State) : (lstartBody s).area = s.area := rfl
@[simp] theorem lstartBody_interiorCount (s : State) : (lstartBody s).interiorCount = s.interiorCount := rfl
@[simp] theorem lstartBody_idx (s : State) (a b : Nat) : (lstartBody s).idx a b = s.idx a b := rfl
@[simp] theorem lstartBody_interior (s : State) (a b : Int) : (lstartBody s).interior a b = s.interior a b := rfl

/-! ### `ldropBody`: `LDROP` (R238) -/

@[simp] theorem ldropBody_opstate (s : State) : (ldropBody s).opstate = s.opstate := rfl
@[simp] theorem ldropBody_live (s : State) : (ldropBody s).live = false := rfl
@[simp] theorem ldropBody_valid (s : State) : (ldropBody s).valid = false := rfl
@[simp] theorem ldropBody_exhausted (s : State) : (ldropBody s).exhausted = false := rfl
@[simp] theorem ldropBody_faultCause (s : State) : (ldropBody s).faultCause = s.faultCause := rfl
@[simp] theorem ldropBody_faultOp (s : State) : (ldropBody s).faultOp = s.faultOp := rfl
@[simp] theorem ldropBody_faultReg (s : State) : (ldropBody s).faultReg = s.faultReg := rfl
@[simp] theorem ldropBody_width (s : State) : (ldropBody s).width = s.width := rfl
@[simp] theorem ldropBody_height (s : State) : (ldropBody s).height = s.height := rfl
@[simp] theorem ldropBody_low (s : State) : (ldropBody s).low = s.low := rfl
@[simp] theorem ldropBody_high (s : State) : (ldropBody s).high = s.high := rfl
@[simp] theorem ldropBody_addr (s : State) : (ldropBody s).addr = s.addr := rfl
@[simp] theorem ldropBody_data (s : State) : (ldropBody s).data = s.data := rfl
@[simp] theorem ldropBody_arg0 (s : State) : (ldropBody s).arg0 = s.arg0 := rfl
@[simp] theorem ldropBody_arg1 (s : State) : (ldropBody s).arg1 = s.arg1 := rfl
@[simp] theorem ldropBody_res (s : State) : (ldropBody s).res = s.res := rfl
@[simp] theorem ldropBody_pix (s : State) : (ldropBody s).pix = 0#32 := rfl
@[simp] theorem ldropBody_sx (s : State) : (ldropBody s).sx = 0#16 := rfl
@[simp] theorem ldropBody_sy (s : State) : (ldropBody s).sy = 0#16 := rfl
@[simp] theorem ldropBody_sp (s : State) : (ldropBody s).sp = 0#32 := rfl
@[simp] theorem ldropBody_phase (s : State) : (ldropBody s).phase = .off := rfl
@[simp] theorem ldropBody_cx (s : State) : (ldropBody s).cx = 0#16 := rfl
@[simp] theorem ldropBody_cy (s : State) : (ldropBody s).cy = 0#16 := rfl
@[simp] theorem ldropBody_k (s : State) : (ldropBody s).k = 0 := rfl
@[simp] theorem ldropBody_gx (s : State) : (ldropBody s).gx = s.gx := rfl
@[simp] theorem ldropBody_gy (s : State) : (ldropBody s).gy = s.gy := rfl
@[simp] theorem ldropBody_mag (s : State) : (ldropBody s).mag = s.mag := rfl
@[simp] theorem ldropBody_sup (s : State) : (ldropBody s).sup = s.sup := rfl
@[simp] theorem ldropBody_out (s : State) : (ldropBody s).out = s.out := rfl
@[simp] theorem ldropBody_visit (s : State) : (ldropBody s).visit = s.visit := rfl
@[simp] theorem ldropBody_stack (s : State) : (ldropBody s).stack = s.stack := rfl
@[simp] theorem ldropBody_inputs (s : State) : (ldropBody s).inputs = s.inputs := rfl
@[simp] theorem ldropBody_lastRead (s : State) : (ldropBody s).lastRead = s.lastRead := rfl
@[simp] theorem ldropBody_freeCount (s : State) : (ldropBody s).freeCount = s.freeCount := rfl
@[simp] theorem ldropBody_w (s : State) : (ldropBody s).w = s.w := rfl
@[simp] theorem ldropBody_h (s : State) : (ldropBody s).h = s.h := rfl
@[simp] theorem ldropBody_area (s : State) : (ldropBody s).area = s.area := rfl
@[simp] theorem ldropBody_interiorCount (s : State) : (ldropBody s).interiorCount = s.interiorCount := rfl
@[simp] theorem ldropBody_idx (s : State) (a b : Nat) : (ldropBody s).idx a b = s.idx a b := rfl
@[simp] theorem ldropBody_interior (s : State) (a b : Int) : (ldropBody s).interior a b = s.interior a b := rfl

/-! ### `yieldPixel`: a coordinate is yielded (R234) -/

@[simp] theorem yieldPixel_opstate (x y : Half) (s : State) : (yieldPixel x y s).opstate = s.opstate := rfl
@[simp] theorem yieldPixel_live (x y : Half) (s : State) : (yieldPixel x y s).live = s.live := rfl
@[simp] theorem yieldPixel_valid (x y : Half) (s : State) : (yieldPixel x y s).valid = true := rfl
@[simp] theorem yieldPixel_exhausted (x y : Half) (s : State) : (yieldPixel x y s).exhausted = false := rfl
@[simp] theorem yieldPixel_faultCause (x y : Half) (s : State) : (yieldPixel x y s).faultCause = s.faultCause := rfl
@[simp] theorem yieldPixel_faultOp (x y : Half) (s : State) : (yieldPixel x y s).faultOp = s.faultOp := rfl
@[simp] theorem yieldPixel_faultReg (x y : Half) (s : State) : (yieldPixel x y s).faultReg = s.faultReg := rfl
@[simp] theorem yieldPixel_width (x y : Half) (s : State) : (yieldPixel x y s).width = s.width := rfl
@[simp] theorem yieldPixel_height (x y : Half) (s : State) : (yieldPixel x y s).height = s.height := rfl
@[simp] theorem yieldPixel_low (x y : Half) (s : State) : (yieldPixel x y s).low = s.low := rfl
@[simp] theorem yieldPixel_high (x y : Half) (s : State) : (yieldPixel x y s).high = s.high := rfl
@[simp] theorem yieldPixel_addr (x y : Half) (s : State) : (yieldPixel x y s).addr = s.addr := rfl
@[simp] theorem yieldPixel_data (x y : Half) (s : State) : (yieldPixel x y s).data = s.data := rfl
@[simp] theorem yieldPixel_arg0 (x y : Half) (s : State) : (yieldPixel x y s).arg0 = s.arg0 := rfl
@[simp] theorem yieldPixel_arg1 (x y : Half) (s : State) : (yieldPixel x y s).arg1 = s.arg1 := rfl
@[simp] theorem yieldPixel_res (x y : Half) (s : State) : (yieldPixel x y s).res = s.res := rfl
@[simp] theorem yieldPixel_pix (x y : Half) (s : State) : (yieldPixel x y s).pix = coordWord x y := rfl
@[simp] theorem yieldPixel_sx (x y : Half) (s : State) : (yieldPixel x y s).sx = s.sx := rfl
@[simp] theorem yieldPixel_sy (x y : Half) (s : State) : (yieldPixel x y s).sy = s.sy := rfl
@[simp] theorem yieldPixel_sp (x y : Half) (s : State) : (yieldPixel x y s).sp = s.sp := rfl
@[simp] theorem yieldPixel_phase (x y : Half) (s : State) : (yieldPixel x y s).phase = s.phase := rfl
@[simp] theorem yieldPixel_cx (x y : Half) (s : State) : (yieldPixel x y s).cx = s.cx := rfl
@[simp] theorem yieldPixel_cy (x y : Half) (s : State) : (yieldPixel x y s).cy = s.cy := rfl
@[simp] theorem yieldPixel_k (x y : Half) (s : State) : (yieldPixel x y s).k = s.k := rfl
@[simp] theorem yieldPixel_gx (x y : Half) (s : State) : (yieldPixel x y s).gx = s.gx := rfl
@[simp] theorem yieldPixel_gy (x y : Half) (s : State) : (yieldPixel x y s).gy = s.gy := rfl
@[simp] theorem yieldPixel_mag (x y : Half) (s : State) : (yieldPixel x y s).mag = s.mag := rfl
@[simp] theorem yieldPixel_sup (x y : Half) (s : State) : (yieldPixel x y s).sup = s.sup := rfl
@[simp] theorem yieldPixel_out (x y : Half) (s : State) : (yieldPixel x y s).out = s.out := rfl
@[simp] theorem yieldPixel_visit (x y : Half) (s : State) : (yieldPixel x y s).visit = s.visit := rfl
@[simp] theorem yieldPixel_stack (x y : Half) (s : State) : (yieldPixel x y s).stack = s.stack := rfl
@[simp] theorem yieldPixel_inputs (x y : Half) (s : State) : (yieldPixel x y s).inputs = s.inputs := rfl
@[simp] theorem yieldPixel_lastRead (x y : Half) (s : State) : (yieldPixel x y s).lastRead = s.lastRead := rfl
@[simp] theorem yieldPixel_freeCount (x y : Half) (s : State) : (yieldPixel x y s).freeCount = s.freeCount := rfl
@[simp] theorem yieldPixel_w (x y : Half) (s : State) : (yieldPixel x y s).w = s.w := rfl
@[simp] theorem yieldPixel_h (x y : Half) (s : State) : (yieldPixel x y s).h = s.h := rfl
@[simp] theorem yieldPixel_area (x y : Half) (s : State) : (yieldPixel x y s).area = s.area := rfl
@[simp] theorem yieldPixel_interiorCount (x y : Half) (s : State) : (yieldPixel x y s).interiorCount = s.interiorCount := rfl
@[simp] theorem yieldPixel_idx (x y : Half) (s : State) (a b : Nat) : (yieldPixel x y s).idx a b = s.idx a b := rfl
@[simp] theorem yieldPixel_interior (x y : Half) (s : State) (a b : Int) : (yieldPixel x y s).interior a b = s.interior a b := rfl

/-! ### `reportExhausted`: exhaustion is reported (R234) -/

@[simp] theorem reportExhausted_opstate (s : State) : (reportExhausted s).opstate = s.opstate := rfl
@[simp] theorem reportExhausted_live (s : State) : (reportExhausted s).live = s.live := rfl
@[simp] theorem reportExhausted_valid (s : State) : (reportExhausted s).valid = false := rfl
@[simp] theorem reportExhausted_exhausted (s : State) : (reportExhausted s).exhausted = true := rfl
@[simp] theorem reportExhausted_faultCause (s : State) : (reportExhausted s).faultCause = s.faultCause := rfl
@[simp] theorem reportExhausted_faultOp (s : State) : (reportExhausted s).faultOp = s.faultOp := rfl
@[simp] theorem reportExhausted_faultReg (s : State) : (reportExhausted s).faultReg = s.faultReg := rfl
@[simp] theorem reportExhausted_width (s : State) : (reportExhausted s).width = s.width := rfl
@[simp] theorem reportExhausted_height (s : State) : (reportExhausted s).height = s.height := rfl
@[simp] theorem reportExhausted_low (s : State) : (reportExhausted s).low = s.low := rfl
@[simp] theorem reportExhausted_high (s : State) : (reportExhausted s).high = s.high := rfl
@[simp] theorem reportExhausted_addr (s : State) : (reportExhausted s).addr = s.addr := rfl
@[simp] theorem reportExhausted_data (s : State) : (reportExhausted s).data = s.data := rfl
@[simp] theorem reportExhausted_arg0 (s : State) : (reportExhausted s).arg0 = s.arg0 := rfl
@[simp] theorem reportExhausted_arg1 (s : State) : (reportExhausted s).arg1 = s.arg1 := rfl
@[simp] theorem reportExhausted_res (s : State) : (reportExhausted s).res = s.res := rfl
@[simp] theorem reportExhausted_pix (s : State) : (reportExhausted s).pix = s.pix := rfl
@[simp] theorem reportExhausted_sx (s : State) : (reportExhausted s).sx = s.sx := rfl
@[simp] theorem reportExhausted_sy (s : State) : (reportExhausted s).sy = s.sy := rfl
@[simp] theorem reportExhausted_sp (s : State) : (reportExhausted s).sp = s.sp := rfl
@[simp] theorem reportExhausted_phase (s : State) : (reportExhausted s).phase = s.phase := rfl
@[simp] theorem reportExhausted_cx (s : State) : (reportExhausted s).cx = s.cx := rfl
@[simp] theorem reportExhausted_cy (s : State) : (reportExhausted s).cy = s.cy := rfl
@[simp] theorem reportExhausted_k (s : State) : (reportExhausted s).k = s.k := rfl
@[simp] theorem reportExhausted_gx (s : State) : (reportExhausted s).gx = s.gx := rfl
@[simp] theorem reportExhausted_gy (s : State) : (reportExhausted s).gy = s.gy := rfl
@[simp] theorem reportExhausted_mag (s : State) : (reportExhausted s).mag = s.mag := rfl
@[simp] theorem reportExhausted_sup (s : State) : (reportExhausted s).sup = s.sup := rfl
@[simp] theorem reportExhausted_out (s : State) : (reportExhausted s).out = s.out := rfl
@[simp] theorem reportExhausted_visit (s : State) : (reportExhausted s).visit = s.visit := rfl
@[simp] theorem reportExhausted_stack (s : State) : (reportExhausted s).stack = s.stack := rfl
@[simp] theorem reportExhausted_inputs (s : State) : (reportExhausted s).inputs = s.inputs := rfl
@[simp] theorem reportExhausted_lastRead (s : State) : (reportExhausted s).lastRead = s.lastRead := rfl
@[simp] theorem reportExhausted_freeCount (s : State) : (reportExhausted s).freeCount = s.freeCount := rfl
@[simp] theorem reportExhausted_w (s : State) : (reportExhausted s).w = s.w := rfl
@[simp] theorem reportExhausted_h (s : State) : (reportExhausted s).h = s.h := rfl
@[simp] theorem reportExhausted_area (s : State) : (reportExhausted s).area = s.area := rfl
@[simp] theorem reportExhausted_interiorCount (s : State) : (reportExhausted s).interiorCount = s.interiorCount := rfl
@[simp] theorem reportExhausted_idx (s : State) (a b : Nat) : (reportExhausted s).idx a b = s.idx a b := rfl
@[simp] theorem reportExhausted_interior (s : State) (a b : Int) : (reportExhausted s).interior a b = s.interior a b := rfl

/-! ### `writeForeground`: a foreground sample (R215) -/

@[simp] theorem writeForeground_opstate (x y : Half) (s : State) : (writeForeground x y s).opstate = s.opstate := rfl
@[simp] theorem writeForeground_live (x y : Half) (s : State) : (writeForeground x y s).live = s.live := rfl
@[simp] theorem writeForeground_valid (x y : Half) (s : State) : (writeForeground x y s).valid = s.valid := rfl
@[simp] theorem writeForeground_exhausted (x y : Half) (s : State) : (writeForeground x y s).exhausted = s.exhausted := rfl
@[simp] theorem writeForeground_faultCause (x y : Half) (s : State) : (writeForeground x y s).faultCause = s.faultCause := rfl
@[simp] theorem writeForeground_faultOp (x y : Half) (s : State) : (writeForeground x y s).faultOp = s.faultOp := rfl
@[simp] theorem writeForeground_faultReg (x y : Half) (s : State) : (writeForeground x y s).faultReg = s.faultReg := rfl
@[simp] theorem writeForeground_width (x y : Half) (s : State) : (writeForeground x y s).width = s.width := rfl
@[simp] theorem writeForeground_height (x y : Half) (s : State) : (writeForeground x y s).height = s.height := rfl
@[simp] theorem writeForeground_low (x y : Half) (s : State) : (writeForeground x y s).low = s.low := rfl
@[simp] theorem writeForeground_high (x y : Half) (s : State) : (writeForeground x y s).high = s.high := rfl
@[simp] theorem writeForeground_addr (x y : Half) (s : State) : (writeForeground x y s).addr = s.addr := rfl
@[simp] theorem writeForeground_data (x y : Half) (s : State) : (writeForeground x y s).data = s.data := rfl
@[simp] theorem writeForeground_arg0 (x y : Half) (s : State) : (writeForeground x y s).arg0 = s.arg0 := rfl
@[simp] theorem writeForeground_arg1 (x y : Half) (s : State) : (writeForeground x y s).arg1 = s.arg1 := rfl
@[simp] theorem writeForeground_res (x y : Half) (s : State) : (writeForeground x y s).res = s.res := rfl
@[simp] theorem writeForeground_pix (x y : Half) (s : State) : (writeForeground x y s).pix = s.pix := rfl
@[simp] theorem writeForeground_sx (x y : Half) (s : State) : (writeForeground x y s).sx = s.sx := rfl
@[simp] theorem writeForeground_sy (x y : Half) (s : State) : (writeForeground x y s).sy = s.sy := rfl
@[simp] theorem writeForeground_sp (x y : Half) (s : State) : (writeForeground x y s).sp = s.sp := rfl
@[simp] theorem writeForeground_phase (x y : Half) (s : State) : (writeForeground x y s).phase = s.phase := rfl
@[simp] theorem writeForeground_cx (x y : Half) (s : State) : (writeForeground x y s).cx = s.cx := rfl
@[simp] theorem writeForeground_cy (x y : Half) (s : State) : (writeForeground x y s).cy = s.cy := rfl
@[simp] theorem writeForeground_k (x y : Half) (s : State) : (writeForeground x y s).k = s.k := rfl
@[simp] theorem writeForeground_gx (x y : Half) (s : State) : (writeForeground x y s).gx = s.gx := rfl
@[simp] theorem writeForeground_gy (x y : Half) (s : State) : (writeForeground x y s).gy = s.gy := rfl
@[simp] theorem writeForeground_mag (x y : Half) (s : State) : (writeForeground x y s).mag = s.mag := rfl
@[simp] theorem writeForeground_sup (x y : Half) (s : State) : (writeForeground x y s).sup = s.sup := rfl
@[simp] theorem writeForeground_out (x y : Half) (s : State) : (writeForeground x y s).out = s.out.write (s.idx x.toNat y.toNat) Config.fg := rfl
@[simp] theorem writeForeground_visit (x y : Half) (s : State) : (writeForeground x y s).visit = s.visit := rfl
@[simp] theorem writeForeground_stack (x y : Half) (s : State) : (writeForeground x y s).stack = s.stack := rfl
@[simp] theorem writeForeground_inputs (x y : Half) (s : State) : (writeForeground x y s).inputs = s.inputs := rfl
@[simp] theorem writeForeground_lastRead (x y : Half) (s : State) : (writeForeground x y s).lastRead = s.lastRead := rfl
@[simp] theorem writeForeground_freeCount (x y : Half) (s : State) : (writeForeground x y s).freeCount = s.freeCount := rfl
@[simp] theorem writeForeground_w (x y : Half) (s : State) : (writeForeground x y s).w = s.w := rfl
@[simp] theorem writeForeground_h (x y : Half) (s : State) : (writeForeground x y s).h = s.h := rfl
@[simp] theorem writeForeground_area (x y : Half) (s : State) : (writeForeground x y s).area = s.area := rfl
@[simp] theorem writeForeground_interiorCount (x y : Half) (s : State) : (writeForeground x y s).interiorCount = s.interiorCount := rfl
@[simp] theorem writeForeground_idx (x y : Half) (s : State) (a b : Nat) : (writeForeground x y s).idx a b = s.idx a b := rfl
@[simp] theorem writeForeground_interior (x y : Half) (s : State) (a b : Int) : (writeForeground x y s).interior a b = s.interior a b := rfl

/-! ### `hypotRaster`: `HYPOT` (R134) -/

@[simp] theorem hypotRaster_opstate (fn : Half → Half → Word) (s : State) : (hypotRaster fn s).opstate = s.opstate := rfl
@[simp] theorem hypotRaster_live (fn : Half → Half → Word) (s : State) : (hypotRaster fn s).live = s.live := rfl
@[simp] theorem hypotRaster_valid (fn : Half → Half → Word) (s : State) : (hypotRaster fn s).valid = s.valid := rfl
@[simp] theorem hypotRaster_exhausted (fn : Half → Half → Word) (s : State) : (hypotRaster fn s).exhausted = s.exhausted := rfl
@[simp] theorem hypotRaster_faultCause (fn : Half → Half → Word) (s : State) : (hypotRaster fn s).faultCause = s.faultCause := rfl
@[simp] theorem hypotRaster_faultOp (fn : Half → Half → Word) (s : State) : (hypotRaster fn s).faultOp = s.faultOp := rfl
@[simp] theorem hypotRaster_faultReg (fn : Half → Half → Word) (s : State) : (hypotRaster fn s).faultReg = s.faultReg := rfl
@[simp] theorem hypotRaster_width (fn : Half → Half → Word) (s : State) : (hypotRaster fn s).width = s.width := rfl
@[simp] theorem hypotRaster_height (fn : Half → Half → Word) (s : State) : (hypotRaster fn s).height = s.height := rfl
@[simp] theorem hypotRaster_low (fn : Half → Half → Word) (s : State) : (hypotRaster fn s).low = s.low := rfl
@[simp] theorem hypotRaster_high (fn : Half → Half → Word) (s : State) : (hypotRaster fn s).high = s.high := rfl
@[simp] theorem hypotRaster_addr (fn : Half → Half → Word) (s : State) : (hypotRaster fn s).addr = s.addr := rfl
@[simp] theorem hypotRaster_data (fn : Half → Half → Word) (s : State) : (hypotRaster fn s).data = s.data := rfl
@[simp] theorem hypotRaster_arg0 (fn : Half → Half → Word) (s : State) : (hypotRaster fn s).arg0 = s.arg0 := rfl
@[simp] theorem hypotRaster_arg1 (fn : Half → Half → Word) (s : State) : (hypotRaster fn s).arg1 = s.arg1 := rfl
@[simp] theorem hypotRaster_res (fn : Half → Half → Word) (s : State) : (hypotRaster fn s).res = s.res := rfl
@[simp] theorem hypotRaster_pix (fn : Half → Half → Word) (s : State) : (hypotRaster fn s).pix = s.pix := rfl
@[simp] theorem hypotRaster_sx (fn : Half → Half → Word) (s : State) : (hypotRaster fn s).sx = s.sx := rfl
@[simp] theorem hypotRaster_sy (fn : Half → Half → Word) (s : State) : (hypotRaster fn s).sy = s.sy := rfl
@[simp] theorem hypotRaster_sp (fn : Half → Half → Word) (s : State) : (hypotRaster fn s).sp = s.sp := rfl
@[simp] theorem hypotRaster_phase (fn : Half → Half → Word) (s : State) : (hypotRaster fn s).phase = s.phase := rfl
@[simp] theorem hypotRaster_cx (fn : Half → Half → Word) (s : State) : (hypotRaster fn s).cx = s.cx := rfl
@[simp] theorem hypotRaster_cy (fn : Half → Half → Word) (s : State) : (hypotRaster fn s).cy = s.cy := rfl
@[simp] theorem hypotRaster_k (fn : Half → Half → Word) (s : State) : (hypotRaster fn s).k = s.k := rfl
@[simp] theorem hypotRaster_gx (fn : Half → Half → Word) (s : State) : (hypotRaster fn s).gx = s.gx := rfl
@[simp] theorem hypotRaster_gy (fn : Half → Half → Word) (s : State) : (hypotRaster fn s).gy = s.gy := rfl
@[simp] theorem hypotRaster_mag (fn : Half → Half → Word) (s : State) : (hypotRaster fn s).mag = s.mag.fill s.area fun i => fn (s.gx.read i) (s.gy.read i) := rfl
@[simp] theorem hypotRaster_sup (fn : Half → Half → Word) (s : State) : (hypotRaster fn s).sup = s.sup := rfl
@[simp] theorem hypotRaster_out (fn : Half → Half → Word) (s : State) : (hypotRaster fn s).out = s.out := rfl
@[simp] theorem hypotRaster_visit (fn : Half → Half → Word) (s : State) : (hypotRaster fn s).visit = s.visit := rfl
@[simp] theorem hypotRaster_stack (fn : Half → Half → Word) (s : State) : (hypotRaster fn s).stack = s.stack := rfl
@[simp] theorem hypotRaster_inputs (fn : Half → Half → Word) (s : State) : (hypotRaster fn s).inputs = s.inputs := rfl
@[simp] theorem hypotRaster_lastRead (fn : Half → Half → Word) (s : State) : (hypotRaster fn s).lastRead = s.lastRead := rfl
@[simp] theorem hypotRaster_freeCount (fn : Half → Half → Word) (s : State) : (hypotRaster fn s).freeCount = s.freeCount := rfl
@[simp] theorem hypotRaster_w (fn : Half → Half → Word) (s : State) : (hypotRaster fn s).w = s.w := rfl
@[simp] theorem hypotRaster_h (fn : Half → Half → Word) (s : State) : (hypotRaster fn s).h = s.h := rfl
@[simp] theorem hypotRaster_area (fn : Half → Half → Word) (s : State) : (hypotRaster fn s).area = s.area := rfl
@[simp] theorem hypotRaster_interiorCount (fn : Half → Half → Word) (s : State) : (hypotRaster fn s).interiorCount = s.interiorCount := rfl
@[simp] theorem hypotRaster_idx (fn : Half → Half → Word) (s : State) (a b : Nat) : (hypotRaster fn s).idx a b = s.idx a b := rfl
@[simp] theorem hypotRaster_interior (fn : Half → Half → Word) (s : State) (a b : Int) : (hypotRaster fn s).interior a b = s.interior a b := rfl

/-! ### `nmsRaster`: `NMS` (R174) -/

@[simp] theorem nmsRaster_opstate (dirOf : Half → Half → Bucket) (s : State) : (nmsRaster dirOf s).opstate = s.opstate := rfl
@[simp] theorem nmsRaster_live (dirOf : Half → Half → Bucket) (s : State) : (nmsRaster dirOf s).live = s.live := rfl
@[simp] theorem nmsRaster_valid (dirOf : Half → Half → Bucket) (s : State) : (nmsRaster dirOf s).valid = s.valid := rfl
@[simp] theorem nmsRaster_exhausted (dirOf : Half → Half → Bucket) (s : State) : (nmsRaster dirOf s).exhausted = s.exhausted := rfl
@[simp] theorem nmsRaster_faultCause (dirOf : Half → Half → Bucket) (s : State) : (nmsRaster dirOf s).faultCause = s.faultCause := rfl
@[simp] theorem nmsRaster_faultOp (dirOf : Half → Half → Bucket) (s : State) : (nmsRaster dirOf s).faultOp = s.faultOp := rfl
@[simp] theorem nmsRaster_faultReg (dirOf : Half → Half → Bucket) (s : State) : (nmsRaster dirOf s).faultReg = s.faultReg := rfl
@[simp] theorem nmsRaster_width (dirOf : Half → Half → Bucket) (s : State) : (nmsRaster dirOf s).width = s.width := rfl
@[simp] theorem nmsRaster_height (dirOf : Half → Half → Bucket) (s : State) : (nmsRaster dirOf s).height = s.height := rfl
@[simp] theorem nmsRaster_low (dirOf : Half → Half → Bucket) (s : State) : (nmsRaster dirOf s).low = s.low := rfl
@[simp] theorem nmsRaster_high (dirOf : Half → Half → Bucket) (s : State) : (nmsRaster dirOf s).high = s.high := rfl
@[simp] theorem nmsRaster_addr (dirOf : Half → Half → Bucket) (s : State) : (nmsRaster dirOf s).addr = s.addr := rfl
@[simp] theorem nmsRaster_data (dirOf : Half → Half → Bucket) (s : State) : (nmsRaster dirOf s).data = s.data := rfl
@[simp] theorem nmsRaster_arg0 (dirOf : Half → Half → Bucket) (s : State) : (nmsRaster dirOf s).arg0 = s.arg0 := rfl
@[simp] theorem nmsRaster_arg1 (dirOf : Half → Half → Bucket) (s : State) : (nmsRaster dirOf s).arg1 = s.arg1 := rfl
@[simp] theorem nmsRaster_res (dirOf : Half → Half → Bucket) (s : State) : (nmsRaster dirOf s).res = s.res := rfl
@[simp] theorem nmsRaster_pix (dirOf : Half → Half → Bucket) (s : State) : (nmsRaster dirOf s).pix = s.pix := rfl
@[simp] theorem nmsRaster_sx (dirOf : Half → Half → Bucket) (s : State) : (nmsRaster dirOf s).sx = s.sx := rfl
@[simp] theorem nmsRaster_sy (dirOf : Half → Half → Bucket) (s : State) : (nmsRaster dirOf s).sy = s.sy := rfl
@[simp] theorem nmsRaster_sp (dirOf : Half → Half → Bucket) (s : State) : (nmsRaster dirOf s).sp = s.sp := rfl
@[simp] theorem nmsRaster_phase (dirOf : Half → Half → Bucket) (s : State) : (nmsRaster dirOf s).phase = s.phase := rfl
@[simp] theorem nmsRaster_cx (dirOf : Half → Half → Bucket) (s : State) : (nmsRaster dirOf s).cx = s.cx := rfl
@[simp] theorem nmsRaster_cy (dirOf : Half → Half → Bucket) (s : State) : (nmsRaster dirOf s).cy = s.cy := rfl
@[simp] theorem nmsRaster_k (dirOf : Half → Half → Bucket) (s : State) : (nmsRaster dirOf s).k = s.k := rfl
@[simp] theorem nmsRaster_gx (dirOf : Half → Half → Bucket) (s : State) : (nmsRaster dirOf s).gx = s.gx := rfl
@[simp] theorem nmsRaster_gy (dirOf : Half → Half → Bucket) (s : State) : (nmsRaster dirOf s).gy = s.gy := rfl
@[simp] theorem nmsRaster_mag (dirOf : Half → Half → Bucket) (s : State) : (nmsRaster dirOf s).mag = s.mag := rfl
@[simp] theorem nmsRaster_sup (dirOf : Half → Half → Bucket) (s : State) : (nmsRaster dirOf s).sup = s.sup.fillRaster s (suppressed dirOf s) := rfl
@[simp] theorem nmsRaster_out (dirOf : Half → Half → Bucket) (s : State) : (nmsRaster dirOf s).out = s.out := rfl
@[simp] theorem nmsRaster_visit (dirOf : Half → Half → Bucket) (s : State) : (nmsRaster dirOf s).visit = s.visit := rfl
@[simp] theorem nmsRaster_stack (dirOf : Half → Half → Bucket) (s : State) : (nmsRaster dirOf s).stack = s.stack := rfl
@[simp] theorem nmsRaster_inputs (dirOf : Half → Half → Bucket) (s : State) : (nmsRaster dirOf s).inputs = s.inputs := rfl
@[simp] theorem nmsRaster_lastRead (dirOf : Half → Half → Bucket) (s : State) : (nmsRaster dirOf s).lastRead = s.lastRead := rfl
@[simp] theorem nmsRaster_freeCount (dirOf : Half → Half → Bucket) (s : State) : (nmsRaster dirOf s).freeCount = s.freeCount := rfl
@[simp] theorem nmsRaster_w (dirOf : Half → Half → Bucket) (s : State) : (nmsRaster dirOf s).w = s.w := rfl
@[simp] theorem nmsRaster_h (dirOf : Half → Half → Bucket) (s : State) : (nmsRaster dirOf s).h = s.h := rfl
@[simp] theorem nmsRaster_area (dirOf : Half → Half → Bucket) (s : State) : (nmsRaster dirOf s).area = s.area := rfl
@[simp] theorem nmsRaster_interiorCount (dirOf : Half → Half → Bucket) (s : State) : (nmsRaster dirOf s).interiorCount = s.interiorCount := rfl
@[simp] theorem nmsRaster_idx (dirOf : Half → Half → Bucket) (s : State) (a b : Nat) : (nmsRaster dirOf s).idx a b = s.idx a b := rfl
@[simp] theorem nmsRaster_interior (dirOf : Half → Half → Bucket) (s : State) (a b : Int) : (nmsRaster dirOf s).interior a b = s.interior a b := rfl

/-! ### `forgetTracer`: the tracer's state becomes unspecified (R284, log 6) -/

@[simp] theorem forgetTracer_opstate (s : State) : (forgetTracer s).opstate = s.opstate := rfl
@[simp] theorem forgetTracer_live (s : State) : (forgetTracer s).live = s.live := rfl
@[simp] theorem forgetTracer_valid (s : State) : (forgetTracer s).valid = s.valid := rfl
@[simp] theorem forgetTracer_exhausted (s : State) : (forgetTracer s).exhausted = s.exhausted := rfl
@[simp] theorem forgetTracer_faultCause (s : State) : (forgetTracer s).faultCause = s.faultCause := rfl
@[simp] theorem forgetTracer_faultOp (s : State) : (forgetTracer s).faultOp = s.faultOp := rfl
@[simp] theorem forgetTracer_faultReg (s : State) : (forgetTracer s).faultReg = s.faultReg := rfl
@[simp] theorem forgetTracer_width (s : State) : (forgetTracer s).width = s.width := rfl
@[simp] theorem forgetTracer_height (s : State) : (forgetTracer s).height = s.height := rfl
@[simp] theorem forgetTracer_low (s : State) : (forgetTracer s).low = s.low := rfl
@[simp] theorem forgetTracer_high (s : State) : (forgetTracer s).high = s.high := rfl
@[simp] theorem forgetTracer_addr (s : State) : (forgetTracer s).addr = s.addr := rfl
@[simp] theorem forgetTracer_data (s : State) : (forgetTracer s).data = s.data := rfl
@[simp] theorem forgetTracer_arg0 (s : State) : (forgetTracer s).arg0 = s.arg0 := rfl
@[simp] theorem forgetTracer_arg1 (s : State) : (forgetTracer s).arg1 = s.arg1 := rfl
@[simp] theorem forgetTracer_res (s : State) : (forgetTracer s).res = s.res := rfl
@[simp] theorem forgetTracer_pix (s : State) : (forgetTracer s).pix = s.pix := rfl
@[simp] theorem forgetTracer_sx (s : State) : (forgetTracer s).sx = coordX (Config.freeWord (s.freeCount + 1)) := rfl
@[simp] theorem forgetTracer_sy (s : State) : (forgetTracer s).sy = coordY (Config.freeWord (s.freeCount + 1)) := rfl
@[simp] theorem forgetTracer_sp (s : State) : (forgetTracer s).sp = Config.freeWord s.freeCount := rfl
@[simp] theorem forgetTracer_phase (s : State) : (forgetTracer s).phase = phaseOfFree (Config.freeWord (s.freeCount + 2)) := rfl
@[simp] theorem forgetTracer_cx (s : State) : (forgetTracer s).cx = coordX (Config.freeWord (s.freeCount + 3)) := rfl
@[simp] theorem forgetTracer_cy (s : State) : (forgetTracer s).cy = coordY (Config.freeWord (s.freeCount + 3)) := rfl
@[simp] theorem forgetTracer_k (s : State) : (forgetTracer s).k = Fin.ofNat 6 (Config.freeWord (s.freeCount + 4)).toNat := rfl
@[simp] theorem forgetTracer_gx (s : State) : (forgetTracer s).gx = s.gx := rfl
@[simp] theorem forgetTracer_gy (s : State) : (forgetTracer s).gy = s.gy := rfl
@[simp] theorem forgetTracer_mag (s : State) : (forgetTracer s).mag = s.mag := rfl
@[simp] theorem forgetTracer_sup (s : State) : (forgetTracer s).sup = s.sup := rfl
@[simp] theorem forgetTracer_out (s : State) : (forgetTracer s).out = s.out := rfl
@[simp] theorem forgetTracer_visit (s : State) : (forgetTracer s).visit = s.visit := rfl
@[simp] theorem forgetTracer_stack (s : State) : (forgetTracer s).stack = s.stack := rfl
@[simp] theorem forgetTracer_inputs (s : State) : (forgetTracer s).inputs = s.inputs := rfl
@[simp] theorem forgetTracer_lastRead (s : State) : (forgetTracer s).lastRead = s.lastRead := rfl
@[simp] theorem forgetTracer_freeCount (s : State) : (forgetTracer s).freeCount = s.freeCount + 5 := rfl
@[simp] theorem forgetTracer_w (s : State) : (forgetTracer s).w = s.w := rfl
@[simp] theorem forgetTracer_h (s : State) : (forgetTracer s).h = s.h := rfl
@[simp] theorem forgetTracer_area (s : State) : (forgetTracer s).area = s.area := rfl
@[simp] theorem forgetTracer_interiorCount (s : State) : (forgetTracer s).interiorCount = s.interiorCount := rfl
@[simp] theorem forgetTracer_idx (s : State) (a b : Nat) : (forgetTracer s).idx a b = s.idx a b := rfl
@[simp] theorem forgetTracer_interior (s : State) (a b : Int) : (forgetTracer s).interior a b = s.interior a b := rfl

/-! ### `forgetPix`: `PIX` becomes unspecified (U7) -/

@[simp] theorem forgetPix_opstate (s : State) : (forgetPix s).opstate = s.opstate := rfl
@[simp] theorem forgetPix_live (s : State) : (forgetPix s).live = s.live := rfl
@[simp] theorem forgetPix_valid (s : State) : (forgetPix s).valid = s.valid := rfl
@[simp] theorem forgetPix_exhausted (s : State) : (forgetPix s).exhausted = s.exhausted := rfl
@[simp] theorem forgetPix_faultCause (s : State) : (forgetPix s).faultCause = s.faultCause := rfl
@[simp] theorem forgetPix_faultOp (s : State) : (forgetPix s).faultOp = s.faultOp := rfl
@[simp] theorem forgetPix_faultReg (s : State) : (forgetPix s).faultReg = s.faultReg := rfl
@[simp] theorem forgetPix_width (s : State) : (forgetPix s).width = s.width := rfl
@[simp] theorem forgetPix_height (s : State) : (forgetPix s).height = s.height := rfl
@[simp] theorem forgetPix_low (s : State) : (forgetPix s).low = s.low := rfl
@[simp] theorem forgetPix_high (s : State) : (forgetPix s).high = s.high := rfl
@[simp] theorem forgetPix_addr (s : State) : (forgetPix s).addr = s.addr := rfl
@[simp] theorem forgetPix_data (s : State) : (forgetPix s).data = s.data := rfl
@[simp] theorem forgetPix_arg0 (s : State) : (forgetPix s).arg0 = s.arg0 := rfl
@[simp] theorem forgetPix_arg1 (s : State) : (forgetPix s).arg1 = s.arg1 := rfl
@[simp] theorem forgetPix_res (s : State) : (forgetPix s).res = s.res := rfl
@[simp] theorem forgetPix_pix (s : State) : (forgetPix s).pix = Config.freeWord s.freeCount := rfl
@[simp] theorem forgetPix_sx (s : State) : (forgetPix s).sx = s.sx := rfl
@[simp] theorem forgetPix_sy (s : State) : (forgetPix s).sy = s.sy := rfl
@[simp] theorem forgetPix_sp (s : State) : (forgetPix s).sp = s.sp := rfl
@[simp] theorem forgetPix_phase (s : State) : (forgetPix s).phase = s.phase := rfl
@[simp] theorem forgetPix_cx (s : State) : (forgetPix s).cx = s.cx := rfl
@[simp] theorem forgetPix_cy (s : State) : (forgetPix s).cy = s.cy := rfl
@[simp] theorem forgetPix_k (s : State) : (forgetPix s).k = s.k := rfl
@[simp] theorem forgetPix_gx (s : State) : (forgetPix s).gx = s.gx := rfl
@[simp] theorem forgetPix_gy (s : State) : (forgetPix s).gy = s.gy := rfl
@[simp] theorem forgetPix_mag (s : State) : (forgetPix s).mag = s.mag := rfl
@[simp] theorem forgetPix_sup (s : State) : (forgetPix s).sup = s.sup := rfl
@[simp] theorem forgetPix_out (s : State) : (forgetPix s).out = s.out := rfl
@[simp] theorem forgetPix_visit (s : State) : (forgetPix s).visit = s.visit := rfl
@[simp] theorem forgetPix_stack (s : State) : (forgetPix s).stack = s.stack := rfl
@[simp] theorem forgetPix_inputs (s : State) : (forgetPix s).inputs = s.inputs := rfl
@[simp] theorem forgetPix_lastRead (s : State) : (forgetPix s).lastRead = s.lastRead := rfl
@[simp] theorem forgetPix_freeCount (s : State) : (forgetPix s).freeCount = s.freeCount + 1 := rfl
@[simp] theorem forgetPix_w (s : State) : (forgetPix s).w = s.w := rfl
@[simp] theorem forgetPix_h (s : State) : (forgetPix s).h = s.h := rfl
@[simp] theorem forgetPix_area (s : State) : (forgetPix s).area = s.area := rfl
@[simp] theorem forgetPix_interiorCount (s : State) : (forgetPix s).interiorCount = s.interiorCount := rfl
@[simp] theorem forgetPix_idx (s : State) (a b : Nat) : (forgetPix s).idx a b = s.idx a b := rfl
@[simp] theorem forgetPix_interior (s : State) (a b : Int) : (forgetPix s).interior a b = s.interior a b := rfl

/-! ### `forgetRes`: `RES` becomes unspecified (U7) -/

@[simp] theorem forgetRes_opstate (s : State) : (forgetRes s).opstate = s.opstate := rfl
@[simp] theorem forgetRes_live (s : State) : (forgetRes s).live = s.live := rfl
@[simp] theorem forgetRes_valid (s : State) : (forgetRes s).valid = s.valid := rfl
@[simp] theorem forgetRes_exhausted (s : State) : (forgetRes s).exhausted = s.exhausted := rfl
@[simp] theorem forgetRes_faultCause (s : State) : (forgetRes s).faultCause = s.faultCause := rfl
@[simp] theorem forgetRes_faultOp (s : State) : (forgetRes s).faultOp = s.faultOp := rfl
@[simp] theorem forgetRes_faultReg (s : State) : (forgetRes s).faultReg = s.faultReg := rfl
@[simp] theorem forgetRes_width (s : State) : (forgetRes s).width = s.width := rfl
@[simp] theorem forgetRes_height (s : State) : (forgetRes s).height = s.height := rfl
@[simp] theorem forgetRes_low (s : State) : (forgetRes s).low = s.low := rfl
@[simp] theorem forgetRes_high (s : State) : (forgetRes s).high = s.high := rfl
@[simp] theorem forgetRes_addr (s : State) : (forgetRes s).addr = s.addr := rfl
@[simp] theorem forgetRes_data (s : State) : (forgetRes s).data = s.data := rfl
@[simp] theorem forgetRes_arg0 (s : State) : (forgetRes s).arg0 = s.arg0 := rfl
@[simp] theorem forgetRes_arg1 (s : State) : (forgetRes s).arg1 = s.arg1 := rfl
@[simp] theorem forgetRes_res (s : State) : (forgetRes s).res = Config.freeWord s.freeCount := rfl
@[simp] theorem forgetRes_pix (s : State) : (forgetRes s).pix = s.pix := rfl
@[simp] theorem forgetRes_sx (s : State) : (forgetRes s).sx = s.sx := rfl
@[simp] theorem forgetRes_sy (s : State) : (forgetRes s).sy = s.sy := rfl
@[simp] theorem forgetRes_sp (s : State) : (forgetRes s).sp = s.sp := rfl
@[simp] theorem forgetRes_phase (s : State) : (forgetRes s).phase = s.phase := rfl
@[simp] theorem forgetRes_cx (s : State) : (forgetRes s).cx = s.cx := rfl
@[simp] theorem forgetRes_cy (s : State) : (forgetRes s).cy = s.cy := rfl
@[simp] theorem forgetRes_k (s : State) : (forgetRes s).k = s.k := rfl
@[simp] theorem forgetRes_gx (s : State) : (forgetRes s).gx = s.gx := rfl
@[simp] theorem forgetRes_gy (s : State) : (forgetRes s).gy = s.gy := rfl
@[simp] theorem forgetRes_mag (s : State) : (forgetRes s).mag = s.mag := rfl
@[simp] theorem forgetRes_sup (s : State) : (forgetRes s).sup = s.sup := rfl
@[simp] theorem forgetRes_out (s : State) : (forgetRes s).out = s.out := rfl
@[simp] theorem forgetRes_visit (s : State) : (forgetRes s).visit = s.visit := rfl
@[simp] theorem forgetRes_stack (s : State) : (forgetRes s).stack = s.stack := rfl
@[simp] theorem forgetRes_inputs (s : State) : (forgetRes s).inputs = s.inputs := rfl
@[simp] theorem forgetRes_lastRead (s : State) : (forgetRes s).lastRead = s.lastRead := rfl
@[simp] theorem forgetRes_freeCount (s : State) : (forgetRes s).freeCount = s.freeCount + 1 := rfl
@[simp] theorem forgetRes_w (s : State) : (forgetRes s).w = s.w := rfl
@[simp] theorem forgetRes_h (s : State) : (forgetRes s).h = s.h := rfl
@[simp] theorem forgetRes_area (s : State) : (forgetRes s).area = s.area := rfl
@[simp] theorem forgetRes_interiorCount (s : State) : (forgetRes s).interiorCount = s.interiorCount := rfl
@[simp] theorem forgetRes_idx (s : State) (a b : Nat) : (forgetRes s).idx a b = s.idx a b := rfl
@[simp] theorem forgetRes_interior (s : State) (a b : Int) : (forgetRes s).interior a b = s.interior a b := rfl

/-! ### `forgetData`: `DATA` becomes unspecified (U7) -/

@[simp] theorem forgetData_opstate (s : State) : (forgetData s).opstate = s.opstate := rfl
@[simp] theorem forgetData_live (s : State) : (forgetData s).live = s.live := rfl
@[simp] theorem forgetData_valid (s : State) : (forgetData s).valid = s.valid := rfl
@[simp] theorem forgetData_exhausted (s : State) : (forgetData s).exhausted = s.exhausted := rfl
@[simp] theorem forgetData_faultCause (s : State) : (forgetData s).faultCause = s.faultCause := rfl
@[simp] theorem forgetData_faultOp (s : State) : (forgetData s).faultOp = s.faultOp := rfl
@[simp] theorem forgetData_faultReg (s : State) : (forgetData s).faultReg = s.faultReg := rfl
@[simp] theorem forgetData_width (s : State) : (forgetData s).width = s.width := rfl
@[simp] theorem forgetData_height (s : State) : (forgetData s).height = s.height := rfl
@[simp] theorem forgetData_low (s : State) : (forgetData s).low = s.low := rfl
@[simp] theorem forgetData_high (s : State) : (forgetData s).high = s.high := rfl
@[simp] theorem forgetData_addr (s : State) : (forgetData s).addr = s.addr := rfl
@[simp] theorem forgetData_data (s : State) : (forgetData s).data = Config.freeWord s.freeCount := rfl
@[simp] theorem forgetData_arg0 (s : State) : (forgetData s).arg0 = s.arg0 := rfl
@[simp] theorem forgetData_arg1 (s : State) : (forgetData s).arg1 = s.arg1 := rfl
@[simp] theorem forgetData_res (s : State) : (forgetData s).res = s.res := rfl
@[simp] theorem forgetData_pix (s : State) : (forgetData s).pix = s.pix := rfl
@[simp] theorem forgetData_sx (s : State) : (forgetData s).sx = s.sx := rfl
@[simp] theorem forgetData_sy (s : State) : (forgetData s).sy = s.sy := rfl
@[simp] theorem forgetData_sp (s : State) : (forgetData s).sp = s.sp := rfl
@[simp] theorem forgetData_phase (s : State) : (forgetData s).phase = s.phase := rfl
@[simp] theorem forgetData_cx (s : State) : (forgetData s).cx = s.cx := rfl
@[simp] theorem forgetData_cy (s : State) : (forgetData s).cy = s.cy := rfl
@[simp] theorem forgetData_k (s : State) : (forgetData s).k = s.k := rfl
@[simp] theorem forgetData_gx (s : State) : (forgetData s).gx = s.gx := rfl
@[simp] theorem forgetData_gy (s : State) : (forgetData s).gy = s.gy := rfl
@[simp] theorem forgetData_mag (s : State) : (forgetData s).mag = s.mag := rfl
@[simp] theorem forgetData_sup (s : State) : (forgetData s).sup = s.sup := rfl
@[simp] theorem forgetData_out (s : State) : (forgetData s).out = s.out := rfl
@[simp] theorem forgetData_visit (s : State) : (forgetData s).visit = s.visit := rfl
@[simp] theorem forgetData_stack (s : State) : (forgetData s).stack = s.stack := rfl
@[simp] theorem forgetData_inputs (s : State) : (forgetData s).inputs = s.inputs := rfl
@[simp] theorem forgetData_lastRead (s : State) : (forgetData s).lastRead = s.lastRead := rfl
@[simp] theorem forgetData_freeCount (s : State) : (forgetData s).freeCount = s.freeCount + 1 := rfl
@[simp] theorem forgetData_w (s : State) : (forgetData s).w = s.w := rfl
@[simp] theorem forgetData_h (s : State) : (forgetData s).h = s.h := rfl
@[simp] theorem forgetData_area (s : State) : (forgetData s).area = s.area := rfl
@[simp] theorem forgetData_interiorCount (s : State) : (forgetData s).interiorCount = s.interiorCount := rfl
@[simp] theorem forgetData_idx (s : State) (a b : Nat) : (forgetData s).idx a b = s.idx a b := rfl
@[simp] theorem forgetData_interior (s : State) (a b : Int) : (forgetData s).interior a b = s.interior a b := rfl

/-! ### `forgetAddr`: `ADDR` becomes unspecified (U7) -/

@[simp] theorem forgetAddr_opstate (s : State) : (forgetAddr s).opstate = s.opstate := rfl
@[simp] theorem forgetAddr_live (s : State) : (forgetAddr s).live = s.live := rfl
@[simp] theorem forgetAddr_valid (s : State) : (forgetAddr s).valid = s.valid := rfl
@[simp] theorem forgetAddr_exhausted (s : State) : (forgetAddr s).exhausted = s.exhausted := rfl
@[simp] theorem forgetAddr_faultCause (s : State) : (forgetAddr s).faultCause = s.faultCause := rfl
@[simp] theorem forgetAddr_faultOp (s : State) : (forgetAddr s).faultOp = s.faultOp := rfl
@[simp] theorem forgetAddr_faultReg (s : State) : (forgetAddr s).faultReg = s.faultReg := rfl
@[simp] theorem forgetAddr_width (s : State) : (forgetAddr s).width = s.width := rfl
@[simp] theorem forgetAddr_height (s : State) : (forgetAddr s).height = s.height := rfl
@[simp] theorem forgetAddr_low (s : State) : (forgetAddr s).low = s.low := rfl
@[simp] theorem forgetAddr_high (s : State) : (forgetAddr s).high = s.high := rfl
@[simp] theorem forgetAddr_addr (s : State) : (forgetAddr s).addr = Config.freeWord s.freeCount := rfl
@[simp] theorem forgetAddr_data (s : State) : (forgetAddr s).data = s.data := rfl
@[simp] theorem forgetAddr_arg0 (s : State) : (forgetAddr s).arg0 = s.arg0 := rfl
@[simp] theorem forgetAddr_arg1 (s : State) : (forgetAddr s).arg1 = s.arg1 := rfl
@[simp] theorem forgetAddr_res (s : State) : (forgetAddr s).res = s.res := rfl
@[simp] theorem forgetAddr_pix (s : State) : (forgetAddr s).pix = s.pix := rfl
@[simp] theorem forgetAddr_sx (s : State) : (forgetAddr s).sx = s.sx := rfl
@[simp] theorem forgetAddr_sy (s : State) : (forgetAddr s).sy = s.sy := rfl
@[simp] theorem forgetAddr_sp (s : State) : (forgetAddr s).sp = s.sp := rfl
@[simp] theorem forgetAddr_phase (s : State) : (forgetAddr s).phase = s.phase := rfl
@[simp] theorem forgetAddr_cx (s : State) : (forgetAddr s).cx = s.cx := rfl
@[simp] theorem forgetAddr_cy (s : State) : (forgetAddr s).cy = s.cy := rfl
@[simp] theorem forgetAddr_k (s : State) : (forgetAddr s).k = s.k := rfl
@[simp] theorem forgetAddr_gx (s : State) : (forgetAddr s).gx = s.gx := rfl
@[simp] theorem forgetAddr_gy (s : State) : (forgetAddr s).gy = s.gy := rfl
@[simp] theorem forgetAddr_mag (s : State) : (forgetAddr s).mag = s.mag := rfl
@[simp] theorem forgetAddr_sup (s : State) : (forgetAddr s).sup = s.sup := rfl
@[simp] theorem forgetAddr_out (s : State) : (forgetAddr s).out = s.out := rfl
@[simp] theorem forgetAddr_visit (s : State) : (forgetAddr s).visit = s.visit := rfl
@[simp] theorem forgetAddr_stack (s : State) : (forgetAddr s).stack = s.stack := rfl
@[simp] theorem forgetAddr_inputs (s : State) : (forgetAddr s).inputs = s.inputs := rfl
@[simp] theorem forgetAddr_lastRead (s : State) : (forgetAddr s).lastRead = s.lastRead := rfl
@[simp] theorem forgetAddr_freeCount (s : State) : (forgetAddr s).freeCount = s.freeCount + 1 := rfl
@[simp] theorem forgetAddr_w (s : State) : (forgetAddr s).w = s.w := rfl
@[simp] theorem forgetAddr_h (s : State) : (forgetAddr s).h = s.h := rfl
@[simp] theorem forgetAddr_area (s : State) : (forgetAddr s).area = s.area := rfl
@[simp] theorem forgetAddr_interiorCount (s : State) : (forgetAddr s).interiorCount = s.interiorCount := rfl
@[simp] theorem forgetAddr_idx (s : State) (a b : Nat) : (forgetAddr s).idx a b = s.idx a b := rfl
@[simp] theorem forgetAddr_interior (s : State) (a b : Int) : (forgetAddr s).interior a b = s.interior a b := rfl

/-! ### `faultedWith`: a recorded fault (R290) -/

@[simp] theorem faultedWith_opstate (c : Cause) (op n : Byte) (s : State) : (faultedWith c op n s).opstate = .faulted := rfl
@[simp] theorem faultedWith_live (c : Cause) (op n : Byte) (s : State) : (faultedWith c op n s).live = s.live := rfl
@[simp] theorem faultedWith_valid (c : Cause) (op n : Byte) (s : State) : (faultedWith c op n s).valid = s.valid := rfl
@[simp] theorem faultedWith_exhausted (c : Cause) (op n : Byte) (s : State) : (faultedWith c op n s).exhausted = s.exhausted := rfl
@[simp] theorem faultedWith_faultCause (c : Cause) (op n : Byte) (s : State) : (faultedWith c op n s).faultCause = c := rfl
@[simp] theorem faultedWith_faultOp (c : Cause) (op n : Byte) (s : State) : (faultedWith c op n s).faultOp = op := rfl
@[simp] theorem faultedWith_faultReg (c : Cause) (op n : Byte) (s : State) : (faultedWith c op n s).faultReg = n := rfl
@[simp] theorem faultedWith_width (c : Cause) (op n : Byte) (s : State) : (faultedWith c op n s).width = s.width := rfl
@[simp] theorem faultedWith_height (c : Cause) (op n : Byte) (s : State) : (faultedWith c op n s).height = s.height := rfl
@[simp] theorem faultedWith_low (c : Cause) (op n : Byte) (s : State) : (faultedWith c op n s).low = s.low := rfl
@[simp] theorem faultedWith_high (c : Cause) (op n : Byte) (s : State) : (faultedWith c op n s).high = s.high := rfl
@[simp] theorem faultedWith_addr (c : Cause) (op n : Byte) (s : State) : (faultedWith c op n s).addr = s.addr := rfl
@[simp] theorem faultedWith_data (c : Cause) (op n : Byte) (s : State) : (faultedWith c op n s).data = s.data := rfl
@[simp] theorem faultedWith_arg0 (c : Cause) (op n : Byte) (s : State) : (faultedWith c op n s).arg0 = s.arg0 := rfl
@[simp] theorem faultedWith_arg1 (c : Cause) (op n : Byte) (s : State) : (faultedWith c op n s).arg1 = s.arg1 := rfl
@[simp] theorem faultedWith_res (c : Cause) (op n : Byte) (s : State) : (faultedWith c op n s).res = s.res := rfl
@[simp] theorem faultedWith_pix (c : Cause) (op n : Byte) (s : State) : (faultedWith c op n s).pix = s.pix := rfl
@[simp] theorem faultedWith_sx (c : Cause) (op n : Byte) (s : State) : (faultedWith c op n s).sx = s.sx := rfl
@[simp] theorem faultedWith_sy (c : Cause) (op n : Byte) (s : State) : (faultedWith c op n s).sy = s.sy := rfl
@[simp] theorem faultedWith_sp (c : Cause) (op n : Byte) (s : State) : (faultedWith c op n s).sp = s.sp := rfl
@[simp] theorem faultedWith_phase (c : Cause) (op n : Byte) (s : State) : (faultedWith c op n s).phase = s.phase := rfl
@[simp] theorem faultedWith_cx (c : Cause) (op n : Byte) (s : State) : (faultedWith c op n s).cx = s.cx := rfl
@[simp] theorem faultedWith_cy (c : Cause) (op n : Byte) (s : State) : (faultedWith c op n s).cy = s.cy := rfl
@[simp] theorem faultedWith_k (c : Cause) (op n : Byte) (s : State) : (faultedWith c op n s).k = s.k := rfl
@[simp] theorem faultedWith_gx (c : Cause) (op n : Byte) (s : State) : (faultedWith c op n s).gx = s.gx := rfl
@[simp] theorem faultedWith_gy (c : Cause) (op n : Byte) (s : State) : (faultedWith c op n s).gy = s.gy := rfl
@[simp] theorem faultedWith_mag (c : Cause) (op n : Byte) (s : State) : (faultedWith c op n s).mag = s.mag := rfl
@[simp] theorem faultedWith_sup (c : Cause) (op n : Byte) (s : State) : (faultedWith c op n s).sup = s.sup := rfl
@[simp] theorem faultedWith_out (c : Cause) (op n : Byte) (s : State) : (faultedWith c op n s).out = s.out := rfl
@[simp] theorem faultedWith_visit (c : Cause) (op n : Byte) (s : State) : (faultedWith c op n s).visit = s.visit := rfl
@[simp] theorem faultedWith_stack (c : Cause) (op n : Byte) (s : State) : (faultedWith c op n s).stack = s.stack := rfl
@[simp] theorem faultedWith_inputs (c : Cause) (op n : Byte) (s : State) : (faultedWith c op n s).inputs = s.inputs := rfl
@[simp] theorem faultedWith_lastRead (c : Cause) (op n : Byte) (s : State) : (faultedWith c op n s).lastRead = s.lastRead := rfl
@[simp] theorem faultedWith_freeCount (c : Cause) (op n : Byte) (s : State) : (faultedWith c op n s).freeCount = s.freeCount := rfl
@[simp] theorem faultedWith_w (c : Cause) (op n : Byte) (s : State) : (faultedWith c op n s).w = s.w := rfl
@[simp] theorem faultedWith_h (c : Cause) (op n : Byte) (s : State) : (faultedWith c op n s).h = s.h := rfl
@[simp] theorem faultedWith_area (c : Cause) (op n : Byte) (s : State) : (faultedWith c op n s).area = s.area := rfl
@[simp] theorem faultedWith_interiorCount (c : Cause) (op n : Byte) (s : State) : (faultedWith c op n s).interiorCount = s.interiorCount := rfl
@[simp] theorem faultedWith_idx (c : Cause) (op n : Byte) (s : State) (a b : Nat) : (faultedWith c op n s).idx a b = s.idx a b := rfl
@[simp] theorem faultedWith_interior (c : Cause) (op n : Byte) (s : State) (a b : Int) : (faultedWith c op n s).interior a b = s.interior a b := rfl

/-! ### `resetRegisters`: the table of R320 -/

@[simp] theorem resetRegisters_opstate (s : State) : (resetRegisters s).opstate = .idle := rfl
@[simp] theorem resetRegisters_live (s : State) : (resetRegisters s).live = false := rfl
@[simp] theorem resetRegisters_valid (s : State) : (resetRegisters s).valid = false := rfl
@[simp] theorem resetRegisters_exhausted (s : State) : (resetRegisters s).exhausted = false := rfl
@[simp] theorem resetRegisters_faultCause (s : State) : (resetRegisters s).faultCause = .none := rfl
@[simp] theorem resetRegisters_faultOp (s : State) : (resetRegisters s).faultOp = 0#8 := rfl
@[simp] theorem resetRegisters_faultReg (s : State) : (resetRegisters s).faultReg = 0#8 := rfl
@[simp] theorem resetRegisters_width (s : State) : (resetRegisters s).width = 0#16 := rfl
@[simp] theorem resetRegisters_height (s : State) : (resetRegisters s).height = 0#16 := rfl
@[simp] theorem resetRegisters_low (s : State) : (resetRegisters s).low = 0#32 := rfl
@[simp] theorem resetRegisters_high (s : State) : (resetRegisters s).high = 0#32 := rfl
@[simp] theorem resetRegisters_addr (s : State) : (resetRegisters s).addr = 0#32 := rfl
@[simp] theorem resetRegisters_data (s : State) : (resetRegisters s).data = 0#32 := rfl
@[simp] theorem resetRegisters_arg0 (s : State) : (resetRegisters s).arg0 = 0#32 := rfl
@[simp] theorem resetRegisters_arg1 (s : State) : (resetRegisters s).arg1 = 0#32 := rfl
@[simp] theorem resetRegisters_res (s : State) : (resetRegisters s).res = 0#32 := rfl
@[simp] theorem resetRegisters_pix (s : State) : (resetRegisters s).pix = 0#32 := rfl
@[simp] theorem resetRegisters_sx (s : State) : (resetRegisters s).sx = 0#16 := rfl
@[simp] theorem resetRegisters_sy (s : State) : (resetRegisters s).sy = 0#16 := rfl
@[simp] theorem resetRegisters_sp (s : State) : (resetRegisters s).sp = 0#32 := rfl
@[simp] theorem resetRegisters_phase (s : State) : (resetRegisters s).phase = .off := rfl
@[simp] theorem resetRegisters_cx (s : State) : (resetRegisters s).cx = 0#16 := rfl
@[simp] theorem resetRegisters_cy (s : State) : (resetRegisters s).cy = 0#16 := rfl
@[simp] theorem resetRegisters_k (s : State) : (resetRegisters s).k = 0 := rfl
@[simp] theorem resetRegisters_gx (s : State) : (resetRegisters s).gx = s.gx := rfl
@[simp] theorem resetRegisters_gy (s : State) : (resetRegisters s).gy = s.gy := rfl
@[simp] theorem resetRegisters_mag (s : State) : (resetRegisters s).mag = s.mag := rfl
@[simp] theorem resetRegisters_sup (s : State) : (resetRegisters s).sup = s.sup := rfl
@[simp] theorem resetRegisters_out (s : State) : (resetRegisters s).out = s.out := rfl
@[simp] theorem resetRegisters_visit (s : State) : (resetRegisters s).visit = s.visit := rfl
@[simp] theorem resetRegisters_stack (s : State) : (resetRegisters s).stack = s.stack := rfl
@[simp] theorem resetRegisters_inputs (s : State) : (resetRegisters s).inputs = s.inputs := rfl
@[simp] theorem resetRegisters_lastRead (s : State) : (resetRegisters s).lastRead = s.lastRead := rfl
@[simp] theorem resetRegisters_freeCount (s : State) : (resetRegisters s).freeCount = s.freeCount := rfl

/-! ### Updates that depend on the state: the cursor (R41), the neighbour index (R206), the address (R252) -/

/-- What `advanceCursor` can change. -/
theorem advanceCursor_eq (s : State) : advanceCursor s = { s with sx := (advanceCursor s).sx, sy := (advanceCursor s).sy } := by unfold advanceCursor; split <;> rfl

@[simp] theorem advanceCursor_opstate (s : State) : (advanceCursor s).opstate = s.opstate := (congrArg State.opstate (advanceCursor_eq s) :)
@[simp] theorem advanceCursor_live (s : State) : (advanceCursor s).live = s.live := (congrArg State.live (advanceCursor_eq s) :)
@[simp] theorem advanceCursor_valid (s : State) : (advanceCursor s).valid = s.valid := (congrArg State.valid (advanceCursor_eq s) :)
@[simp] theorem advanceCursor_exhausted (s : State) : (advanceCursor s).exhausted = s.exhausted := (congrArg State.exhausted (advanceCursor_eq s) :)
@[simp] theorem advanceCursor_faultCause (s : State) : (advanceCursor s).faultCause = s.faultCause := (congrArg State.faultCause (advanceCursor_eq s) :)
@[simp] theorem advanceCursor_faultOp (s : State) : (advanceCursor s).faultOp = s.faultOp := (congrArg State.faultOp (advanceCursor_eq s) :)
@[simp] theorem advanceCursor_faultReg (s : State) : (advanceCursor s).faultReg = s.faultReg := (congrArg State.faultReg (advanceCursor_eq s) :)
@[simp] theorem advanceCursor_width (s : State) : (advanceCursor s).width = s.width := (congrArg State.width (advanceCursor_eq s) :)
@[simp] theorem advanceCursor_height (s : State) : (advanceCursor s).height = s.height := (congrArg State.height (advanceCursor_eq s) :)
@[simp] theorem advanceCursor_low (s : State) : (advanceCursor s).low = s.low := (congrArg State.low (advanceCursor_eq s) :)
@[simp] theorem advanceCursor_high (s : State) : (advanceCursor s).high = s.high := (congrArg State.high (advanceCursor_eq s) :)
@[simp] theorem advanceCursor_addr (s : State) : (advanceCursor s).addr = s.addr := (congrArg State.addr (advanceCursor_eq s) :)
@[simp] theorem advanceCursor_data (s : State) : (advanceCursor s).data = s.data := (congrArg State.data (advanceCursor_eq s) :)
@[simp] theorem advanceCursor_arg0 (s : State) : (advanceCursor s).arg0 = s.arg0 := (congrArg State.arg0 (advanceCursor_eq s) :)
@[simp] theorem advanceCursor_arg1 (s : State) : (advanceCursor s).arg1 = s.arg1 := (congrArg State.arg1 (advanceCursor_eq s) :)
@[simp] theorem advanceCursor_res (s : State) : (advanceCursor s).res = s.res := (congrArg State.res (advanceCursor_eq s) :)
@[simp] theorem advanceCursor_pix (s : State) : (advanceCursor s).pix = s.pix := (congrArg State.pix (advanceCursor_eq s) :)
@[simp] theorem advanceCursor_sp (s : State) : (advanceCursor s).sp = s.sp := (congrArg State.sp (advanceCursor_eq s) :)
@[simp] theorem advanceCursor_phase (s : State) : (advanceCursor s).phase = s.phase := (congrArg State.phase (advanceCursor_eq s) :)
@[simp] theorem advanceCursor_cx (s : State) : (advanceCursor s).cx = s.cx := (congrArg State.cx (advanceCursor_eq s) :)
@[simp] theorem advanceCursor_cy (s : State) : (advanceCursor s).cy = s.cy := (congrArg State.cy (advanceCursor_eq s) :)
@[simp] theorem advanceCursor_k (s : State) : (advanceCursor s).k = s.k := (congrArg State.k (advanceCursor_eq s) :)
@[simp] theorem advanceCursor_gx (s : State) : (advanceCursor s).gx = s.gx := (congrArg State.gx (advanceCursor_eq s) :)
@[simp] theorem advanceCursor_gy (s : State) : (advanceCursor s).gy = s.gy := (congrArg State.gy (advanceCursor_eq s) :)
@[simp] theorem advanceCursor_mag (s : State) : (advanceCursor s).mag = s.mag := (congrArg State.mag (advanceCursor_eq s) :)
@[simp] theorem advanceCursor_sup (s : State) : (advanceCursor s).sup = s.sup := (congrArg State.sup (advanceCursor_eq s) :)
@[simp] theorem advanceCursor_out (s : State) : (advanceCursor s).out = s.out := (congrArg State.out (advanceCursor_eq s) :)
@[simp] theorem advanceCursor_visit (s : State) : (advanceCursor s).visit = s.visit := (congrArg State.visit (advanceCursor_eq s) :)
@[simp] theorem advanceCursor_stack (s : State) : (advanceCursor s).stack = s.stack := (congrArg State.stack (advanceCursor_eq s) :)
@[simp] theorem advanceCursor_inputs (s : State) : (advanceCursor s).inputs = s.inputs := (congrArg State.inputs (advanceCursor_eq s) :)
@[simp] theorem advanceCursor_lastRead (s : State) : (advanceCursor s).lastRead = s.lastRead := (congrArg State.lastRead (advanceCursor_eq s) :)
@[simp] theorem advanceCursor_freeCount (s : State) : (advanceCursor s).freeCount = s.freeCount := (congrArg State.freeCount (advanceCursor_eq s) :)
@[simp] theorem advanceCursor_w (s : State) : (advanceCursor s).w = s.w := (congrArg State.w (advanceCursor_eq s) :)
@[simp] theorem advanceCursor_h (s : State) : (advanceCursor s).h = s.h := (congrArg State.h (advanceCursor_eq s) :)
@[simp] theorem advanceCursor_area (s : State) : (advanceCursor s).area = s.area := (congrArg State.area (advanceCursor_eq s) :)
@[simp] theorem advanceCursor_interiorCount (s : State) : (advanceCursor s).interiorCount = s.interiorCount := (congrArg State.interiorCount (advanceCursor_eq s) :)
@[simp] theorem advanceCursor_idx (s : State) (a b : Nat) : (advanceCursor s).idx a b = s.idx a b := (congrArg (fun t => State.idx t a b) (advanceCursor_eq s) :)
@[simp] theorem advanceCursor_interior (s : State) (a b : Int) : (advanceCursor s).interior a b = s.interior a b :=
  (congrArg (fun t => State.interior t a b) (advanceCursor_eq s) :)

/-- What `nextNeighbour` can change. -/
theorem nextNeighbour_eq (s : State) : nextNeighbour s = { s with k := (nextNeighbour s).k, phase := (nextNeighbour s).phase } := by unfold nextNeighbour; split <;> rfl

@[simp] theorem nextNeighbour_opstate (s : State) : (nextNeighbour s).opstate = s.opstate := (congrArg State.opstate (nextNeighbour_eq s) :)
@[simp] theorem nextNeighbour_live (s : State) : (nextNeighbour s).live = s.live := (congrArg State.live (nextNeighbour_eq s) :)
@[simp] theorem nextNeighbour_valid (s : State) : (nextNeighbour s).valid = s.valid := (congrArg State.valid (nextNeighbour_eq s) :)
@[simp] theorem nextNeighbour_exhausted (s : State) : (nextNeighbour s).exhausted = s.exhausted := (congrArg State.exhausted (nextNeighbour_eq s) :)
@[simp] theorem nextNeighbour_faultCause (s : State) : (nextNeighbour s).faultCause = s.faultCause := (congrArg State.faultCause (nextNeighbour_eq s) :)
@[simp] theorem nextNeighbour_faultOp (s : State) : (nextNeighbour s).faultOp = s.faultOp := (congrArg State.faultOp (nextNeighbour_eq s) :)
@[simp] theorem nextNeighbour_faultReg (s : State) : (nextNeighbour s).faultReg = s.faultReg := (congrArg State.faultReg (nextNeighbour_eq s) :)
@[simp] theorem nextNeighbour_width (s : State) : (nextNeighbour s).width = s.width := (congrArg State.width (nextNeighbour_eq s) :)
@[simp] theorem nextNeighbour_height (s : State) : (nextNeighbour s).height = s.height := (congrArg State.height (nextNeighbour_eq s) :)
@[simp] theorem nextNeighbour_low (s : State) : (nextNeighbour s).low = s.low := (congrArg State.low (nextNeighbour_eq s) :)
@[simp] theorem nextNeighbour_high (s : State) : (nextNeighbour s).high = s.high := (congrArg State.high (nextNeighbour_eq s) :)
@[simp] theorem nextNeighbour_addr (s : State) : (nextNeighbour s).addr = s.addr := (congrArg State.addr (nextNeighbour_eq s) :)
@[simp] theorem nextNeighbour_data (s : State) : (nextNeighbour s).data = s.data := (congrArg State.data (nextNeighbour_eq s) :)
@[simp] theorem nextNeighbour_arg0 (s : State) : (nextNeighbour s).arg0 = s.arg0 := (congrArg State.arg0 (nextNeighbour_eq s) :)
@[simp] theorem nextNeighbour_arg1 (s : State) : (nextNeighbour s).arg1 = s.arg1 := (congrArg State.arg1 (nextNeighbour_eq s) :)
@[simp] theorem nextNeighbour_res (s : State) : (nextNeighbour s).res = s.res := (congrArg State.res (nextNeighbour_eq s) :)
@[simp] theorem nextNeighbour_pix (s : State) : (nextNeighbour s).pix = s.pix := (congrArg State.pix (nextNeighbour_eq s) :)
@[simp] theorem nextNeighbour_sx (s : State) : (nextNeighbour s).sx = s.sx := (congrArg State.sx (nextNeighbour_eq s) :)
@[simp] theorem nextNeighbour_sy (s : State) : (nextNeighbour s).sy = s.sy := (congrArg State.sy (nextNeighbour_eq s) :)
@[simp] theorem nextNeighbour_sp (s : State) : (nextNeighbour s).sp = s.sp := (congrArg State.sp (nextNeighbour_eq s) :)
@[simp] theorem nextNeighbour_cx (s : State) : (nextNeighbour s).cx = s.cx := (congrArg State.cx (nextNeighbour_eq s) :)
@[simp] theorem nextNeighbour_cy (s : State) : (nextNeighbour s).cy = s.cy := (congrArg State.cy (nextNeighbour_eq s) :)
@[simp] theorem nextNeighbour_gx (s : State) : (nextNeighbour s).gx = s.gx := (congrArg State.gx (nextNeighbour_eq s) :)
@[simp] theorem nextNeighbour_gy (s : State) : (nextNeighbour s).gy = s.gy := (congrArg State.gy (nextNeighbour_eq s) :)
@[simp] theorem nextNeighbour_mag (s : State) : (nextNeighbour s).mag = s.mag := (congrArg State.mag (nextNeighbour_eq s) :)
@[simp] theorem nextNeighbour_sup (s : State) : (nextNeighbour s).sup = s.sup := (congrArg State.sup (nextNeighbour_eq s) :)
@[simp] theorem nextNeighbour_out (s : State) : (nextNeighbour s).out = s.out := (congrArg State.out (nextNeighbour_eq s) :)
@[simp] theorem nextNeighbour_visit (s : State) : (nextNeighbour s).visit = s.visit := (congrArg State.visit (nextNeighbour_eq s) :)
@[simp] theorem nextNeighbour_stack (s : State) : (nextNeighbour s).stack = s.stack := (congrArg State.stack (nextNeighbour_eq s) :)
@[simp] theorem nextNeighbour_inputs (s : State) : (nextNeighbour s).inputs = s.inputs := (congrArg State.inputs (nextNeighbour_eq s) :)
@[simp] theorem nextNeighbour_lastRead (s : State) : (nextNeighbour s).lastRead = s.lastRead := (congrArg State.lastRead (nextNeighbour_eq s) :)
@[simp] theorem nextNeighbour_freeCount (s : State) : (nextNeighbour s).freeCount = s.freeCount := (congrArg State.freeCount (nextNeighbour_eq s) :)
@[simp] theorem nextNeighbour_w (s : State) : (nextNeighbour s).w = s.w := (congrArg State.w (nextNeighbour_eq s) :)
@[simp] theorem nextNeighbour_h (s : State) : (nextNeighbour s).h = s.h := (congrArg State.h (nextNeighbour_eq s) :)
@[simp] theorem nextNeighbour_area (s : State) : (nextNeighbour s).area = s.area := (congrArg State.area (nextNeighbour_eq s) :)
@[simp] theorem nextNeighbour_interiorCount (s : State) : (nextNeighbour s).interiorCount = s.interiorCount := (congrArg State.interiorCount (nextNeighbour_eq s) :)
@[simp] theorem nextNeighbour_idx (s : State) (a b : Nat) : (nextNeighbour s).idx a b = s.idx a b := (congrArg (fun t => State.idx t a b) (nextNeighbour_eq s) :)
@[simp] theorem nextNeighbour_interior (s : State) (a b : Int) : (nextNeighbour s).interior a b = s.interior a b :=
  (congrArg (fun t => State.interior t a b) (nextNeighbour_eq s) :)

/-- What `postIncrement` can change. -/
theorem postIncrement_eq (inc : Bool) (s : State) : postIncrement inc s = { s with addr := (postIncrement inc s).addr } := by unfold postIncrement; split <;> rfl

@[simp] theorem postIncrement_opstate (inc : Bool) (s : State) : (postIncrement inc s).opstate = s.opstate := (congrArg State.opstate (postIncrement_eq inc s) :)
@[simp] theorem postIncrement_live (inc : Bool) (s : State) : (postIncrement inc s).live = s.live := (congrArg State.live (postIncrement_eq inc s) :)
@[simp] theorem postIncrement_valid (inc : Bool) (s : State) : (postIncrement inc s).valid = s.valid := (congrArg State.valid (postIncrement_eq inc s) :)
@[simp] theorem postIncrement_exhausted (inc : Bool) (s : State) : (postIncrement inc s).exhausted = s.exhausted := (congrArg State.exhausted (postIncrement_eq inc s) :)
@[simp] theorem postIncrement_faultCause (inc : Bool) (s : State) : (postIncrement inc s).faultCause = s.faultCause := (congrArg State.faultCause (postIncrement_eq inc s) :)
@[simp] theorem postIncrement_faultOp (inc : Bool) (s : State) : (postIncrement inc s).faultOp = s.faultOp := (congrArg State.faultOp (postIncrement_eq inc s) :)
@[simp] theorem postIncrement_faultReg (inc : Bool) (s : State) : (postIncrement inc s).faultReg = s.faultReg := (congrArg State.faultReg (postIncrement_eq inc s) :)
@[simp] theorem postIncrement_width (inc : Bool) (s : State) : (postIncrement inc s).width = s.width := (congrArg State.width (postIncrement_eq inc s) :)
@[simp] theorem postIncrement_height (inc : Bool) (s : State) : (postIncrement inc s).height = s.height := (congrArg State.height (postIncrement_eq inc s) :)
@[simp] theorem postIncrement_low (inc : Bool) (s : State) : (postIncrement inc s).low = s.low := (congrArg State.low (postIncrement_eq inc s) :)
@[simp] theorem postIncrement_high (inc : Bool) (s : State) : (postIncrement inc s).high = s.high := (congrArg State.high (postIncrement_eq inc s) :)
@[simp] theorem postIncrement_data (inc : Bool) (s : State) : (postIncrement inc s).data = s.data := (congrArg State.data (postIncrement_eq inc s) :)
@[simp] theorem postIncrement_arg0 (inc : Bool) (s : State) : (postIncrement inc s).arg0 = s.arg0 := (congrArg State.arg0 (postIncrement_eq inc s) :)
@[simp] theorem postIncrement_arg1 (inc : Bool) (s : State) : (postIncrement inc s).arg1 = s.arg1 := (congrArg State.arg1 (postIncrement_eq inc s) :)
@[simp] theorem postIncrement_res (inc : Bool) (s : State) : (postIncrement inc s).res = s.res := (congrArg State.res (postIncrement_eq inc s) :)
@[simp] theorem postIncrement_pix (inc : Bool) (s : State) : (postIncrement inc s).pix = s.pix := (congrArg State.pix (postIncrement_eq inc s) :)
@[simp] theorem postIncrement_sx (inc : Bool) (s : State) : (postIncrement inc s).sx = s.sx := (congrArg State.sx (postIncrement_eq inc s) :)
@[simp] theorem postIncrement_sy (inc : Bool) (s : State) : (postIncrement inc s).sy = s.sy := (congrArg State.sy (postIncrement_eq inc s) :)
@[simp] theorem postIncrement_sp (inc : Bool) (s : State) : (postIncrement inc s).sp = s.sp := (congrArg State.sp (postIncrement_eq inc s) :)
@[simp] theorem postIncrement_phase (inc : Bool) (s : State) : (postIncrement inc s).phase = s.phase := (congrArg State.phase (postIncrement_eq inc s) :)
@[simp] theorem postIncrement_cx (inc : Bool) (s : State) : (postIncrement inc s).cx = s.cx := (congrArg State.cx (postIncrement_eq inc s) :)
@[simp] theorem postIncrement_cy (inc : Bool) (s : State) : (postIncrement inc s).cy = s.cy := (congrArg State.cy (postIncrement_eq inc s) :)
@[simp] theorem postIncrement_k (inc : Bool) (s : State) : (postIncrement inc s).k = s.k := (congrArg State.k (postIncrement_eq inc s) :)
@[simp] theorem postIncrement_gx (inc : Bool) (s : State) : (postIncrement inc s).gx = s.gx := (congrArg State.gx (postIncrement_eq inc s) :)
@[simp] theorem postIncrement_gy (inc : Bool) (s : State) : (postIncrement inc s).gy = s.gy := (congrArg State.gy (postIncrement_eq inc s) :)
@[simp] theorem postIncrement_mag (inc : Bool) (s : State) : (postIncrement inc s).mag = s.mag := (congrArg State.mag (postIncrement_eq inc s) :)
@[simp] theorem postIncrement_sup (inc : Bool) (s : State) : (postIncrement inc s).sup = s.sup := (congrArg State.sup (postIncrement_eq inc s) :)
@[simp] theorem postIncrement_out (inc : Bool) (s : State) : (postIncrement inc s).out = s.out := (congrArg State.out (postIncrement_eq inc s) :)
@[simp] theorem postIncrement_visit (inc : Bool) (s : State) : (postIncrement inc s).visit = s.visit := (congrArg State.visit (postIncrement_eq inc s) :)
@[simp] theorem postIncrement_stack (inc : Bool) (s : State) : (postIncrement inc s).stack = s.stack := (congrArg State.stack (postIncrement_eq inc s) :)
@[simp] theorem postIncrement_inputs (inc : Bool) (s : State) : (postIncrement inc s).inputs = s.inputs := (congrArg State.inputs (postIncrement_eq inc s) :)
@[simp] theorem postIncrement_lastRead (inc : Bool) (s : State) : (postIncrement inc s).lastRead = s.lastRead := (congrArg State.lastRead (postIncrement_eq inc s) :)
@[simp] theorem postIncrement_freeCount (inc : Bool) (s : State) : (postIncrement inc s).freeCount = s.freeCount := (congrArg State.freeCount (postIncrement_eq inc s) :)
@[simp] theorem postIncrement_w (inc : Bool) (s : State) : (postIncrement inc s).w = s.w := (congrArg State.w (postIncrement_eq inc s) :)
@[simp] theorem postIncrement_h (inc : Bool) (s : State) : (postIncrement inc s).h = s.h := (congrArg State.h (postIncrement_eq inc s) :)
@[simp] theorem postIncrement_area (inc : Bool) (s : State) : (postIncrement inc s).area = s.area := (congrArg State.area (postIncrement_eq inc s) :)
@[simp] theorem postIncrement_interiorCount (inc : Bool) (s : State) : (postIncrement inc s).interiorCount = s.interiorCount := (congrArg State.interiorCount (postIncrement_eq inc s) :)
@[simp] theorem postIncrement_idx (inc : Bool) (s : State) (a b : Nat) : (postIncrement inc s).idx a b = s.idx a b := (congrArg (fun t => State.idx t a b) (postIncrement_eq inc s) :)
@[simp] theorem postIncrement_interior (inc : Bool) (s : State) (a b : Int) : (postIncrement inc s).interior a b = s.interior a b :=
  (congrArg (fun t => State.interior t a b) (postIncrement_eq inc s) :)

end Sys2Proof.Machine
end

