-- ==== Sys2Proof/Laws/Ops.lean ====
section
/-! SUPPORT. One lemma for each shared operation that says all it can do: fault entry, the issue of a command, the loss of contents,
the work stack, the host's sample store. Later proofs cite these instead of unfolding the operation. -/

namespace Sys2Proof.Machine

/-! ### Fault entry (60_exceptions.md R290, R292) -/

theorem raiseFault_idle {s : State} (h : s.opstate = .idle) (c : Cause) (op n : Byte) :
    raiseFault c op n s = faultedWith c op n s := by
  simp [raiseFault, h, faultedWith]

theorem raiseFault_busy {s : State} {i : Instr} (h : s.opstate = .busy i) (c : Cause) (op n : Byte) :
    raiseFault c op n s = faultedWith c op n s := by
  simp [raiseFault, h, faultedWith]

theorem raiseFault_faulted {s : State} (h : s.opstate = .faulted) (c : Cause) (op n : Byte) :
    raiseFault c op n s = s := by
  simp [raiseFault, h]

/-- All that fault entry can do: the first fault is recorded, and a later one is not. -/
theorem raiseFault_cases (c : Cause) (op n : Byte) (s : State) :
    (s.opstate ≠ .faulted ∧ raiseFault c op n s = faultedWith c op n s) ∨
      (s.opstate = .faulted ∧ raiseFault c op n s = s) := by
  cases h : s.opstate with
  | idle => exact .inl ⟨by simp, raiseFault_idle h c op n⟩
  | busy i => exact .inl ⟨by simp, raiseFault_busy h c op n⟩
  | faulted => exact .inr ⟨rfl, raiseFault_faulted h c op n⟩

@[simp] theorem raiseFault_opstate (c : Cause) (op n : Byte) (s : State) : (raiseFault c op n s).opstate = .faulted := by
  rcases raiseFault_cases c op n s with ⟨_, h⟩ | ⟨hf, h⟩ <;> simp [*]

/-! ### The issue of a command (30_encoding.md R104) -/

variable {i : Instr} {check : State → Option Cause} {body : State → Result} {s : State}

theorem issue_idle_ok (h : s.opstate = .idle) (hc : check s = none) : issue i check body s = body s := by
  simp [issue, h, hc]

theorem issue_idle_fault {c : Cause} (h : s.opstate = .idle) (hc : check s = some c) :
    issue i check body s = .next (faultedWith c (opcodeOf i) 0#8 s) := by
  simp [issue, h, hc, raiseFault_idle h]

theorem issue_busy {j : Instr} (h : s.opstate = .busy j) :
    issue i check body s = .next (busyViolation j 0x01#8 s) := by
  simp [issue, h]

theorem issue_faulted (h : s.opstate = .faulted) : issue i check body s = .next s := by
  simp [issue, h]

/-- All that the issue of a command can do. -/
theorem issue_cases (i : Instr) (check : State → Option Cause) (body : State → Result) (s : State) :
    (s.opstate = .idle ∧ check s = none ∧ issue i check body s = body s) ∨
    (s.opstate = .idle ∧ ∃ c, check s = some c ∧ issue i check body s = .next (faultedWith c (opcodeOf i) 0#8 s)) ∨
    (∃ j, s.opstate = .busy j ∧ issue i check body s = .next (busyViolation j 0x01#8 s)) ∨
    (s.opstate = .faulted ∧ issue i check body s = .next s) := by
  cases h : s.opstate with
  | idle =>
    cases hc : check s with
    | none => exact .inl ⟨rfl, rfl, issue_idle_ok h hc⟩
    | some c => exact .inr (.inl ⟨rfl, c, rfl, issue_idle_fault h hc⟩)
  | busy j => exact .inr (.inr (.inl ⟨j, rfl, issue_busy h⟩))
  | faulted => exact .inr (.inr (.inr ⟨rfl, issue_faulted h⟩))

@[simp] theorem noCheck_eq (s : State) : noCheck s = none := rfl

/-! ### Unspecified contents (60_exceptions.md R284, R321, R322) -/

/-- Losing one space's contents leaves the others. -/
theorem forgetSpace_same {sp sp' : Space} (h : sp' ≠ sp) (s : State) : sameSpace sp' s (forgetSpace sp s) := by
  cases sp <;> cases sp' <;> first | rfl | exact absurd rfl h

/-- What the loss of one space's contents can change. -/
theorem forgetSpace_eq (sp : Space) (s : State) : forgetSpace sp s =
    { s with
      gx := (forgetSpace sp s).gx, gy := (forgetSpace sp s).gy, mag := (forgetSpace sp s).mag, sup := (forgetSpace sp s).sup,
      out := (forgetSpace sp s).out, visit := (forgetSpace sp s).visit, stack := (forgetSpace sp s).stack,
      freeCount := s.freeCount + 1 } := by
  cases sp <;> rfl

theorem forgetSpace_memCanonical (sp : Space) (s : State) (h : s.memCanonical = true) :
    (forgetSpace sp s).memCanonical = true := by
  cases sp <;> simp_all [forgetSpace, State.memCanonical]

theorem forgetSpace_memSized (sp : Space) (s : State) (h : s.memSized = true) : (forgetSpace sp s).memSized = true := by
  cases sp <;> simp_all [forgetSpace, State.memSized]

/-- What the loss of an abandoned command's spaces can change. -/
theorem abandonSpaces_eq (i : Instr) (s : State) : abandonSpaces i s =
    { s with
      gx := (abandonSpaces i s).gx, gy := (abandonSpaces i s).gy, mag := (abandonSpaces i s).mag,
      sup := (abandonSpaces i s).sup, out := (abandonSpaces i s).out, visit := (abandonSpaces i s).visit,
      stack := (abandonSpaces i s).stack, freeCount := (abandonSpaces i s).freeCount } := by
  cases i with
  | sts sp inc => cases sp <;> rfl
  | _ => rfl

/-- A space the abandoned command was not writing keeps its contents. -/
theorem abandonSpaces_same {i : Instr} {sp : Space} (h : writesSpace i sp = false) (s : State) :
    sameSpace sp s (abandonSpaces i s) := by
  cases i with
  | sts sp' inc => exact forgetSpace_same (by simpa [writesSpace] using h) s
  | _ => cases sp <;> first | rfl | simp [writesSpace] at h

theorem abandonSpaces_memCanonical (i : Instr) (s : State) (h : s.memCanonical = true) :
    (abandonSpaces i s).memCanonical = true := by
  cases i <;> simp only [abandonSpaces] <;> first | exact h | (repeat first | exact h | apply forgetSpace_memCanonical)

theorem abandonSpaces_memSized (i : Instr) (s : State) (h : s.memSized = true) :
    (abandonSpaces i s).memSized = true := by
  cases i <;> simp only [abandonSpaces] <;> first | exact h | (repeat first | exact h | apply forgetSpace_memSized)

/-- What the loss of an abandoned command's registers can change (log 6). -/
theorem abandonRegisters_eq (i : Instr) (s : State) : abandonRegisters i s =
    { s with
      sp := (abandonRegisters i s).sp, sx := (abandonRegisters i s).sx, sy := (abandonRegisters i s).sy,
      phase := (abandonRegisters i s).phase, cx := (abandonRegisters i s).cx, cy := (abandonRegisters i s).cy,
      k := (abandonRegisters i s).k, pix := (abandonRegisters i s).pix, res := (abandonRegisters i s).res,
      data := (abandonRegisters i s).data, addr := (abandonRegisters i s).addr,
      freeCount := (abandonRegisters i s).freeCount } := by
  cases i with
  | lds sp inc => cases inc <;> rfl
  | sts sp inc => cases inc <;> rfl
  | _ => rfl

/-- What an abandoned command can change: never the operating state, the flags, `FAULT`, the dimensions, the thresholds or the
query operands. -/
theorem abandon_eq (i : Instr) (s : State) : abandon i s =
    { s with
      gx := (abandon i s).gx, gy := (abandon i s).gy, mag := (abandon i s).mag, sup := (abandon i s).sup,
      out := (abandon i s).out, visit := (abandon i s).visit, stack := (abandon i s).stack, sp := (abandon i s).sp,
      sx := (abandon i s).sx, sy := (abandon i s).sy, phase := (abandon i s).phase, cx := (abandon i s).cx,
      cy := (abandon i s).cy, k := (abandon i s).k, pix := (abandon i s).pix, res := (abandon i s).res,
      data := (abandon i s).data, addr := (abandon i s).addr, freeCount := (abandon i s).freeCount } := by
  unfold abandon
  rw [abandonRegisters_eq, abandonSpaces_eq]

/-- A space the abandoned command was not writing keeps its contents. -/
theorem abandon_same {i : Instr} {sp : Space} (h : writesSpace i sp = false) (s : State) : sameSpace sp s (abandon i s) := by
  have hs := abandonSpaces_same h s
  unfold abandon
  rw [abandonRegisters_eq]
  cases sp <;> exact hs

theorem abandon_memCanonical (i : Instr) (s : State) (h : s.memCanonical = true) : (abandon i s).memCanonical = true := by
  have hs := abandonSpaces_memCanonical i s h
  unfold abandon
  rw [abandonRegisters_eq]
  exact hs

theorem abandon_memSized (i : Instr) (s : State) (h : s.memSized = true) : (abandon i s).memSized = true := by
  have hs := abandonSpaces_memSized i s h
  unfold abandon
  rw [abandonRegisters_eq]
  exact hs

/-- A busy violation records `BUSY_VIOLATION` with the running opcode, over the abandoned command (R284). -/
theorem busyViolation_eq {j : Instr} {s : State} (h : s.opstate = .busy j) (n : Byte) :
    busyViolation j n s = faultedWith .busyViolation (opcodeOf j) n (abandon j s) := by
  refine raiseFault_busy (i := j) ?_ _ _ _
  rw [abandon_eq]
  exact h

/-! ### The work stack (10_state.md R52) -/

theorem push_full {depth : Nat} {s : State} (h : depth ≤ s.sp.toNat) (x y : Half) : push depth x y s = none := by
  simp [push, h]

theorem push_room {depth : Nat} {s : State} (h : s.sp.toNat < depth) (x y : Half) : push depth x y s =
    some { s with stack := s.stack.write s.sp.toNat (coordWord x y), sp := s.sp + 1#32 } := by
  simp [push, Nat.not_le.mpr h]

theorem push_eq_some {depth : Nat} {x y : Half} {s t : State} (h : push depth x y s = some t) : s.sp.toNat < depth ∧
    t = { s with stack := s.stack.write s.sp.toNat (coordWord x y), sp := s.sp + 1#32 } := by
  unfold push at h
  split at h
  · cases h
  · next hd => exact ⟨Nat.lt_of_not_le hd, (Option.some.inj h).symm⟩

theorem pop_empty {s : State} (h : s.sp = 0#32) : pop s = none := by
  simp [pop, h]

theorem pop_some {s : State} (h : s.sp ≠ 0#32) : pop s =
    some (coordX (s.stack.read (s.sp - 1#32).toNat), coordY (s.stack.read (s.sp - 1#32).toNat), { s with sp := s.sp - 1#32 }) := by
  simp [pop, h]

theorem append_low (a b : BitVec 16) : (a ++ b).extractLsb' 0 16 = b := by
  ext j hj
  rw [BitVec.getElem_extractLsb', BitVec.getLsbD_append]
  simp [hj]

theorem append_high (a b : BitVec 16) : (a ++ b).extractLsb' 16 16 = a := by
  ext j hj
  rw [BitVec.getElem_extractLsb', BitVec.getLsbD_append]
  simp [hj]

@[simp] theorem coordX_coordWord (x y : Half) : coordX (coordWord x y) = x := append_low y x

@[simp] theorem coordY_coordWord (x y : Half) : coordY (coordWord x y) = y := append_high y x

/-! ### Samples stored by the host (20_memory.md R81, R82) -/

/-- A sample in range is below the size of its space. -/
theorem inRange_lt {sp : Space} {n : Nat} {s : State} (hsp : sp ≠ .stack) (h : inRange sp n s = true) : n < Config.cap := by
  cases sp <;> simp [inRange] at h hsp <;> omega

/-- A host store keeps every memory's canonical form. -/
theorem memWrite_memCanonical (sp : Space) (n : Nat) (v : Word) (s : State) (h : s.memCanonical = true) :
    (memWrite sp n v s).memCanonical = true := by
  simp only [State.memCanonical, Bool.and_eq_true] at h ⊢
  cases sp <;> simp_all [memWrite, Mem.wf_write]

/-- A host store in range keeps every memory within its size. -/
theorem memWrite_memSized {sp : Space} {n : Nat} {v : Word} {s : State} (hn : n < Config.cap) (h : s.memSized = true) :
    (memWrite sp n v s).memSized = true := by
  simp only [State.memSized, Bool.and_eq_true] at h ⊢
  cases sp <;> simp_all [memWrite, Mem.within_write]

/-! ### Reset -/

/-- The state after reset has canonical memories (log 12). -/
theorem reset_memCanonical : State.reset.memCanonical = true := rfl

theorem reset_memSized : State.reset.memSized = true := rfl

end Sys2Proof.Machine
end

