-- ==== Sys2Proof/Laws/PerInstr.lean ====
section
/-! SUPPORT. A statement for every command, one lemma for each constructor: the opcode field of its word is the opcode that fault
entry records for it (30_encoding.md R101, R105; 10_state.md R30). -/

namespace Sys2Proof.Laws.OpcodeField

/-- `cmd[31:24]` of a command's word is its opcode. -/
def Statement (i : Instr) : Prop := opField (encode i) = opcodeOf i

theorem nop : Statement .nop := rfl

theorem hypot : Statement .hypot := rfl

theorem nms : Statement .nms := rfl

theorem trace : Statement .trace := rfl

theorem lstart : Statement .lstart := rfl

theorem lnext : Statement .lnext := rfl

theorem ldrop : Statement .ldrop := rfl

theorem hypq : Statement .hypq := rfl

theorem dirq : Statement .dirq := rfl

theorem lds (sp : Space) (inc : Bool) : Statement (.lds sp inc) := by
  cases sp <;> cases inc <;> rfl

theorem sts (sp : Space) (inc : Bool) : Statement (.sts sp inc) := by
  cases sp <;> cases inc <;> rfl

theorem srst : Statement .srst := rfl

end Sys2Proof.Laws.OpcodeField
end

