-- ==== Sys2Proof/Laws/Tracer.lean ====
section
/-! SUPPORT. The tracer's step and the two loops over it: what one step can do (43_hysteresis_tracer_eager.md R203 to R207), in one
case analysis, what it can change, and the induction over a loop. -/

namespace Sys2Proof.Machine

/-- A discovery: it has room on the stack, or it overflows. -/
theorem discover_cases (depth : Nat) (x y : Half) (s : State) :
    (s.sp.toNat < depth ∧ discover depth x y s = .step { s with
      visit := s.visit.write (s.idx x.toNat y.toNat) 1#1, stack := s.stack.write s.sp.toNat (coordWord x y),
      sp := s.sp + 1#32 } (.found x y)) ∨
    (depth ≤ s.sp.toNat ∧ discover depth x y s = .overflow) := by
  by_cases h : depth ≤ s.sp.toNat
  · exact .inr ⟨h, by simp [discover, push, h]⟩
  · exact .inl ⟨Nat.lt_of_not_le h, by simp [discover, push, h]⟩

/-- All that one tracer step can do, with the conditions of each case. -/
theorem tStep_cases (depth : Nat) (s : State) :
    (s.phase = .off ∧ tStep depth s = .off) ∨
    (s.phase = .done ∧ tStep depth s = .step s .done) ∨
    (s.phase = .scan ∧ s.h ≤ s.sy.toNat + 1 ∧ tStep depth s = .step { s with phase := .done } .done) ∨
    (s.phase = .scan ∧ s.sy.toNat + 1 < s.h ∧ qualifies s s.high s.sx.toNat s.sy.toNat = false ∧
      tStep depth s = .step (advanceCursor s) .none) ∨
    (s.phase = .scan ∧ s.sy.toNat + 1 < s.h ∧ qualifies s s.high s.sx.toNat s.sy.toNat = true ∧
      tStep depth s = discover depth s.sx s.sy { advanceCursor s with phase := .pop }) ∨
    (s.phase = .pop ∧ s.sp = 0#32 ∧ tStep depth s = .step { s with phase := .scan } .none) ∨
    (s.phase = .pop ∧ s.sp ≠ 0#32 ∧ tStep depth s = .step { s with
      sp := s.sp - 1#32, cx := coordX (s.stack.read (s.sp - 1#32).toNat), cy := coordY (s.stack.read (s.sp - 1#32).toNat),
      k := 0, phase := .expand } .none) ∨
    (s.phase = .expand ∧
      (s.interior (s.cx.toNat + offsetX s.k) (s.cy.toNat + offsetY s.k) &&
        qualifies s s.low (s.cx.toNat + offsetX s.k : Int).toNat (s.cy.toNat + offsetY s.k : Int).toNat) = false ∧
      tStep depth s = .step (nextNeighbour s) .none) ∨
    (s.phase = .expand ∧
      (s.interior (s.cx.toNat + offsetX s.k) (s.cy.toNat + offsetY s.k) &&
        qualifies s s.low (s.cx.toNat + offsetX s.k : Int).toNat (s.cy.toNat + offsetY s.k : Int).toNat) = true ∧
      tStep depth s = discover depth (BitVec.ofNat 16 (s.cx.toNat + offsetX s.k : Int).toNat)
        (BitVec.ofNat 16 (s.cy.toNat + offsetY s.k : Int).toNat) (nextNeighbour s)) := by
  cases hp : s.phase with
  | off => exact .inl ⟨rfl, by simp [tStep, hp]⟩
  | done => exact .inr (.inl ⟨rfl, by simp [tStep, hp]⟩)
  | scan =>
    refine .inr (.inr ?_)
    by_cases hh : s.h ≤ s.sy.toNat + 1
    · exact .inl ⟨rfl, hh, by simp [tStep, hp, stepScan, hh]⟩
    · refine .inr ?_
      cases hq : qualifies s s.high s.sx.toNat s.sy.toNat with
      | false => exact .inl ⟨rfl, by omega, rfl, by simp [tStep, hp, stepScan, hh, hq]⟩
      | true => exact .inr (.inl ⟨rfl, by omega, rfl, by simp [tStep, hp, stepScan, hh, hq]⟩)
  | pop =>
    refine .inr (.inr (.inr (.inr (.inr ?_))))
    by_cases hz : s.sp = 0#32
    · exact .inl ⟨rfl, hz, by simp [tStep, hp, stepPop, pop_empty hz]⟩
    · exact .inr (.inl ⟨rfl, hz, by simp [tStep, hp, stepPop, pop_some hz]⟩)
  | expand =>
    refine .inr (.inr (.inr (.inr (.inr (.inr (.inr ?_))))))
    cases hq : (s.interior (s.cx.toNat + offsetX s.k) (s.cy.toNat + offsetY s.k) &&
        qualifies s s.low (s.cx.toNat + offsetX s.k : Int).toNat (s.cy.toNat + offsetY s.k : Int).toNat) with
    | false => exact .inl ⟨rfl, rfl, by simp only [tStep, hp, stepExpand, hq]; rfl⟩
    | true => exact .inr ⟨rfl, rfl, by simp only [tStep, hp, stepExpand, hq]; rfl⟩

/-! ### The loops -/

/-- What every tracer step that is not the last keeps holds where `LNEXT`'s loop ends. -/
theorem nextLoop_induct {depth : Nat} (P : State → Prop) (keep : ∀ s t, P s → tStep depth s = .step t .none → P t) :
    ∀ (n : Nat) (s : State), P s →
      (∃ u t x y, P u ∧ tStep depth u = .step t (.found x y) ∧ nextLoop depth n s = .found t x y) ∨
      (∃ u t, P u ∧ tStep depth u = .step t .done ∧ nextLoop depth n s = .exhausted t) ∨
      (∃ u, P u ∧ tStep depth u = .overflow ∧ nextLoop depth n s = .overflow) ∨
      (∃ u, P u ∧ tStep depth u = .off ∧ nextLoop depth n s = .off) ∨ nextLoop depth n s = .bound := by
  intro n
  induction n with
  | zero => intro s _; exact .inr (.inr (.inr (.inr rfl)))
  | succ n ih =>
    intro s hs
    unfold nextLoop
    cases h : tStep depth s with
    | step t e =>
      cases e with
      | none => exact ih t (keep s t hs h)
      | found x y => exact .inl ⟨s, t, x, y, hs, h, rfl⟩
      | done => exact .inr (.inl ⟨s, t, hs, h, rfl⟩)
    | overflow => exact .inr (.inr (.inl ⟨s, hs, h, rfl⟩))
    | off => exact .inr (.inr (.inr (.inl ⟨s, hs, h, rfl⟩)))

/-- A request first runs the steps that report nothing. -/
theorem nextLoop_quiet {depth n k : Nat} {s u : State} (h : quietRun depth k s = some u) :
    nextLoop depth (k + n) s = nextLoop depth n u := by
  induction k generalizing s with
  | zero =>
    rw [Nat.zero_add, Option.some.inj h]
  | succ k ih =>
    rw [Nat.succ_add]
    cases hs : tStep depth s with
    | step t e =>
      cases e with
      | none =>
        simp only [quietRun, hs] at h
        simpa only [nextLoop, hs] using ih h
      | found x y => simp only [quietRun, hs, reduceCtorEq] at h
      | done => simp only [quietRun, hs, reduceCtorEq] at h
    | overflow => simp only [quietRun, hs, reduceCtorEq] at h
    | off => simp only [quietRun, hs, reduceCtorEq] at h

theorem discover_full {depth : Nat} {s : State} (h : depth ≤ s.sp.toNat) (x y : Half) : discover depth x y s = .overflow := by
  rcases discover_cases depth x y s with ⟨hlt, -⟩ | ⟨-, he⟩
  · exact absurd h (Nat.not_le.mpr hlt)
  · exact he

/-- A step that discovers a pixel overflows when the stack is full (R52). -/
theorem tStep_overflow {depth : Nat} {s : State} (hd : s.discovers) (hf : depth ≤ s.sp.toNat) : tStep depth s = .overflow := by
  rcases hd with ⟨hp, hy, hv, hq⟩ | ⟨hp, ⟨hi, hq⟩, hv⟩
  · have ho : depth ≤ (advanceCursor s).sp.toNat := by rwa [advanceCursor_sp]
    simp only [tStep, hp, stepScan, Nat.not_le.mpr hy, qualifies, hv, hq, decide_true, Bool.true_and, if_true, if_false]
    exact discover_full (s := { advanceCursor s with phase := .pop }) ho _ _
  · have ho : depth ≤ (nextNeighbour s).sp.toNat := by rwa [nextNeighbour_sp]
    simp only [tStep, hp, stepExpand, hi, qualifies, hv, hq, decide_true, Bool.true_and, if_true]
    exact discover_full ho _ _

/-- What every tracer step keeps, with the foreground sample of a discovery, holds where `TRACE`'s loop ends. -/
theorem traceLoop_induct {depth : Nat} (P : State → Prop) (keep : ∀ s t, P s → tStep depth s = .step t .none → P t)
    (keepFound : ∀ s t x y, P s → tStep depth s = .step t (.found x y) → P (writeForeground x y t)) :
    ∀ (n : Nat) (s : State), P s →
      (∃ u t, P u ∧ tStep depth u = .step t .done ∧ traceLoop depth n s = .done t) ∨
      (∃ u, P u ∧ tStep depth u = .overflow ∧ traceLoop depth n s = .overflow) ∨
      (∃ u, P u ∧ tStep depth u = .off ∧ traceLoop depth n s = .off) ∨ traceLoop depth n s = .bound := by
  intro n
  induction n with
  | zero => intro s _; exact .inr (.inr (.inr rfl))
  | succ n ih =>
    intro s hs
    unfold traceLoop
    cases h : tStep depth s with
    | step t e =>
      cases e with
      | none => exact ih t (keep s t hs h)
      | found x y => exact ih _ (keepFound s t x y hs h)
      | done => exact .inl ⟨s, t, hs, h, rfl⟩
    | overflow => exact .inr (.inl ⟨s, hs, h, rfl⟩)
    | off => exact .inr (.inr (.inl ⟨s, hs, h, rfl⟩))

end Sys2Proof.Machine
end

