-- ==== Sys2Proof/Laws/Step.lean ====
section
/-! SUPPORT. The step and the dispatch: which input a step takes, and that every command but `SRST` is the issue of its body under
its issue-time checks (30_encoding.md R104). -/

namespace Sys2Proof.Machine

/-- An input at the head of the queue that need not wait is performed. -/
theorem step_takes {s : State} {a : HostAction} {rest : List Input} (h : s.takes a rest) :
    step s = perform a (takeInput rest s) := by
  obtain ⟨e, hq, he⟩ := h
  have hw : waits { early := e, act := a } s = false := by
    cases hb : s.busyFlag <;> simp_all [waits]
  simp [step, advance, hq, hw]

/-- With an empty queue, or behind an input that must wait, the step is the block's own. -/
theorem step_proceeds {s : State} (h : s.inputs = [] ∨ ∃ inp rest, s.inputs = inp :: rest ∧ waits inp s = true) :
    step s = proceed s := by
  rcases h with h | ⟨inp, rest, h, hw⟩
  · simp [step, advance, h]
  · simp [step, advance, h, hw]

/-- All that a step can do. -/
theorem step_cases (s : State) :
    step s = proceed s ∨ ∃ a rest, s.takes a rest ∧ step s = perform a (takeInput rest s) := by
  cases hq : s.inputs with
  | nil => exact .inl (step_proceeds (.inl hq))
  | cons inp rest =>
    cases hw : waits inp s with
    | true => exact .inl (step_proceeds (.inr ⟨inp, rest, hq, hw⟩))
    | false =>
      have ht : s.takes inp.act rest := by
        refine ⟨inp.early, hq, fun hb => ?_⟩
        simpa [waits, hb] using hw
      exact .inr ⟨inp.act, rest, ht, step_takes ht⟩

/-- The pseudocode of a command, once its issue-time checks have passed. -/
def commandBody (i : Instr) (s : State) : Result :=
  match i with
  | .nop => .next s
  | .hypot => .next (hypotRaster hypotFn s)
  | .nms => .next (nmsRaster dirFn s)
  | .trace => traceBody Config.stackDepth s
  | .lstart => .next (lstartBody s)
  | .lnext => lnextBody Config.stackDepth s
  | .ldrop => .next (ldropBody s)
  | .hypq => .next { s with res := hypotFn s.argGx s.argGy }
  | .dirq => .next { s with res := (bucketCode (dirFn s.argGx s.argGy)).zeroExtend 32 }
  | .lds sp inc => .next (postIncrement inc { s with data := memRead sp s.addr.toNat s })
  | .sts sp inc => .next (postIncrement inc (memWrite sp s.addr.toNat s.data s))
  | .srst => .next (softReset s)

/-- Every command but `SRST` is the issue of its body. -/
theorem exec_eq_issue {i : Instr} (h : i ≠ .srst) (s : State) : exec i s = issue i (issueFault i) (commandBody i) s := by
  cases i with
  | srst => exact absurd rfl h
  | _ => rfl

@[simp] theorem exec_srst (s : State) : exec .srst s = .next (softReset s) := rfl

/-- The issue-time checks of a command read nothing that accepting it, reading a register or taking an input changes. -/
theorem issueFault_congr (i : Instr) {s t : State} (hl : t.live = s.live) (hw : t.width = s.width) (hh : t.height = s.height)
    (hlo : t.low = s.low) (hhi : t.high = s.high) (ha : t.addr = s.addr) (hsp : t.sp = s.sp) :
    issueFault i t = issueFault i s := by
  have ew : t.w = s.w := congrArg BitVec.toNat hw
  have eh : t.h = s.h := congrArg BitVec.toNat hh
  have ea : t.area = s.area := by rw [State.area, ew, eh, State.area]
  have hl' : dimTooLarge t = dimTooLarge s := by rw [dimTooLarge, ea, dimTooLarge]
  have hd : dimCheck t = dimCheck s := by rw [dimCheck, hl', dimTooSmall, ew, eh]; rfl
  have ht : traversalCheck t = traversalCheck s := by rw [traversalCheck, hl, thresholdsValid, hlo, hhi, hd]; rfl
  have hr : ∀ sp, inRange sp t.addr.toNat t = inRange sp s.addr.toNat s := by
    intro sp
    cases sp <;> simp only [inRange] <;> first | rw [ha, ea] | rw [ha, hsp]
  cases i with
  | hypot => show hypotCheck t = hypotCheck s; rw [hypotCheck, hl']; rfl
  | nms => show nmsCheck t = nmsCheck s; rw [nmsCheck, hl, hd]; rfl
  | trace => exact ht
  | lstart => exact ht
  | lnext => show lnextCheck t = lnextCheck s; rw [lnextCheck, hl]; rfl
  | lds sp inc => show ldsCheck sp t = ldsCheck sp s; rw [ldsCheck, hr]; rfl
  | sts sp inc => show stsCheck sp t = stsCheck sp s; rw [stsCheck, storeLocked, hl, hr]; rfl
  | _ => rfl

/-- The decoder on a word of each format: the opcode field selects the row (30_encoding.md R105). -/
theorem decode_ok_wellFormed {w : Word} {i : Instr} (h : decode w = .ok i) : i.wellFormed = true := by
  cases i with
  | sts sp inc =>
    unfold decode decodeZ decodeM makeLds makeSts at h
    repeat' split at h
    all_goals simp_all [Instr.wellFormed]
  | _ => rfl

end Sys2Proof.Machine
end

