-- ==== Sys2Proof/Tests/Slice0.lean ====
section
/-! SUPPORT. The model's own tests, each from a value the spec writes out (95_test_vectors.md, the examples of the rules), and for each
obligation with hypotheses a state that meets them all together. -/

open Sys2Proof Sys2Proof.Machine Sys2Proof.Statement

namespace Sys2Proof.Tests

-- One theorem after another: many at once would each hold a thread's stack.
set_option Elab.async false

/-! ### Helpers -/

/-- A space whose first samples are listed. -/
def memOf {w : Nat} (vs : List (BitVec w)) : Mem w := { cells := vs.zipIdx.map fun p => (p.2, p.1), gen := 0 }

/-- A space of `n` zero samples. -/
def zeros (w n : Nat) : Mem w := memOf (List.replicate n 0)

/-- The first `n` samples of a space. -/
def samples {w : Nat} (n : Nat) (m : Mem w) : List (BitVec w) := (List.range n).map m.read

/-- Idle, with dimensions. -/
def idleOf (w h : Nat) : State := { State.reset with width := BitVec.ofNat 16 w, height := BitVec.ofNat 16 h }

/-- Idle, with dimensions, thresholds and a suppressed raster. -/
def field (w h : Nat) (low high : Word) (sup : List Word) : State := { idleOf w h with low := low, high := high, sup := memOf sup }

/-- A command runs to a next state in which `p` holds. -/
def after (r : Result) (p : State → Bool) : Bool :=
  match r with
  | .next t => p t
  | .fault _ => false
  | .refused _ => false

/-- The smallest raster, all samples `v`, both thresholds `v`. -/
def ready3 (v : Word) : State := field 3 3 v v (List.replicate 9 v)

/-- A live producer on the smallest raster, right after `LSTART`. -/
def live3 (v : Word) : State := { lstartBody (ready3 v) with visit := zeros 1 9 }

/-- Running `i` on the smallest raster, next input `act`, early. -/
def busyWith (i : Instr) (act : HostAction) : State :=
  { ready3 0#32 with opstate := .busy i, inputs := [{ early := true, act := act }] }

/-- Faulted, next input `act`. -/
def faultedAt (act : HostAction) : State :=
  { ready3 0#32 with opstate := .faulted, faultCause := .addrRange, inputs := [{ early := false, act := act }] }

/-- Idle, next input `act`, and behind it perhaps an early one. -/
def idleAt (act : HostAction) (rest : List Input) : State :=
  { ready3 0#32 with inputs := { early := false, act := act } :: rest }

/-- An early read of `STATUS`. -/
def earlyPoll : Input := { early := true, act := .read 0x02#8 }

/-- The suppressed raster of vector T1. -/
def t1 : State :=
  field 5 5 0x42200000#32 0x42B40000#32
    ([0, 0, 0, 0, 0] ++ [0, 0, 0x42480000, 0, 0] ++ [0, 0, 0x42480000, 0, 0] ++ [0, 0, 0x42C80000, 0x42700000, 0] ++
      [0, 0, 0, 0, 0])

/-! ### Well-formed terms (30_encoding.md R110 (e)) -/

theorem test_wellFormed_refuses_sts_visit : (Instr.sts .visit false).wellFormed = false := by decide

theorem test_wellFormed_refuses_sts_stack : (Instr.sts .stack true).wellFormed = false := by decide

theorem test_wellFormed_accepts_sts_sup : (Instr.sts .sup true).wellFormed = true := by decide

/-! ### Decoding: a word of every constructor, bit by bit from the fields of 30_encoding.md R101 and the opcodes of R105 -/

theorem test_decode_nop : decode 0b00000000000000000000000000000000#32 = .ok .nop := by decide

theorem test_decode_hypot : decode 0b00000001000000000000000000000000#32 = .ok .hypot := by decide

theorem test_decode_nms : decode 0b00000010000000000000000000000000#32 = .ok .nms := by decide

theorem test_decode_trace : decode 0b00000011000000000000000000000000#32 = .ok .trace := by decide

theorem test_decode_lstart : decode 0b00000100000000000000000000000000#32 = .ok .lstart := by decide

theorem test_decode_lnext : decode 0b00000101000000000000000000000000#32 = .ok .lnext := by decide

theorem test_decode_ldrop : decode 0b00000110000000000000000000000000#32 = .ok .ldrop := by decide

theorem test_decode_hypq : decode 0b00001000000000000000000000000000#32 = .ok .hypq := by decide

theorem test_decode_dirq : decode 0b00001001000000000000000000000000#32 = .ok .dirq := by decide

theorem test_decode_lds : decode 0b00010000011010000000000000000000#32 = .ok (.lds .stack true) := by decide

theorem test_decode_sts : decode 0b00010001010010000000000000000000#32 = .ok (.sts .out true) := by decide

theorem test_decode_srst : decode 0b11111111000000000000000000000000#32 = .ok .srst := by decide

/-- Vector E2: 0xFF with a low bit set is not `SRST`. -/
theorem test_decode_not_srst : decode 0xFF000001#32 = .error (.zeroFieldZ 0xFF#8) := by decide

/-- A table word is taken with its bits as the table numbers them. -/
theorem test_decodeTableWord : decodeTableWord 32 0x05000000 = some .lnext ∧ decodeTableWord 32 0x07000000 = none := by decide

/-! ### One command each -/

/-- E1. -/
theorem test_nop_leaves_reset : after (exec .nop State.reset) (fun t => decide (t = State.reset)) = true := by decide +kernel

/-- R134's example, H2. -/
theorem test_hypot_h2 :
    after (exec .hypot { idleOf 2 1 with gx := memOf [3#16, 0x8000#16], gy := memOf [4#16, 0x8000#16] })
      (fun t => samples 2 t.mag == [0x40A00000#32, 0x473504F3#32]) = true := by decide +kernel

/-- H5: hypot32(100, −100). -/
theorem test_hypot32_rounds : hypot32 100 (-100) = 0x430D6BDE#32 := by decide +kernel

/-- A 4×3 raster with the magnitudes of N2 and N3 and gradients in bucket `D0`. -/
def nmsField (row : List Word) : State :=
  { idleOf 4 3 with
    gx := zeros 16 12, gy := zeros 16 12, mag := memOf (List.replicate 4 0#32 ++ row ++ List.replicate 4 0#32) }

/-- N2: 7.0 beside 8.0 is suppressed, 8.0 is kept. -/
theorem test_nms_n2 :
    after (exec .nms (nmsField [0, 0x40E00000, 0x41000000, 0]))
      (fun t => samples 12 t.sup == [0, 0, 0, 0, 0, 0, 0x41000000, 0, 0, 0, 0, 0]) = true := by decide +kernel

/-- N5: a NaN is kept, and does not suppress its neighbour. -/
theorem test_nms_n5 :
    after (exec .nms (nmsField [0, 0x7FC00000, 0x40A00000, 0]))
      (fun t => samples 12 t.sup == [0, 0, 0, 0, 0, 0x7FC00000, 0x40A00000, 0, 0, 0, 0, 0]) = true := by decide +kernel

/-- T1: the output raster. -/
theorem test_trace_t1 :
    after (exec .trace t1) (fun t => samples 25 t.out ==
      [0, 0, 0, 0, 0] ++ [0, 0, 0, 0, 0] ++ [0, 0, 0xFF, 0, 0] ++ [0, 0, 0xFF, 0xFF, 0] ++ [0, 0, 0, 0, 0]) = true := by
  decide +kernel

/-- T2, 4×4: the order of the discoveries. -/
theorem test_trace_order_t2 :
    discoveries Config.stackDepth 40 (traceStart (field 4 4 0 0 (List.replicate 16 0))) =
      [(1#16, 1#16), (2#16, 1#16), (2#16, 2#16), (1#16, 2#16)] := by decide +kernel

/-- L1, first row. -/
theorem test_lstart_l1 :
    after (exec .lstart t1) (fun t => decide (statusWord t = 0x04#32) && decide (coordWord t.sx t.sy = 0x00010001#32) &&
      decide (t.phase = .scan)) = true := by decide +kernel

/-- L1, second row. -/
theorem test_lnext_l1 :
    after (exec .lnext (lstartBody t1)) (fun t => decide (t.pix = 0x00030002#32) && decide (statusWord t = 0x0C#32) &&
      decide (coordWord t.sx t.sy = 0x00030003#32) && decide (t.sp = 1#32)) = true := by decide +kernel

/-- T9: on T2's 4×4 case a stack of two entries overflows. -/
theorem test_trace_overflow_t9 :
    after (traceBody 2 (field 4 4 0 0 (List.replicate 16 0))) (fun t => decide (faultWord t = 0x0000030A#32)) = true := by
  decide +kernel

/-- L1, last row. -/
theorem test_ldrop_l1 :
    after (exec .ldrop { lstartBody t1 with pix := 0x00020002#32, phase := .done })
      (fun t => decide (statusWord t = 0#32) && decide (t.pix = 0#32) && decide (t.phase = .off)) = true := by decide +kernel

/-- H1. -/
theorem test_hypq_h1 :
    after (exec .hypq { State.reset with arg0 := 0x12340003#32, arg1 := 0x0000FFFC#32 })
      (fun t => decide (t.res = 0x40A00000#32)) = true := by decide +kernel

/-- D1: just below and just above 22.5 degrees. -/
theorem test_dirq_d1 : dir 5741 2378 = .d0 ∧ dir 13860 5741 = .d45 ∧ dir (-13860) 5741 = .d135 ∧ dir 2378 5741 = .d90 := by
  decide +kernel

/-- D1: the register form. -/
theorem test_dirq_register :
    after (exec .dirq { State.reset with arg0 := 0x00008000#32, arg1 := 0x00007FFF#32 }) (fun t => decide (t.res = 3#32)) = true := by
  decide +kernel

/-- M1: a gradient is sign-extended and `ADDR` moves on. -/
theorem test_lds_m1 :
    after (exec (.lds .gx true) { idleOf 3 3 with addr := 5#32, gx := memOf [0, 0, 0, 0, 0, 0xFFFD#16] })
      (fun t => decide (t.data = 0xFFFFFFFD#32) && decide (t.addr = 6#32)) = true := by decide +kernel

/-- M2: index 9 of a 3×3 raster. -/
theorem test_lds_m2 :
    after (exec (.lds .gx false) { idleOf 3 3 with addr := 9#32 }) (fun t => decide (faultWord t = 0x00001009#32)) = true := by
  decide +kernel

/-- M1: the low eight bits are stored to `OUT`. -/
theorem test_sts_m1 :
    after (exec (.sts .out false) { idleOf 3 3 with data := 0x00012345#32 })
      (fun t => decide (t.out.read 0 = 0x45#8) && decide (t.addr = 0#32)) = true := by decide +kernel

/-- L3: the suppressed raster is locked. -/
theorem test_sts_l3 : after (exec (.sts .sup true) (live3 0#32)) (fun t => decide (faultWord t = 0x00001104#32)) = true := by
  decide +kernel

/-- F1: `SRST` leaves `FAULTED`. -/
theorem test_srst_f1 :
    after (exec .srst (faultedAt .hardReset)) (fun t => decide (statusWord t = 0#32) && decide (faultWord t = 0#32)) = true := by
  decide +kernel

/-- F2: `srst` during `trace` preserves `SUP`. -/
theorem test_srst_f2 :
    after (exec .srst (busyWith .trace .hardReset)) (fun t => decide (t.sup = (ready3 0#32).sup)) = true := by decide +kernel

/-- F2: `hypot` then `wr ADDR, 0` while it runs. -/
theorem test_busy_violation_f2 :
    after (step (busyWith .hypot (.write 0x08#8 0#32))) (fun t => decide (faultWord t = 0x00080103#32)) = true := by
  decide +kernel

/-- M4: `rd CMD`. -/
theorem test_read_cmd_m4 :
    after (step { State.reset with inputs := [{ early := false, act := .read 0x01#8 }] })
      (fun t => decide (faultWord t = 0x00010002#32)) = true := by decide +kernel

/-- A command placed by `withFetchWord` is the first that runs after reset (L4: `lnext` after reset). -/
theorem test_first_command_after_reset :
    after (step (State.reset.withFetchWord 32 0x05000000)) (fun t => decide (faultWord t = 0x00000508#32)) = true := by
  decide +kernel

/-! ### Witnesses: for each obligation with hypotheses, states that meet them together, clause by clause -/

/-- A traversal may start on the smallest raster when all samples and thresholds are 0.0 or 1.0. -/
theorem ready3_ready : traversalReady (ready3 0#32) ∧ traversalReady (ready3 0x3F800000#32) := by
  refine ⟨⟨rfl, rfl, ?_, ?_, ?_, ?_⟩, ⟨rfl, rfl, ?_, ?_, ?_, ?_⟩⟩ <;> decide +kernel

/-- The unlisted word 0x07000000. -/
theorem witness_LegalWordsAreTheThirtyFour : ∀ i, ((0x07000000#32, i) : Word × Instr) ∉ legalWords := by
  intro i
  simp [legalWords]

/-- An illegal word of each case, in each `OPSTATE`. -/
theorem witness_IllegalWordsFault :
    (illegalWord 0x07000000#32 ∧ illegalWord 0xFF000001#32 ∧ illegalWord 0x11080001#32 ∧ illegalWord 0x10700000#32 ∧
      illegalWord 0x11600000#32) ∧
    (∀ w, (idleAt (.write 0x01#8 w) []).takes (.write 0x01#8 w) [] ∧ (idleAt (.write 0x01#8 w) []).opstate = .idle) ∧
    (∀ w, (faultedAt (.write 0x01#8 w)).takes (.write 0x01#8 w) [] ∧ (faultedAt (.write 0x01#8 w)).opstate = .faulted) ∧
    ∀ w, (busyWith .hypot (.write 0x01#8 w)).takes (.write 0x01#8 w) [] ∧
      (busyWith .hypot (.write 0x01#8 w)).opstate = .busy .hypot := by
  refine ⟨?_, fun w => ⟨⟨false, rfl, by intro h; cases h⟩, rfl⟩, fun w => ⟨⟨false, rfl, by intro h; cases h⟩, rfl⟩,
    fun w => ⟨⟨true, rfl, fun _ => rfl⟩, rfl⟩⟩
  simp [illegalWord]

/-- A legal word with nothing behind it, and before an early input: accepted, faulting at issue, and `SRST`. -/
theorem witness_StepRunsTheDecodedCommand :
    (∀ w rest, (idleAt (.write 0x01#8 w) rest).takes (.write 0x01#8 w) rest ∧ (idleAt (.write 0x01#8 w) rest).opstate = .idle) ∧
    decode 0x03000000#32 = .ok .trace ∧ decode 0x05000000#32 = .ok .lnext ∧ decode 0xFF000000#32 = .ok .srst ∧
    overlapped (takeInput [] (idleAt (.write 0x01#8 0x03000000#32) [])) = false ∧
    (∀ w, overlapped (takeInput [earlyPoll] (idleAt (.write 0x01#8 w) [earlyPoll])) = true) ∧
    issueFault .trace (idleAt (.write 0x01#8 0x03000000#32) [earlyPoll]) = none ∧
    issueFault .lnext (idleAt (.write 0x01#8 0x05000000#32) [earlyPoll]) = some .noProducer ∧
    State.reset.opstate = .idle ∧ decodeTableWord 32 0x11480000 = some (.sts .out true) := by
  refine ⟨fun w rest => ⟨⟨false, rfl, by intro h; cases h⟩, rfl⟩, ?_, ?_, ?_, rfl, fun w => rfl, ?_, ?_, rfl, ?_⟩ <;>
    decide +kernel

theorem witness_BusyIntervalEndsInCompletion :
    ({ busyWith .nop .hardReset with inputs := [] } : State).opstate = .busy .nop ∧
    ({ busyWith .nop .hardReset with inputs := [scriptRead 0x02#8] } : State).inputs =
      { early := false, act := .read 0x02#8 } :: [] ∧
    State.reset.opstate = .idle ∧ State.reset.inputs = [] ∧ State.reset.busyFlag = false := ⟨rfl, rfl, rfl, rfl, rfl⟩

theorem witness_CannyScriptRunsThePipeline :
    traversalReady { ready3 0#32 with inputs := scriptCanny 0 } ∧
    ({ ready3 0#32 with inputs := scriptCanny 0 } : State).inputs = scriptCanny 0 := ⟨ready3_ready.1, rfl⟩

theorem witness_RegisterReadTransactions :
    (∀ n, (idleAt (.read n) []).takes (.read n) [] ∧ (idleAt (.read n) []).opstate = .idle) ∧
    (∀ n, (busyWith .nms (.read n)).takes (.read n) [] ∧ (busyWith .nms (.read n)).opstate = .busy .nms) ∧
    (∀ n, (faultedAt (.read n)).takes (.read n) [] ∧ (faultedAt (.read n)).opstate = .faulted) ∧
    regValue 0x0F#8 (idleAt (.read 0x0F#8) []) = some 0#32 ∧ regValue 0x10#8 (idleAt (.read 0x10#8) []) = none ∧
    regValue 0x01#8 (faultedAt (.read 0x01#8)) = none ∧ regValue 0x04#8 (faultedAt (.read 0x04#8)) = some 3#32 ∧
    (0x03#8 ∈ [0x00#8, 0x02#8, 0x03#8]) ∧ (0x04#8 ∉ [0x00#8, 0x02#8, 0x03#8]) := by
  refine ⟨fun n => ⟨⟨false, rfl, by intro h; cases h⟩, rfl⟩, fun n => ⟨⟨true, rfl, fun _ => rfl⟩, rfl⟩,
    fun n => ⟨⟨false, rfl, by intro h; cases h⟩, rfl⟩, ?_, ?_, ?_, ?_, ?_, ?_⟩ <;> decide +kernel

/-- A write of any value to any register, without and with a live producer. -/
theorem witness_RegisterWriteTransactions : ∀ n v,
    ((idleAt (.write n v) []).takes (.write n v) [] ∧ (idleAt (.write n v) []).opstate = .idle ∧
      (idleAt (.write n v) []).live = false) ∧
    (({ idleAt (.write n v) [] with live := true } : State).takes (.write n v) [] ∧
      ({ idleAt (.write n v) [] with live := true } : State).live = true) :=
  fun n v => ⟨⟨⟨false, rfl, by intro h; cases h⟩, rfl, rfl⟩, ⟨⟨false, rfl, by intro h; cases h⟩, rfl⟩⟩

/-- One state for each clause, at the boundaries: 1025·1024 is the least multiple of 1024 beyond `CAP`, 2 the largest small side. -/
theorem witness_IssueTimeFaults :
    (Config.cap < (idleOf 1025 1024).w * (idleOf 1025 1024).h ∧ (idleOf 1025 1024).live = false ∧
      (idleOf 1025 1024).opstate = .idle ∧ thresholdsValid (idleOf 1025 1024) = true) ∧
    ((idleOf 2 5).w * (idleOf 2 5).h ≤ Config.cap ∧ (idleOf 2 5).w < 3 ∧ thresholdsValid (idleOf 2 5) = true) ∧
    ((idleOf 5 2).w * (idleOf 5 2).h ≤ Config.cap ∧ (idleOf 5 2).h < 3) ∧
    thresholdsValid { idleOf 5 5 with low := 0x40000000#32, high := 0x3F800000#32 } = false ∧
    (idleOf 1024 1024).w * (idleOf 1024 1024).h ≤ Config.cap := by decide +kernel

theorem witness_LiveProducerLocks :
    (∀ n v, ({ idleAt (.write n v) [] with live := true } : State).takes (.write n v) [] ∧
      ({ idleAt (.write n v) [] with live := true } : State).opstate = .idle ∧
      ({ idleAt (.write n v) [] with live := true } : State).live = true) ∧
    (live3 0#32).opstate = .idle ∧ (live3 0#32).live = true ∧ (live3 0#32).faultCause = .none ∧
    ∃ t, exec .nms (live3 0#32) = .next t ∧ t.faultCause = .locked :=
  ⟨fun n v => ⟨⟨false, rfl, by intro h; cases h⟩, rfl, rfl⟩, rfl, rfl, rfl, _, rfl, rfl⟩

theorem witness_IssueFaultsArePrecise :
    (ready3 0#32).opstate = .idle ∧ issueFault .lnext (ready3 0#32) = some .noProducer ∧
    issueFault .nop (ready3 0#32) = none ∧ ∃ t, exec .nop (ready3 0#32) = .next t := ⟨rfl, rfl, rfl, _, rfl⟩

theorem witness_BusyViolationAbandons :
    (∀ i n, (busyWith i (.read n)).takes (.read n) [] ∧ (busyWith i (.read n)).opstate = .busy i) ∧
    (∀ i n v, (busyWith i (.write n v)).takes (.write n v) [] ∧ (busyWith i (.write n v)).opstate = .busy i) ∧
    (0x01#8 ∉ [0x00#8, 0x02#8, 0x03#8]) ∧ ¬(0x01#8 = 0x01#8 ∧ 0xFF000001#32 = 0xFF000000#32) ∧ writesSpace .nms .mag = false :=
  ⟨fun _ _ => ⟨⟨true, rfl, fun _ => rfl⟩, rfl⟩, fun _ _ _ => ⟨⟨true, rfl, fun _ => rfl⟩, rfl⟩, by decide, by decide, rfl⟩

theorem witness_FaultedIgnoresEverything :
    (∀ a, (faultedAt a).opstate = .faulted ∧ (faultedAt a).takes a []) ∧
    ¬(0x01#8 = 0x01#8 ∧ 0x02000000#32 = 0xFF000000#32) ∧ Instr.nop ≠ .srst ∧
    ({ faultedAt .hardReset with inputs := [] } : State).inputs = [] :=
  ⟨fun _ => ⟨rfl, ⟨false, rfl, by intro h; cases h⟩⟩, by decide, by decide, rfl⟩

/-- A step of a faulted block that stays faulted, and one that leaves. -/
theorem witness_OnlyResetLeavesFaulted :
    ((faultedAt (.write 0x04#8 5#32)).opstate = .faulted ∧ ∃ t, step (faultedAt (.write 0x04#8 5#32)) = .next t) ∧
    ((faultedAt .hardReset).opstate = .faulted ∧ ∃ t, step (faultedAt .hardReset) = .next t ∧ t.opstate = .idle) :=
  ⟨⟨rfl, _, rfl⟩, rfl, _, rfl, rfl⟩

/-- A full stack, an unvisited candidate at offset 0 of pixel (1, 1) of a 4×3 raster. -/
def overfull : State :=
  { field 4 3 0 0 (List.replicate 12 0) with
    live := true, phase := .expand, cx := 1#16, cy := 1#16, k := 0, sp := 0x00100000#32, visit := zeros 1 12 }

theorem witness_HardwareResetTable :
    (idleAt .hardReset []).takes .hardReset [] ∧ (busyWith .trace .hardReset).takes .hardReset [] ∧
    (faultedAt .hardReset).takes .hardReset [] :=
  ⟨⟨false, rfl, by intro h; cases h⟩, ⟨true, rfl, fun _ => rfl⟩, ⟨false, rfl, by intro h; cases h⟩⟩

theorem witness_SoftResetKeepsMemory :
    (∀ i, (ready3 0#32).opstate = .busy i → writesSpace i .gx = false) ∧
    (∀ i, (busyWith .trace (.write 0x01#8 0xFF000000#32)).opstate = .busy i → writesSpace i .sup = false) ∧
    (busyWith .trace (.write 0x01#8 0xFF000000#32)).takes (.write 0x01#8 0xFF000000#32) [] := by
  refine ⟨fun i h => absurd h OpState.noConfusion, fun i h => ?_, ⟨true, rfl, fun _ => rfl⟩⟩
  rw [← OpState.busy.inj h]
  rfl

theorem witness_NopChangesNothing :
    State.reset.opstate = .idle ∧ State.reset.inputs = [] ∧ (faultedAt .hardReset).opstate = .faulted ∧
    (busyWith .nop .hardReset).opstate = .busy .nop := ⟨rfl, rfl, rfl, rfl⟩

theorem witness_HypotWritesMagnitudes :
    ((idleOf 1025 1024).opstate = .idle ∧ Config.cap < (idleOf 1025 1024).w * (idleOf 1025 1024).h) ∧
    ((idleOf 2 1).opstate = .idle ∧ (idleOf 2 1).w * (idleOf 2 1).h ≤ Config.cap ∧ 1 < (idleOf 2 1).w ∧ 0 < (idleOf 2 1).h) := by
  decide +kernel

/-- Idle with any query operands. -/
theorem witness_HypqEvaluatesOnce (a b : Word) : ({ State.reset with arg0 := a, arg1 := b } : State).opstate = .idle ∧
    ({ State.reset with arg0 := a, arg1 := b } : State).arg0 = a ∧
    ({ State.reset with arg0 := a, arg1 := b } : State).arg1 = b := ⟨rfl, rfl, rfl⟩

theorem witness_DirqEvaluatesOnce (a b : Word) : ({ State.reset with arg0 := a, arg1 := b } : State).opstate = .idle ∧
    ({ State.reset with arg0 := a, arg1 := b } : State).arg0 = a ∧
    ({ State.reset with arg0 := a, arg1 := b } : State).arg1 = b := witness_HypqEvaluatesOnce a b

/-- The least and the greatest operands, and a finite value other than hypot32(3, 4). -/
theorem witness_HypotIsCorrectlyRounded :
    isHalf (-32768) ∧ isHalf 32767 ∧ isHalf 3 ∧ isHalf 4 ∧ isFinite 0#32 = true ∧
    f32Value 0#32 ≠ f32Value (hypot32 3 4) := by
  have h : hypot32 3 4 = 0x40A00000#32 := by decide +kernel
  have hv : f32Value 0x40A00000#32 = 5 := by
    simp only [f32Value, show (0x40A00000#32).getLsbD 31 = false by decide, show expField 0x40A00000#32 = 129#8 by decide,
      show fracField 0x40A00000#32 = 2097152#23 by decide, show ¬(129#8 = 0#8) by decide, if_false]
    norm_num
  have h0 : f32Value 0#32 = 0 := by
    simp [f32Value, expField, fracField]
  refine ⟨by simp [isHalf], by simp [isHalf], by simp [isHalf], by simp [isHalf], by decide, ?_⟩
  rw [h, hv, h0]
  norm_num

theorem witness_HypotMeetsItsObligations :
    isHalf (-32768) ∧ isHalf 32767 ∧ (32767 : Int).natAbs ≤ (-32768 : Int).natAbs := by
  simp [isHalf]

/-- The angle of a vector from its length and the angle's cosine and sine. -/
theorem theta_of_polar {gx gy : Int} {r θ : ℝ} (hr : 0 < r) (h1 : -Real.pi < θ) (h2 : θ ≤ Real.pi)
    (hx : (gx : ℝ) = r * Real.cos θ) (hy : (gy : ℝ) = r * Real.sin θ) : theta gx gy = θ := by
  have e : (⟨(gx : ℝ), (gy : ℝ)⟩ : ℂ) = (r : ℂ) * (Complex.cos (θ : ℝ) + Complex.sin (θ : ℝ) * Complex.I) := by
    rw [← Complex.ofReal_cos, ← Complex.ofReal_sin]
    apply Complex.ext <;> simp only [Complex.mul_re, Complex.mul_im, Complex.add_re, Complex.add_im, Complex.ofReal_re,
      Complex.ofReal_im, Complex.I_re, Complex.I_im, hx, hy] <;> ring
  rw [theta, e]
  exact Complex.arg_mul_cos_add_sin_mul_I hr ⟨h1, h2⟩

/-- An angle in each range: 0, 45, 90, 135 and 180 degrees. -/
theorem witness_DirectionIsTheExactAngle :
    thetaLine 1 0 < Real.pi / 8 ∧ 7 * Real.pi / 8 ≤ thetaLine (-1) 0 ∧
    (Real.pi / 8 ≤ thetaLine 1 1 ∧ thetaLine 1 1 < 3 * Real.pi / 8) ∧
    (3 * Real.pi / 8 ≤ thetaLine 0 1 ∧ thetaLine 0 1 < 5 * Real.pi / 8) ∧
    (5 * Real.pi / 8 ≤ thetaLine (-1) 1 ∧ thetaLine (-1) 1 < 7 * Real.pi / 8) := by
  have hp := Real.pi_pos
  have hs : (0 : ℝ) < Real.sqrt 2 := by positivity
  have h2 : Real.sqrt 2 * Real.sqrt 2 = 2 := Real.mul_self_sqrt (by norm_num)
  have h0 : theta 1 0 = 0 := theta_of_polar one_pos (by linarith) (by linarith) (by simp) (by simp)
  have h180 : theta (-1) 0 = Real.pi := theta_of_polar one_pos (by linarith) (by linarith) (by simp) (by simp)
  have h90 : theta 0 1 = Real.pi / 2 := theta_of_polar one_pos (by linarith) (by linarith) (by simp) (by simp)
  have h45 : theta 1 1 = Real.pi / 4 :=
    theta_of_polar hs (by linarith) (by linarith) (by rw [Real.cos_pi_div_four]; push_cast; linarith)
      (by rw [Real.sin_pi_div_four]; push_cast; linarith)
  have h135 : theta (-1) 1 = Real.pi - Real.pi / 4 :=
    theta_of_polar hs (by linarith) (by linarith) (by rw [Real.cos_pi_sub, Real.cos_pi_div_four]; push_cast; linarith)
      (by rw [Real.sin_pi_sub, Real.sin_pi_div_four]; push_cast; linarith)
  rw [thetaLine, h0, thetaLine, h180, thetaLine, h45, thetaLine, h90, thetaLine, h135]
  rw [if_neg (by linarith), if_neg (by linarith), if_neg (by linarith), if_neg (by linarith), if_neg (by linarith)]
  refine ⟨?_, ?_, ⟨?_, ?_⟩, ⟨?_, ?_⟩, ?_, ?_⟩ <;> linarith

theorem witness_DirectionSymmetries : (7 : Int) ≠ 0 ∧ (1 : Int) ≤ 1 := by decide

theorem witness_ComparisonsFollowValues :
    isNaN 0x7FC00000#32 = true ∧ isFinite 0x7F7FFFFF#32 = true ∧ isFinite 0x80000000#32 = true ∧
    isNaN 0x7F800000#32 = false ∧ isNaN 0xFF800000#32 = false ∧ isNaN 0x80000000#32 = false := by decide

theorem witness_ThresholdValidity :
    isNaN (field 3 3 0x7FC00000#32 0#32 []).low = true ∧
    (isFinite (field 3 3 0x80000000#32 0x7F7FFFFF#32 []).low = true ∧
      isFinite (field 3 3 0x80000000#32 0x7F7FFFFF#32 []).high = true) ∧
    (isFinite (field 3 3 0#32 0x7F800000#32 []).low = true ∧ (field 3 3 0#32 0x7F800000#32 []).high = 0x7F800000#32) ∧
    ((field 3 3 0x7F800000#32 0x7F800000#32 []).low = 0x7F800000#32 ∧
      (field 3 3 0x7F800000#32 0x7F800000#32 []).high = 0x7F800000#32) ∧
    ((field 3 3 0x7F800000#32 0#32 []).low = 0x7F800000#32 ∧ isFinite (field 3 3 0x7F800000#32 0#32 []).high = true) ∧
    (field 3 3 0xFF800000#32 0#32 []).low = 0xFF800000#32 ∧
    ((field 3 3 0xFF800000#32 0#32 []).opstate = .idle ∧ (field 3 3 0xFF800000#32 0#32 []).live = false ∧
      thresholdsValid (field 3 3 0xFF800000#32 0#32 []) = false) := by decide +kernel

/-- A state for each issue-time clause, and a raster whose one interior pixel has each bucket in turn. -/
theorem witness_NmsThinsAlongTheGradient :
    ((live3 0#32).opstate = .idle ∧ (live3 0#32).live = true) ∧
    ((idleOf 1025 1024).live = false ∧ Config.cap < (idleOf 1025 1024).w * (idleOf 1025 1024).h) ∧
    ((idleOf 3 2).live = false ∧ (idleOf 3 2).w * (idleOf 3 2).h ≤ Config.cap ∧ (idleOf 3 2).h < 3) ∧
    ((idleOf 3 3).live = false ∧ (idleOf 3 3).w * (idleOf 3 3).h ≤ Config.cap ∧ 3 ≤ (idleOf 3 3).w ∧ 3 ≤ (idleOf 3 3).h) ∧
    ∀ p ∈ [((1 : Int), (0 : Int), Bucket.d0), (1, 1, .d45), (0, 1, .d90), (-1, 1, .d135)], dir p.1 p.2.1 = p.2.2 := by
  decide +kernel

theorem witness_TracerStepFrame :
    (live3 0#32).phase ≠ .off ∧ ∃ t e, tStep Config.stackDepth (live3 0#32) = .step t e := ⟨by decide, _, _, rfl⟩

/-- The scan at its end; under the cursor a pixel below `HIGH`; a seed with room; a seed without. -/
theorem witness_ScanStepTestsOnePixel :
    ((live3 0#32).phase = .scan ∧ (live3 0#32).sy.toNat + 1 < (live3 0#32).h ∧
      (live3 0#32).visit.read ((live3 0#32).idx (live3 0#32).sx.toNat (live3 0#32).sy.toNat) = 0#1 ∧
      fGe ((live3 0#32).sup.read ((live3 0#32).idx (live3 0#32).sx.toNat (live3 0#32).sy.toNat)) (live3 0#32).high = true ∧
      (live3 0#32).sp.toNat < Config.stackDepth ∧ (live3 0#32).sp.toNat = 0) ∧
    fGe ({ live3 0#32 with high := 0x3F800000#32 } : State).sup.cells.head!.2 0x3F800000#32 = false ∧
    ({ live3 0#32 with sy := 2#16 } : State).h ≤ ({ live3 0#32 with sy := 2#16 } : State).sy.toNat + 1 := by decide +kernel

theorem witness_PopStepTakesTheTop :
    (({ live3 0#32 with phase := .pop } : State).phase = .pop ∧ ({ live3 0#32 with phase := .pop } : State).sp = 0#32) ∧
    ({ live3 0#32 with phase := .pop, sp := 1#32 } : State).sp ≠ 0#32 := by decide +kernel

/-- A candidate at offset 0 with a full stack, with room, and a neighbour that is not interior (offset 3, the last but two). -/
theorem witness_ExpandStepTestsOneNeighbour :
    (overfull.phase = .expand ∧ overfull.k ≠ 5 ∧
      isCandidate overfull (overfull.cx.toNat + offsetX overfull.k) (overfull.cy.toNat + offsetY overfull.k) ∧
      overfull.visit.read (overfull.idx 2 1) = 0#1 ∧ overfull.sp.toNat = Config.stackDepth) ∧
    (({ overfull with sp := 0#32 } : State).sp.toNat < Config.stackDepth) ∧
    ¬isCandidate { overfull with k := 5 } (1 + offsetX 5) (1 + offsetY 5) := by
  refine ⟨⟨rfl, ?_, ⟨?_, ?_⟩, ?_, ?_⟩, ?_, ?_⟩
  on_goal 7 => intro h; exact absurd h.1 (by decide +kernel)
  all_goals decide +kernel

theorem witness_DoneStepIsFinal :
    ({ live3 0#32 with phase := .done } : State).phase = .done ∧
    ∃ t, tStep 1 { live3 0#32 with sy := 2#16 } = .step t .done := ⟨rfl, _, rfl⟩

/-- A discovery by the scan and one by the expansion. -/
theorem witness_PhaseGraph :
    (∃ t, tStep 1 (live3 0#32) = .step t (.found 1#16 1#16)) ∧
    ∃ t, tStep 1 { overfull with sp := 0#32 } = .step t (.found 2#16 1#16) := ⟨⟨_, rfl⟩, _, rfl⟩

theorem witness_VisitBitsNeverClear : ∃ t, tStep 1 (live3 0#32) = .step t (.found 1#16 1#16) := ⟨_, rfl⟩

theorem witness_StackIsLastInFirstOut :
    overfull.sp.toNat = 1048576 ∧ (1048576 : Nat) ≤ 4294967295 ∧ (live3 0#32).sp.toNat < 1 := by decide +kernel

theorem witness_TraversalEndsWithinItsBound : traversalReady (ready3 0#32) := ready3_ready.1

theorem witness_StackDepthSuffices :
    traversalReady (ready3 0#32) ∧ ((ready3 0#32).w - 2) * ((ready3 0#32).h - 2) ≤ 1 ∧
    ∃ t, tracerRun 1 1 (tInit (ready3 0#32)) = some t := ⟨ready3_ready.1, by decide +kernel, _, rfl⟩

theorem witness_TraceCompletes : traversalReady (ready3 0#32) := ready3_ready.1

theorem witness_TraceFindsTheReachablePixels : traversalReady (ready3 0#32) := ready3_ready.1

/-- One raster, all thresholds 0.0 and then 1.0. -/
theorem witness_TighterThresholdsFindLess :
    traversalReady (ready3 0#32) ∧ traversalReady (field 3 3 0x3F800000#32 0x3F800000#32 (List.replicate 9 0)) ∧
    fLe 0#32 0x3F800000#32 = true := by
  refine ⟨ready3_ready.1, ⟨rfl, rfl, ?_, ?_, ?_, ?_⟩, ?_⟩ <;> decide +kernel

/-- A zero raster under `HIGH` = 0.0 and under `HIGH` = 1.0. -/
theorem witness_ZeroRasterTrace :
    (traversalReady (ready3 0#32) ∧ (∀ i, i < 9 → (ready3 0#32).sup.read i = 0#32) ∧ (ready3 0#32).high = 0#32) ∧
    (traversalReady (field 3 3 0#32 0x3F800000#32 (List.replicate 9 0)) ∧ fLt 0#32 0x3F800000#32 = true) := by
  refine ⟨⟨ready3_ready.1, ?_, rfl⟩, ⟨rfl, rfl, ?_, ?_, ?_, ?_⟩, ?_⟩ <;> decide +kernel

/-- Two states that differ in what earlier runs left. -/
theorem witness_TraceDependsOnItsInputsOnly :
    traversalReady (ready3 0#32) ∧ traversalReady { ready3 0#32 with addr := 7#32, visit := memOf [1#1] } ∧
    sameTraversalInput (ready3 0#32) { ready3 0#32 with addr := 7#32, visit := memOf [1#1] } :=
  ⟨ready3_ready.1, ready3_ready.1, rfl, rfl, rfl, rfl, fun _ _ => rfl⟩

theorem witness_LstartConstructsTheProducer : traversalReady (ready3 0#32) := ready3_ready.1

/-- The producer right after `LSTART` on the smallest raster meets the invariant, whichever threshold of the two is set. -/
theorem live3_inv (high : Word) (h : thresholdsValid { live3 0#32 with high := high } = true) :
    Inv { live3 0#32 with high := high } where
  canonical := (by decide +kernel : (live3 0#32).memCanonical = true)
  sized := (by decide +kernel : (live3 0#32).memSized = true)
  noCause := fun _ => ⟨rfl, rfl, rfl⟩
  cause := fun hf => by cases hf
  accepted := fun i hb => by cases hb
  noProducer := fun _ hl => by cases hl
  producer := fun _ _ => {
    thresholds := h
    dims := (by decide +kernel : dimCheck (live3 0#32) = none)
    context := (by decide : (live3 0#32).phase ≠ .off)
    cursorX := (by decide +kernel : 1 ≤ (live3 0#32).sx.toNat ∧ (live3 0#32).sx.toNat + 2 ≤ (live3 0#32).w)
    cursorY := (by decide +kernel : 1 ≤ (live3 0#32).sy.toNat ∧ (live3 0#32).sy.toNat + 1 ≤ (live3 0#32).h)
    room := (by decide +kernel : (live3 0#32).sp.toNat + (live3 0#32).unvisited ≤ (live3 0#32).interiorCount)
    emptyStack := fun _ => rfl
    scanComplete := fun hd => by cases hd
    finalCursor := fun _ => rfl
    entries := fun j hj => absurd hj (Nat.not_lt_zero j)
    current := fun he => by cases he
    border := fun x y hx hy hb => by
      have hx : x < 3 := hx
      have hy : y < 3 := hy
      have : ∀ x < 3, ∀ y < 3, (live3 0#32).visit.read ((live3 0#32).idx x y) = 0#1 := by decide +kernel
      exact this x hx y hy
    yielded := fun hv => by cases hv
    finished := fun he => by cases he }

/-- A producer on a 4×4 raster, all candidates but (2, 2), after its second request: the stack holds (2, 1), and pixel (1, 1) is expanded
from offset 1 on. -/
def second : State :=
  { lstartBody (field 4 4 0 0 (List.replicate 10 0 ++ [0xBF800000] ++ List.replicate 5 0)) with
    visit := memOf ([0, 0, 0, 0] ++ [0, 1, 1, 0] ++ List.replicate 8 0), stack := memOf [0x00010002#32], sp := 1#32,
    sx := 2#16, sy := 1#16, phase := .expand, cx := 1#16, cy := 1#16, k := 1, pix := 0x00010002#32, valid := true }

theorem second_inv : Inv second where
  canonical := by decide +kernel
  sized := by decide +kernel
  noCause := fun _ => ⟨rfl, rfl, rfl⟩
  cause := fun hf => by cases hf
  accepted := fun i hb => by cases hb
  noProducer := fun _ hl => by cases hl
  producer := fun _ _ => {
    thresholds := by decide +kernel
    dims := by decide +kernel
    context := by decide
    cursorX := by decide +kernel
    cursorY := by decide +kernel
    room := by decide +kernel
    emptyStack := fun h => by rcases h with h | h <;> cases h
    scanComplete := fun hd => by cases hd
    finalCursor := by decide +kernel
    entries := by decide +kernel
    current := fun _ => by decide +kernel
    border := fun x y hx hy hb => by
      have hx : x < 4 := hx
      have hy : y < 4 := hy
      have : ∀ x : Nat, x < 4 → ∀ y : Nat, y < 4 → second.interior x y = false → second.visit.read (second.idx x y) = 0#1 := by decide +kernel
      exact this x hx y hy hb
    yielded := fun _ => ⟨.inr rfl, rfl⟩
    finished := fun he => by cases he }

/-- The raster of T9 with a stack of two entries: four steps of `TRACE`, then the third push.  The producer `second` with a stack of one
entry: one step that finds nothing, then a push. -/
theorem witness_StackOverflowFaults :
    (traversalReady (field 4 4 0 0 (List.replicate 16 0)) ∧ (field 4 4 0 0 (List.replicate 16 0)).faultCause = .none ∧
      ∃ u, tracerRun 2 4 (traceStart (field 4 4 0 0 (List.replicate 16 0))) = some u ∧ u.discovers ∧ u.sp.toNat = 2) ∧
    after (traceBody 2 (field 4 4 0 0 (List.replicate 16 0))) (fun t => decide (t.faultCause = .stackOvf)) = true ∧
    (Inv second ∧ second.opstate = .idle ∧ second.live = true ∧ second.sp.toNat ≤ 1 ∧
      ∃ u, quietRun 1 1 second = some u ∧ u.discovers ∧ u.sp.toNat = 1) ∧
    after (lnextBody 1 second) (fun t => decide (t.faultCause = .stackOvf)) = true := by
  refine ⟨⟨⟨rfl, rfl, ?_, ?_, ?_, ?_⟩, rfl, _, rfl, .inr ⟨rfl, ⟨?_, ?_⟩, ?_⟩, ?_⟩, ?_,
    ⟨second_inv, rfl, rfl, ?_, _, rfl, .inr ⟨rfl, ⟨?_, ?_⟩, ?_⟩, ?_⟩, ?_⟩ <;> decide +kernel

/-- A request that yields and one that is exhausted. -/
theorem witness_LnextYieldsOrIsExhausted :
    (Inv { live3 0#32 with high := 0#32 } ∧ ({ live3 0#32 with high := 0#32 } : State).opstate = .idle ∧
      ({ live3 0#32 with high := 0#32 } : State).live = true) ∧
    after (exec .lnext { live3 0#32 with high := 0#32 }) (fun t => t.valid) = true ∧
    Inv { live3 0#32 with high := 0x3F800000#32 } ∧
    after (exec .lnext { live3 0#32 with high := 0x3F800000#32 }) (fun t => t.exhausted) = true := by
  refine ⟨⟨live3_inv _ ?_, rfl, rfl⟩, ?_, live3_inv _ ?_, ?_⟩ <;> decide +kernel

theorem witness_ExhaustedStaysExhausted :
    ({ live3 0#32 with phase := .done } : State).opstate = .idle ∧ ({ live3 0#32 with phase := .done } : State).live = true ∧
    ({ live3 0#32 with phase := .done } : State).phase = .done := ⟨rfl, rfl, rfl⟩

theorem witness_LdropDiscardsTheProducer : (live3 0#32).opstate = .idle ∧ State.reset.opstate = .idle := ⟨rfl, rfl⟩

theorem witness_SuspendedProducerIsUntouched :
    (live3 0#32).opstate = .idle ∧ (live3 0#32).live = true ∧
    ∀ i ∈ [Instr.nop, .hypot, .hypq, .dirq, .lds .visit true, .sts .out true, .sts .sup false], ∃ t, exec i (live3 0#32) = .next t := by
  refine ⟨rfl, rfl, fun i hi => ?_⟩
  simp only [List.mem_cons, List.not_mem_nil, or_false] at hi
  rcases hi with rfl | rfl | rfl | rfl | rfl | rfl | rfl <;> exact ⟨_, rfl⟩

theorem witness_LazyAndEagerAgree : traversalReady (ready3 0#32) := ready3_ready.1

/-- The last index in range of a raster and of a stack of one entry. -/
theorem witness_LdsLoadsOneSample :
    (idleOf 3 3).opstate = .idle ∧ (∀ sp, sp ≠ .stack → indexInRange sp { idleOf 3 3 with addr := 8#32 }) ∧
    indexInRange .stack { idleOf 3 3 with sp := 1#32 } :=
  ⟨rfl, fun _ h => .inl ⟨h, by decide +kernel, by decide +kernel⟩, .inr ⟨rfl, by decide +kernel⟩⟩

theorem witness_StsStoresOneSample :
    (idleOf 3 3).opstate = .idle ∧ (∀ sp : Space, ¬(sp = .sup ∧ (idleOf 3 3).live = true)) ∧
    ∀ sp, sp ≠ .stack → indexInRange sp { idleOf 3 3 with addr := 8#32 } :=
  ⟨rfl, fun _ h => (by cases h.2), witness_LdsLoadsOneSample.2.1⟩

/-- The first index out of range of a raster, of an empty stack, and a raster without samples. -/
theorem witness_OutOfRangeFaults :
    (∀ sp, ¬indexInRange sp { idleOf 3 3 with addr := 9#32 }) ∧ ¬indexInRange .stack (idleOf 3 3) ∧
    (idleOf 3 3).live = false ∧ (idleOf 0 5).w = 0 ∧ (idleOf 5 0).h = 0 := by
  refine ⟨fun sp h => ?_, fun h => ?_, rfl, rfl, rfl⟩
  · rcases h with h | h
    · exact absurd h.2.1 (by decide +kernel)
    · exact absurd h.2 (by decide +kernel)
  · rcases h with h | h
    · exact h.1 rfl
    · exact absurd h.2 (by decide +kernel)

theorem witness_StepsKeepMemoryCanonical :
    (live3 0#32).memCanonical = true ∧ step (live3 0#32) = .next (live3 0#32) := ⟨by decide +kernel, rfl⟩

theorem witness_StepsKeepTheInvariant :
    Inv { live3 0#32 with high := 0#32 } ∧
    step { live3 0#32 with high := 0#32 } = .next { live3 0#32 with high := 0#32 } := ⟨live3_inv _ (by decide +kernel), rfl⟩

theorem witness_EveryStepHasANextState : Inv { live3 0#32 with high := 0#32 } := live3_inv _ (by decide +kernel)

theorem witness_LiveProducerKeepsItsInputs :
    Inv { live3 0#32 with high := 0#32 } ∧ ({ live3 0#32 with high := 0#32 } : State).opstate ≠ .faulted ∧
    ({ live3 0#32 with high := 0#32 } : State).live = true ∧
    step { live3 0#32 with high := 0#32 } = .next { live3 0#32 with high := 0#32 } :=
  ⟨live3_inv _ (by decide +kernel), by decide, rfl, rfl⟩

theorem witness_StagesPreserveTheirInputs :
    (ready3 0#32).opstate = .idle ∧ (∃ t, exec .ldrop (ready3 0#32) = .next t) ∧ ∀ sp inc, Instr.ldrop ≠ .sts sp inc :=
  ⟨rfl, ⟨_, rfl⟩, fun _ _ h => by cases h⟩

end Sys2Proof.Tests
end

section
/-! The quiet binary32 comparisons (00_scope.md R10) follow the values. The idea: `orderKey` is the value up to a strictly monotone
map. The magnitude bits `m` of a finite pattern denote `magnitudeUnits m` units of 2^-149 (the least subnormal), and one more in `m` is
one unit in the last place more, so the map is strictly monotone; it extends to negative keys as an odd function and to the keys of the
two infinities by ⊤ and ⊥. -/

open Sys2Proof Sys2Proof.Machine Sys2Proof.Statement

namespace Sys2Proof.Proofs

/-! ### The fields of a bit pattern -/

/-- The order key of +infinity: the least magnitude with exponent field 255. -/
def infKey : ℤ := 255 * 2 ^ 23

theorem expField_toNat (a : Word) : (expField a).toNat = (a.extractLsb' 0 31).toNat / 2 ^ 23 := by
  simp only [expField, BitVec.extractLsb'_toNat, Nat.shiftRight_eq_div_pow]
  omega

theorem fracField_toNat (a : Word) : (fracField a).toNat = (a.extractLsb' 0 31).toNat % 2 ^ 23 := by
  simp only [fracField, BitVec.extractLsb'_toNat, Nat.shiftRight_eq_div_pow]
  omega

theorem natAbs_orderKey (a : Word) : (orderKey a).natAbs = (a.extractLsb' 0 31).toNat := by
  unfold orderKey
  split <;> omega

theorem isFinite_iff_orderKey (a : Word) : isFinite a = true ↔ -infKey < orderKey a ∧ orderKey a < infKey := by
  have hm : (a.extractLsb' 0 31).toNat < 2 ^ 31 := BitVec.isLt _
  have he := expField_toNat a
  have hk := natAbs_orderKey a
  simp only [isFinite, decide_eq_true_eq, ne_eq, ← BitVec.toNat_inj, he, BitVec.toNat_ofNat, infKey]
  omega

theorem isNaN_eq_false_iff_orderKey (a : Word) : isNaN a = false ↔ orderKey a ∈ Set.Icc (-infKey) infKey := by
  have hm : (a.extractLsb' 0 31).toNat < 2 ^ 31 := BitVec.isLt _
  have he := expField_toNat a
  have hf := fracField_toNat a
  have hk := natAbs_orderKey a
  simp only [isNaN, Bool.and_eq_false_iff, decide_eq_false_iff_not, ne_eq, not_not, ← BitVec.toNat_inj, he, hf, BitVec.toNat_ofNat,
    infKey, Set.mem_Icc]
  omega

theorem isNaN_of_isFinite {a : Word} (h : isFinite a = true) : isNaN a = false := by
  obtain ⟨hl, hu⟩ := (isFinite_iff_orderKey a).1 h
  exact (isNaN_eq_false_iff_orderKey a).2 ⟨hl.le, hu.le⟩

/-- Only for a key that is not 0: the sign bit of -0.0 is set and its key is 0. -/
theorem signBit_iff_orderKey_neg {a : Word} (h : orderKey a ≠ 0) : a.getLsbD 31 = true ↔ orderKey a < 0 := by
  unfold orderKey at h ⊢
  by_cases hs : a.getLsbD 31 = true
  · simp only [hs, if_true, true_iff] at h ⊢
    omega
  · simp only [hs, Bool.false_eq_true, if_false, false_iff] at h ⊢
    omega

/-! ### Magnitude bits as multiples of the least subnormal -/

/-- The value of the magnitude bits `m`, exponent field above fraction field, in units of 2^-149. -/
def magnitudeUnits (m : ℕ) : ℕ :=
  if m / 2 ^ 23 = 0 then m % 2 ^ 23 else (2 ^ 23 + m % 2 ^ 23) * 2 ^ (m / 2 ^ 23 - 1)

/-- The next magnitude is one unit in the last place above, also where the fraction carries into the exponent field. -/
theorem magnitudeUnits_succ (m : ℕ) : magnitudeUnits (m + 1) = magnitudeUnits m + 2 ^ (m / 2 ^ 23 - 1) := by
  by_cases hcarry : m % 2 ^ 23 + 1 < 2 ^ 23
  · have hq : (m + 1) / 2 ^ 23 = m / 2 ^ 23 := by omega
    have hr : (m + 1) % 2 ^ 23 = m % 2 ^ 23 + 1 := by omega
    simp only [magnitudeUnits, hq, hr]
    rcases m / 2 ^ 23 with _ | q
    · rfl
    · simp only [Nat.add_one_ne_zero, if_false, Nat.add_sub_cancel]
      ring
  · have hq : (m + 1) / 2 ^ 23 = m / 2 ^ 23 + 1 := by omega
    have hr : (m + 1) % 2 ^ 23 = 0 := by omega
    have hm : m % 2 ^ 23 = 2 ^ 23 - 1 := by omega
    simp only [magnitudeUnits, hq, hr, hm]
    rcases m / 2 ^ 23 with _ | q
    · rfl
    · simp only [Nat.add_one_ne_zero, if_false, Nat.add_sub_cancel, pow_succ 2 q]
      omega

theorem magnitudeUnits_strictMono : StrictMono magnitudeUnits :=
  strictMono_nat_of_lt_succ fun m => by
    rw [magnitudeUnits_succ]
    exact Nat.lt_add_of_pos_right (by positivity)

/-! ### Order keys as values -/

/-- `magnitudeUnits` on signed keys, as an odd function. -/
def keyUnits (k : ℤ) : ℤ := k.sign * magnitudeUnits k.natAbs

theorem keyUnits_natCast (m : ℕ) : keyUnits m = magnitudeUnits m := by
  rcases eq_or_ne m 0 with rfl | hm
  · rfl
  · rw [keyUnits, Int.natAbs_natCast, Int.sign_natCast_of_ne_zero hm, one_mul]

theorem keyUnits_neg (k : ℤ) : keyUnits (-k) = -keyUnits k := by
  simp [keyUnits]

theorem keyUnits_strictMono : StrictMono keyUnits := by
  refine strictMono_of_odd_strictMonoOn_nonneg keyUnits_neg fun x hx y hy hxy => ?_
  lift x to ℕ using hx
  lift y to ℕ using hy
  simp only [keyUnits_natCast]
  exact_mod_cast magnitudeUnits_strictMono (by exact_mod_cast hxy)

theorem f32Value_eq_keyUnits (a : Word) : f32Value a = (keyUnits (orderKey a) : ℝ) * 2 ^ (-149 : ℤ) := by
  have hmag : (if expField a = 0#8 then ((fracField a).toNat : ℝ) * 2 ^ (-149 : ℤ)
      else ((2 ^ 23 + (fracField a).toNat : ℕ) : ℝ) * 2 ^ (((expField a).toNat : ℤ) - 150)) =
      (magnitudeUnits (a.extractLsb' 0 31).toNat : ℝ) * 2 ^ (-149 : ℤ) := by
    simp only [magnitudeUnits, ← expField_toNat, ← fracField_toNat, ← BitVec.toNat_inj, BitVec.toNat_ofNat, Nat.zero_mod]
    rcases (expField a).toNat with _ | e
    · rfl
    · have hpow : (2 : ℝ) ^ (((e + 1 : ℕ) : ℤ) - 150) = 2 ^ e * 2 ^ (-149 : ℤ) := by
        rw [← zpow_natCast, ← zpow_add₀ two_ne_zero]
        push_cast
        ring_nf
      simp only [Nat.add_one_ne_zero, if_false, Nat.add_sub_cancel, hpow]
      push_cast
      ring
  rw [f32Value, hmag, orderKey]
  split
  · rw [keyUnits_neg, keyUnits_natCast]
    push_cast
    ring
  · rw [keyUnits_natCast, one_mul, Int.cast_natCast]

/-- The value of a key, in the extended reals. -/
noncomputable def keyExtended (k : ℤ) : EReal :=
  if k ≤ -infKey then ⊥ else if infKey ≤ k then ⊤ else (((keyUnits k : ℝ) * 2 ^ (-149 : ℤ) : ℝ) : EReal)

theorem keyExtended_strictMonoOn : StrictMonoOn keyExtended (Set.Icc (-infKey) infKey) := by
  rintro x ⟨hx, -⟩ y ⟨-, hy⟩ hxy
  have hxtop : ¬ infKey ≤ x := by omega
  have hybot : ¬ y ≤ -infKey := by omega
  simp only [keyExtended, hxtop, hybot, if_false]
  split <;> split
  · exact bot_lt_top
  · exact EReal.bot_lt_coe _
  · exact EReal.coe_lt_top _
  · have hunits : (keyUnits x : ℝ) < keyUnits y := by exact_mod_cast keyUnits_strictMono hxy
    exact EReal.coe_lt_coe_iff.2 (mul_lt_mul_of_pos_right hunits (by positivity))

theorem f32Extended_of_isFinite {a : Word} (h : isFinite a = true) : f32Extended a = (f32Value a : EReal) := by
  rw [f32Extended, if_pos h]

theorem f32Extended_eq_keyExtended {a : Word} (h : isNaN a = false) : f32Extended a = keyExtended (orderKey a) := by
  have hinf : (0 : ℤ) < infKey := by decide
  obtain ⟨hl, hu⟩ := (isNaN_eq_false_iff_orderKey a).1 h
  by_cases hfin : isFinite a = true
  · obtain ⟨hl', hu'⟩ := (isFinite_iff_orderKey a).1 hfin
    rw [f32Extended_of_isFinite hfin, keyExtended, if_neg hl'.not_ge, if_neg hu'.not_ge, f32Value_eq_keyUnits]
  · have hedge : orderKey a = -infKey ∨ orderKey a = infKey := by
      rw [isFinite_iff_orderKey] at hfin
      omega
    have hsign := signBit_iff_orderKey_neg (a := a) (by omega)
    rw [f32Extended, if_neg hfin]
    rcases hedge with hk | hk
    · rw [if_pos (hsign.2 (by omega)), keyExtended, if_pos hk.le]
    · rw [if_neg (hsign.not.2 (by omega)), keyExtended, if_neg (by omega), if_pos hk.ge]

@[simp] theorem f32Extended_posInf : f32Extended 0x7F800000#32 = ⊤ := by
  rw [f32Extended, if_neg (by decide), if_neg (by decide)]

@[simp] theorem f32Extended_negInf : f32Extended 0xFF800000#32 = ⊥ := by
  rw [f32Extended, if_neg (by decide), if_pos (by decide)]

/-! ### The comparisons -/

theorem comparisons_of_isNaN {a b : Word} (h : isNaN a = true ∨ isNaN b = true) :
    fLt a b = false ∧ fLe a b = false ∧ fGe a b = false := by
  rcases h with h | h <;> simp [fLt, fLe, fGe, h]

theorem fGe_eq_fLe_swap (a b : Word) : fGe a b = fLe b a := by
  rw [fGe, fLe, Bool.and_comm (!isNaN a)]

section NotNaN
variable {a b : Word} (ha : isNaN a = false) (hb : isNaN b = false)
include ha hb

theorem fLt_iff_f32Extended : fLt a b = true ↔ f32Extended a < f32Extended b := by
  rw [f32Extended_eq_keyExtended ha, f32Extended_eq_keyExtended hb, keyExtended_strictMonoOn.lt_iff_lt
    ((isNaN_eq_false_iff_orderKey a).1 ha) ((isNaN_eq_false_iff_orderKey b).1 hb)]
  simp [fLt, ha, hb]

theorem fLe_iff_f32Extended : fLe a b = true ↔ f32Extended a ≤ f32Extended b := by
  rw [f32Extended_eq_keyExtended ha, f32Extended_eq_keyExtended hb, keyExtended_strictMonoOn.le_iff_le
    ((isNaN_eq_false_iff_orderKey a).1 ha) ((isNaN_eq_false_iff_orderKey b).1 hb)]
  simp [fLe, ha, hb]

theorem fGe_iff_f32Extended : fGe a b = true ↔ f32Extended b ≤ f32Extended a := by
  rw [fGe_eq_fLe_swap, fLe_iff_f32Extended hb ha]

end NotNaN

section Finite
variable {a b : Word} (ha : isFinite a = true) (hb : isFinite b = true)
include ha hb

theorem fLt_iff_f32Value : fLt a b = true ↔ f32Value a < f32Value b := by
  rw [fLt_iff_f32Extended (isNaN_of_isFinite ha) (isNaN_of_isFinite hb), f32Extended_of_isFinite ha, f32Extended_of_isFinite hb,
    EReal.coe_lt_coe_iff]

theorem fLe_iff_f32Value : fLe a b = true ↔ f32Value a ≤ f32Value b := by
  rw [fLe_iff_f32Extended (isNaN_of_isFinite ha) (isNaN_of_isFinite hb), f32Extended_of_isFinite ha, f32Extended_of_isFinite hb,
    EReal.coe_le_coe_iff]

theorem fGe_iff_f32Value : fGe a b = true ↔ f32Value b ≤ f32Value a := by
  rw [fGe_eq_fLe_swap, fLe_iff_f32Value hb ha]

end Finite

theorem fLt_infinities_of_isFinite {a : Word} (h : isFinite a = true) :
    fLt a 0x7F800000#32 = true ∧ fLt 0xFF800000#32 a = true := by
  rw [fLt_iff_f32Extended (isNaN_of_isFinite h) (by decide), fLt_iff_f32Extended (by decide) (isNaN_of_isFinite h),
    f32Extended_posInf, f32Extended_negInf, f32Extended_of_isFinite h]
  exact ⟨EReal.coe_lt_top _, EReal.bot_lt_coe _⟩

theorem fLe_infinities_of_not_isNaN {a : Word} (h : isNaN a = false) :
    fLe a 0x7F800000#32 = true ∧ fLe 0xFF800000#32 a = true := by
  rw [fLe_iff_f32Extended h (by decide), fLe_iff_f32Extended (by decide) h, f32Extended_posInf, f32Extended_negInf]
  exact ⟨le_top, bot_le⟩

/-- Both zeros have the order key 0. -/
theorem f32Value_negZero : f32Value 0x80000000#32 = f32Value 0x00000000#32 := by
  have hkey : orderKey 0x80000000#32 = orderKey 0x00000000#32 := by decide
  rw [f32Value_eq_keyUnits, f32Value_eq_keyUnits, hkey]

/-- Settles O28: `orderKey` is the value up to the strictly monotone `keyExtended`. -/
theorem comparisonsFollowValues : Obligations.ComparisonsFollowValues :=
  ⟨fun _ _ => comparisons_of_isNaN,
    fun _ _ ha hb => ⟨fLt_iff_f32Value ha hb, fLe_iff_f32Value ha hb, fGe_iff_f32Value ha hb⟩,
    fun _ _ ha hb => ⟨fLt_iff_f32Extended ha hb, fLe_iff_f32Extended ha hb, fGe_iff_f32Extended ha hb⟩,
    f32Extended_posInf, f32Extended_negInf,
    fun _ => fLt_infinities_of_isFinite, fun _ => fLe_infinities_of_not_isNaN, f32Value_negZero⟩

end Sys2Proof.Proofs
end

section
/-! The pixels of a raster (00_scope.md R8): where an interior pixel lies, how many there are, and how many stay Unvisited when one
of them is visited (10_state.md R54, 43_hysteresis_tracer_eager.md R212). -/

open Sys2Proof Sys2Proof.Machine

namespace Sys2Proof.Proofs

variable {s : State}

/-! ### Positions -/

theorem interior_iff {x y : Int} :
    s.interior x y = true ↔ 1 ≤ x ∧ x ≤ (s.w : Int) - 2 ∧ 1 ≤ y ∧ y ≤ (s.h : Int) - 2 := by
  simp only [State.interior, Bool.and_eq_true, decide_eq_true_eq, and_assoc]

theorem idx_mod {x : Nat} (hx : x < s.w) (y : Nat) : s.idx x y % s.w = x := by
  rw [State.idx, Nat.add_comm, Nat.add_mul_mod_self_right, Nat.mod_eq_of_lt hx]

theorem idx_div {x : Nat} (hx : x < s.w) (y : Nat) : s.idx x y / s.w = y := by
  rw [State.idx, Nat.add_comm, Nat.add_mul_div_right _ _ (by omega), Nat.div_eq_of_lt hx, Nat.zero_add]

theorem idx_lt_area {x y : Nat} (hx : x < s.w) (hy : y < s.h) : s.idx x y < s.area := by
  have hrow : (y + 1) * s.w ≤ s.h * s.w := Nat.mul_le_mul_right _ hy
  rw [State.idx, State.area, Nat.mul_comm s.w]
  linarith [Nat.succ_mul y s.w]

theorem idx_lt_area_of_interior {x y : Nat} (h : s.interior x y = true) : s.idx x y < s.area := by
  obtain ⟨-, hx, -, hy⟩ := interior_iff.1 h
  exact idx_lt_area (by omega) (by omega)

/-- A border pixel and an interior pixel have different indices. -/
theorem idx_ne_of_border {x y x' y' : Nat} (hx : x < s.w) (hb : s.interior x y = false) (hi : s.interior x' y' = true) :
    s.idx x y ≠ s.idx x' y' := by
  intro he
  have hx' : x' < s.w := by
    obtain ⟨-, hu, -, -⟩ := interior_iff.1 hi
    omega
  have ex : x = x' := by rw [← idx_mod hx y, he, idx_mod hx']
  have ey : y = y' := by rw [← idx_div hx y, he, idx_div hx']
  rw [ex, ey, hi] at hb
  exact absurd hb (by decide)

/-! ### Counts -/

theorem countP_range_exclude {n k : Nat} (p : Nat → Bool) (hk : k < n) (hp : p k = true) :
    (List.range n).countP (fun i => decide (i ≠ k) && p i) + 1 = (List.range n).countP p := by
  have hperm := List.perm_cons_erase (List.mem_range.2 hk)
  have hrest : ((List.range n).erase k).countP (fun i => decide (i ≠ k) && p i) = ((List.range n).erase k).countP p := by
    refine List.countP_congr fun i hi => ?_
    simp [(List.nodup_range.mem_erase_iff.1 hi).1]
  rw [hperm.countP_eq, hperm.countP_eq, List.countP_cons, List.countP_cons, hrest]
  simp [hp]

/-- The pixel of an index is interior and Unvisited. -/
def unvisitedAt (s : State) (i : Nat) : Bool :=
  s.interior ((i % s.w : Nat) : Int) ((i / s.w : Nat) : Int) && decide (s.visit.read i = 0#1)

theorem unvisited_eq_countP (s : State) : s.unvisited = (List.range s.area).countP (unvisitedAt s) := rfl

theorem unvisitedAt_idx {x y : Nat} (hi : s.interior x y = true) (hv : s.visit.read (s.idx x y) = 0#1) :
    unvisitedAt s (s.idx x y) = true := by
  have hx : x < s.w := by
    obtain ⟨-, hu, -, -⟩ := interior_iff.1 hi
    omega
  rw [unvisitedAt, idx_mod hx, idx_div hx, hi, hv]
  rfl

theorem unvisitedAt_write_visit (s : State) (k : Nat) :
    unvisitedAt { s with visit := s.visit.write k 1#1 } = fun i => decide (i ≠ k) && unvisitedAt s i := by
  funext i
  have hv : decide ((s.visit.write k 1#1).read i = 0#1) = (decide (i ≠ k) && decide (s.visit.read i = 0#1)) := by
    by_cases he : i = k <;> simp [he, Mem.read_write]
  exact (congrArg _ hv).trans (Bool.and_left_comm _ _ _)

/-- Visiting an Unvisited interior pixel leaves one Unvisited pixel less. -/
theorem unvisited_write_visit {x y : Nat} (hi : s.interior x y = true) (hv : s.visit.read (s.idx x y) = 0#1) :
    ({ s with visit := s.visit.write (s.idx x y) 1#1 } : State).unvisited + 1 = s.unvisited := by
  rw [unvisited_eq_countP, unvisitedAt_write_visit, unvisited_eq_countP s]
  exact countP_range_exclude _ (idx_lt_area_of_interior hi) (unvisitedAt_idx hi hv)

/-- There are at most `(W − 2)·(H − 2)` interior pixels, so no more of them are Unvisited. -/
theorem unvisited_le_interiorCount (s : State) : s.unvisited ≤ s.interiorCount := by
  have hinj : ((Finset.range s.area).filter (unvisitedAt s ·)).card ≤
      (Finset.Icc 1 (s.w - 2) ×ˢ Finset.Icc 1 (s.h - 2)).card := by
    refine Finset.card_le_card_of_injOn (fun i => (i % s.w, i / s.w)) (fun i hi => ?_) (fun i _ j _ hij => ?_)
    · obtain ⟨-, hu⟩ := Finset.mem_filter.1 hi
      obtain ⟨hx, hx', hy, hy'⟩ := interior_iff.1 (Bool.and_eq_true_iff.1 hu).1
      simp only [Finset.coe_product, Set.mem_prod, Finset.mem_coe, Finset.mem_Icc]
      omega
    · obtain ⟨hx, hy⟩ := Prod.mk.inj hij
      rw [← Nat.div_add_mod i s.w, hx, hy, Nat.div_add_mod]
  simpa [← Nat.count_eq_card_filter_range, Nat.count, State.interiorCount, unvisited_eq_countP] using hinj

end Sys2Proof.Proofs
end

section
/-! One step of the tracer (43_hysteresis_tracer_eager.md R203 to R207) as a relation with one constructor for each thing the step can
do, so that a property of steps is one case analysis; and from it, what a step does to the visit map (10_state.md R54). -/

open Sys2Proof Sys2Proof.Machine

namespace Sys2Proof.Proofs

variable {depth : Nat} {s t : State} {e : Event}

/-- The phase set, nothing else. -/
def inPhase (p : Phase) (u : State) : State := { u with phase := p }

@[simp] theorem inPhase_visit (p : Phase) (u : State) : (inPhase p u).visit = u.visit := rfl

@[simp] theorem inPhase_idx (p : Phase) (u : State) (a b : Nat) : (inPhase p u).idx a b = u.idx a b := rfl

/-- The pixel visited and pushed (R203, R206). -/
def markAndPush (x y : Half) (u : State) : State :=
  { u with
    visit := u.visit.write (u.idx x.toNat y.toNat) 1#1, stack := u.stack.write u.sp.toNat (coordWord x y), sp := u.sp + 1#32 }

/-- The pixel on top of the stack is popped for expansion (R204). -/
def popForExpansion (u : State) : State :=
  { u with
    sp := u.sp - 1#32, cx := coordX (u.stack.read (u.sp - 1#32).toNat), cy := coordY (u.stack.read (u.sp - 1#32).toNat),
    k := 0, phase := .expand }

/-- Which next state and event a step of the tracer answers, with the conditions of each case. -/
inductive TracerStep (depth : Nat) (s : State) : State → Event → Prop
  | stay (hp : s.phase = .done) : TracerStep depth s s .done
  | finish (hp : s.phase = .scan) (hy : s.h ≤ s.sy.toNat + 1) : TracerStep depth s (inPhase .done s) .done
  | skip (hp : s.phase = .scan) (hy : s.sy.toNat + 1 < s.h) (hq : qualifies s s.high s.sx.toNat s.sy.toNat = false) :
      TracerStep depth s (advanceCursor s) .none
  | seed (hp : s.phase = .scan) (hy : s.sy.toNat + 1 < s.h) (hq : qualifies s s.high s.sx.toNat s.sy.toNat = true)
      (room : s.sp.toNat < depth) :
      TracerStep depth s (markAndPush s.sx s.sy (inPhase .pop (advanceCursor s))) (.found s.sx s.sy)
  | resume (hp : s.phase = .pop) (hz : s.sp = 0#32) : TracerStep depth s (inPhase .scan s) .none
  | take (hp : s.phase = .pop) (hz : s.sp ≠ 0#32) : TracerStep depth s (popForExpansion s) .none
  | pass (hp : s.phase = .expand)
      (hq : (s.interior (s.cx.toNat + offsetX s.k) (s.cy.toNat + offsetY s.k) &&
        qualifies s s.low (s.cx.toNat + offsetX s.k : Int).toNat (s.cy.toNat + offsetY s.k : Int).toNat) = false) :
      TracerStep depth s (nextNeighbour s) .none
  | spread (x y : Half) (hp : s.phase = .expand) (hx : (x.toNat : Int) = s.cx.toNat + offsetX s.k)
      (hy : (y.toNat : Int) = s.cy.toNat + offsetY s.k) (hi : s.interior x.toNat y.toNat = true)
      (hq : qualifies s s.low x.toNat y.toNat = true) (room : s.sp.toNat < depth) :
      TracerStep depth s (markAndPush x y (nextNeighbour s)) (.found x y)

/-- A discovery that answers a next state had room on the stack. -/
theorem discover_eq_step {x y : Half} {u : State} (h : discover depth x y u = .step t e) :
    u.sp.toNat < depth ∧ t = markAndPush x y u ∧ e = .found x y := by
  rcases discover_cases depth x y u with ⟨room, hd⟩ | ⟨-, hd⟩
  · rw [hd] at h
    obtain ⟨rfl, rfl⟩ := TOutcome.step.inj h
    exact ⟨room, rfl, rfl⟩
  · rw [hd] at h
    cases h

/-- An interior coordinate fits a `Half`. -/
theorem toNat_ofNat_of_interior {x y : Int} (hi : s.interior x y = true) :
    ((BitVec.ofNat 16 x.toNat).toNat : Int) = x ∧ ((BitVec.ofNat 16 y.toNat).toNat : Int) = y := by
  obtain ⟨hx, hx', hy, hy'⟩ := interior_iff.1 hi
  have hw : s.w < 65536 := s.width.isLt
  have hh : s.h < 65536 := s.height.isLt
  simp only [BitVec.toNat_ofNat]
  omega

theorem tracerStep_of_tStep (h : tStep depth s = .step t e) : TracerStep depth s t e := by
  rcases tStep_cases depth s with ⟨-, hs⟩ | ⟨hp, hs⟩ | ⟨hp, hy, hs⟩ | ⟨hp, hy, hq, hs⟩ | ⟨hp, hy, hq, hs⟩ | ⟨hp, hz, hs⟩ |
    ⟨hp, hz, hs⟩ | ⟨hp, hq, hs⟩ | ⟨hp, hq, hs⟩ <;> rw [hs] at h
  · cases h
  · cases h
    exact .stay hp
  · cases h
    exact .finish hp hy
  · cases h
    exact .skip hp hy hq
  · obtain ⟨room, rfl, rfl⟩ := discover_eq_step h
    exact .seed hp hy hq (by simpa using room)
  · cases h
    exact .resume hp hz
  · cases h
    exact .take hp hz
  · cases h
    exact .pass hp hq
  · obtain ⟨room, rfl, rfl⟩ := discover_eq_step h
    obtain ⟨hi, hq⟩ := Bool.and_eq_true_iff.1 hq
    obtain ⟨hx, hy⟩ := toNat_ofNat_of_interior hi
    refine .spread _ _ hp hx hy (by rwa [hx, hy]) ?_ (by simpa using room)
    rwa [← hx, ← hy, Int.toNat_natCast, Int.toNat_natCast] at hq

theorem qualifies_unvisited {threshold : Word} {x y : Nat} (h : qualifies s threshold x y = true) :
    s.visit.read (s.idx x y) = 0#1 := by
  simpa using (Bool.and_eq_true_iff.1 h).1

theorem markAndPush_visit (x y : Half) (u : State) :
    (markAndPush x y u).visit = u.visit.write (u.idx x.toNat y.toNat) 1#1 := rfl

/-- Settles O37: of the steps of the tracer only the two discoveries write the visit map, each at a pixel it found Unvisited. -/
theorem visitBitsNeverClear : Obligations.VisitBitsNeverClear := by
  intro depth s t e h
  cases tracerStep_of_tStep h with
  | seed hp hy hq _ =>
    refine ⟨fun x y he => ?_, fun hne => absurd rfl (hne _ _)⟩
    cases he
    refine ⟨qualifies_unvisited hq, fun i => ?_⟩
    simp [markAndPush_visit, Mem.read_write]
  | spread x y hp hx hy hi hq _ =>
    refine ⟨fun x y he => ?_, fun hne => absurd rfl (hne _ _)⟩
    cases he
    refine ⟨qualifies_unvisited hq, fun i => ?_⟩
    simp [markAndPush_visit, Mem.read_write]
  | skip | pass => exact ⟨fun _ _ he => (nomatch he), fun _ => by simp⟩
  | stay | finish | resume | take => exact ⟨fun _ _ he => (nomatch he), fun _ => rfl⟩

end Sys2Proof.Proofs
end

section
/-! What holds of every traversal state, of `TRACE` and of a live producer alike, and that every step of the tracer keeps it
(10_state.md R41, R45, R50, R54; 43_hysteresis_tracer_eager.md R212, R219). A discovery is shown from the state in which the cursor or
the neighbour index has moved on, which meets the invariant itself. -/

open Sys2Proof Sys2Proof.Machine

namespace Sys2Proof.Proofs

variable {depth : Nat} {s t : State} {e : Event}

theorem dimCheck_eq_none_iff : dimCheck s = none ↔ s.area ≤ Config.cap ∧ 3 ≤ s.w ∧ 3 ≤ s.h := by
  simp only [dimCheck, dimTooLarge, dimTooSmall, Bool.or_eq_true, decide_eq_true_eq]
  split
  · simp only [reduceCtorEq, false_iff]
    omega
  · split
    · simp only [reduceCtorEq, false_iff]
      omega
    · simp only [true_iff]
      omega

theorem interiorCount_le_area (s : State) : s.interiorCount ≤ s.area :=
  Nat.mul_le_mul (Nat.sub_le _ _) (Nat.sub_le _ _)

/-- `ProducerInv` without the thresholds and the flags, which no step of the tracer writes, and with the memories. -/
structure TraversalInv (s : State) : Prop where
  canonical : s.memCanonical = true
  sized : s.memSized = true
  dims : dimCheck s = none
  context : s.phase ≠ .off
  cursorX : 1 ≤ s.sx.toNat ∧ s.sx.toNat + 2 ≤ s.w
  cursorY : 1 ≤ s.sy.toNat ∧ s.sy.toNat + 1 ≤ s.h
  room : s.sp.toNat + s.unvisited ≤ s.interiorCount
  emptyStack : s.phase = .scan ∨ s.phase = .done → s.sp = 0#32
  scanComplete : s.phase = .done → s.sy.toNat + 1 = s.h
  finalCursor : s.sy.toNat + 1 = s.h → s.sx = 1#16
  entries : ∀ j, j < s.sp.toNat →
    s.interior (coordX (s.stack.read j)).toNat (coordY (s.stack.read j)).toNat = true
  current : s.phase = .expand → s.interior s.cx.toNat s.cy.toNat = true
  border : ∀ x y : Nat, x < s.w → y < s.h → s.interior x y = false → s.visit.read (s.idx x y) = 0#1

/-! ### The start of a traversal (R195) -/

theorem tInit_traversalInv (hc : s.memCanonical = true) (hs : s.memSized = true) (hd : dimCheck s = none) :
    TraversalInv (tInit s) := by
  obtain ⟨hcap, hw, hh⟩ := dimCheck_eq_none_iff.1 hd
  exact {
    canonical := by
      simp only [State.memCanonical, Bool.and_eq_true, tInit_visit] at hc ⊢
      simpa [hc] using Mem.wf_fill _ _ _ hc.1.2
    sized := by
      simp only [State.memSized, Bool.and_eq_true, tInit_visit] at hs ⊢
      simpa [hs] using Mem.within_fill _ _ _ _ hcap hs.1.2
    dims := hd
    context := by simp
    cursorX := by simpa using hw
    cursorY := by simp; omega
    room := by simpa using unvisited_le_interiorCount (tInit s)
    emptyStack := fun _ => rfl
    scanComplete := by simp
    finalCursor := fun _ => rfl
    entries := by simp
    current := by simp
    border := fun x y hx hy _ => by simpa using Mem.read_fill_lt _ _ (idx_lt_area (s := s) hx hy) }

/-! ### The parts of a step -/

theorem nextNeighbour_phase (hp : s.phase = .expand) :
    (nextNeighbour s).phase = .pop ∨ (nextNeighbour s).phase = .expand := by
  unfold nextNeighbour
  split
  · exact .inl rfl
  · exact .inr hp

/-- After a discovery the phase is one that pops it or expands (R210). -/
theorem phase_of_found {x y : Half} (h : tStep depth s = .step t (.found x y)) : t.phase = .pop ∨ t.phase = .expand := by
  cases tracerStep_of_tStep h with
  | seed => exact .inl rfl
  | spread _ _ hp => exact nextNeighbour_phase hp

theorem phase_of_done (h : tStep depth s = .step t .done) : t.phase = .done := by
  cases tracerStep_of_tStep h with
  | stay hp => exact hp
  | finish => rfl

namespace TraversalInv

theorem inPhase (h : TraversalInv s) {p : Phase} (hoff : p ≠ .off) (hempty : p = .scan ∨ p = .done → s.sp = 0#32)
    (hdone : p = .done → s.sy.toNat + 1 = s.h) (hexp : p = .expand → s.interior s.cx.toNat s.cy.toNat = true) :
    TraversalInv (Proofs.inPhase p s) :=
  { h with context := hoff, emptyStack := hempty, scanComplete := hdone, current := hexp }

theorem moveCursor (h : TraversalInv s) (hp : s.phase = .scan) {x y : Half} (hx : 1 ≤ x.toNat ∧ x.toNat + 2 ≤ s.w)
    (hy : 1 ≤ y.toNat ∧ y.toNat + 1 ≤ s.h) (hf : y.toNat + 1 = s.h → x = 1#16) : TraversalInv { s with sx := x, sy := y } :=
  { h with cursorX := hx, cursorY := hy, scanComplete := fun hd => absurd (hp.symm.trans hd) (by decide), finalCursor := hf }

/-- The cursor moves right, or to the start of the next row (R41). -/
theorem advanceCursor (h : TraversalInv s) (hp : s.phase = .scan) (hy : s.sy.toNat + 1 < s.h) :
    TraversalInv (Machine.advanceCursor s) := by
  obtain ⟨-, hw, -⟩ := dimCheck_eq_none_iff.1 h.dims
  have hw' : s.w < 65536 := s.width.isLt
  have hh' : s.h < 65536 := s.height.isLt
  unfold Machine.advanceCursor
  split
  · next hx =>
    have ex : (s.sx + 1#16).toNat = s.sx.toNat + 1 := BitVec.toNat_add_of_lt (by simp; omega)
    exact h.moveCursor hp (by omega) h.cursorY (by omega)
  · have ey : (s.sy + 1#16).toNat = s.sy.toNat + 1 := BitVec.toNat_add_of_lt (by simp; omega)
    exact h.moveCursor hp (by simpa using hw) (by omega) (fun _ => rfl)

/-- The next offset, or the return to `POP` after the sixth (R206). -/
theorem nextNeighbour (h : TraversalInv s) : TraversalInv (Machine.nextNeighbour s) := by
  unfold Machine.nextNeighbour
  split
  · exact { h with
      context := by simp, emptyStack := by simp, scanComplete := by simp, current := by simp }
  · exact { h with }

/-- A pixel is taken from the stack (R204). -/
theorem popForExpansion (h : TraversalInv s) (hz : s.sp ≠ 0#32) : TraversalInv (Proofs.popForExpansion s) := by
  have hsp : (s.sp - 1#32).toNat + 1 = s.sp.toNat := by bv_omega
  have hroom := h.room
  exact { h with
    context := by simp [Proofs.popForExpansion]
    room := show (s.sp - 1#32).toNat + s.unvisited ≤ s.interiorCount by omega
    emptyStack := by simp [Proofs.popForExpansion]
    scanComplete := by simp [Proofs.popForExpansion]
    entries := fun j (hj : j < (s.sp - 1#32).toNat) => h.entries j (by omega)
    current := fun _ => h.entries _ (by omega) }

/-- An Unvisited interior pixel is visited and pushed (R203, R206): the Unvisited pixels make the room on the stack. -/
theorem markAndPush (h : TraversalInv s) {x y : Half} (hp : s.phase = .pop ∨ s.phase = .expand)
    (hi : s.interior x.toNat y.toNat = true) (hv : s.visit.read (s.idx x.toNat y.toNat) = 0#1) :
    TraversalInv (Proofs.markAndPush x y s) := by
  obtain ⟨hcap, -, -⟩ := dimCheck_eq_none_iff.1 h.dims
  have hk : s.idx x.toNat y.toNat < Config.cap := (idx_lt_area_of_interior hi).trans_le hcap
  have hone := unvisited_write_visit hi hv
  have hroom := h.room
  have hlt : s.sp.toNat < Config.cap := by
    have := interiorCount_le_area s
    omega
  have hsp : (s.sp + 1#32).toNat = s.sp.toNat + 1 := BitVec.toNat_add_of_lt (by simp [Config.cap] at hlt ⊢; omega)
  have hphase : s.phase ≠ .scan ∧ s.phase ≠ .done := by rcases hp with hp | hp <;> simp [hp]
  exact { h with
    canonical := by
      have hc := h.canonical
      simp only [State.memCanonical, Bool.and_eq_true] at hc ⊢
      simp_all [Proofs.markAndPush, Mem.wf_write]
    sized := by
      have hs := h.sized
      simp only [State.memSized, Bool.and_eq_true] at hs ⊢
      simp_all [Proofs.markAndPush, Mem.within_write, Config.stackDepth]
    room := by
      show (s.sp + 1#32).toNat + ({ s with visit := s.visit.write (s.idx x.toNat y.toNat) 1#1 } : State).unvisited ≤ s.interiorCount
      omega
    emptyStack := fun he => by
      rcases he with he | he
      · exact absurd he hphase.1
      · exact absurd he hphase.2
    entries := fun j (hj : j < (s.sp + 1#32).toNat) => by
      show s.interior (coordX ((s.stack.write s.sp.toNat (coordWord x y)).read j)).toNat
        (coordY ((s.stack.write s.sp.toNat (coordWord x y)).read j)).toNat = true
      by_cases he : j = s.sp.toNat
      · simpa [he] using hi
      · rw [Mem.read_write_other _ _ he]
        exact h.entries j (by omega)
    border := fun a b ha hb hab => by
      refine (Mem.read_write_other _ _ ?_).trans (h.border a b ha hb hab)
      exact idx_ne_of_border ha hab hi }

/-! ### The step -/

/-- While the scan runs the cursor is on an interior pixel (R41). -/
theorem cursor_interior (h : TraversalInv s) (hy : s.sy.toNat + 1 < s.h) : s.interior s.sx.toNat s.sy.toNat = true := by
  obtain ⟨hx, hx'⟩ := h.cursorX
  obtain ⟨hy', -⟩ := h.cursorY
  exact interior_iff.2 (by omega)

/-- Only interior pixels are discovered (R219). -/
theorem interior_of_found (h : TraversalInv s) {x y : Half} (hs : tStep depth s = .step t (.found x y)) :
    s.interior x.toNat y.toNat = true := by
  cases tracerStep_of_tStep hs with
  | seed _ hy _ _ => exact h.cursor_interior hy
  | spread _ _ _ _ _ hi _ _ => exact hi

/-- Every step of the tracer keeps the invariant of the traversal. -/
theorem step (h : TraversalInv s) (hs : tStep depth s = .step t e) : TraversalInv t := by
  cases tracerStep_of_tStep hs with
  | stay => exact h
  | finish hp hy =>
    have := h.cursorY
    exact h.inPhase (by decide) (fun _ => h.emptyStack (.inl hp)) (fun _ => by omega) (fun hd => by cases hd)
  | skip hp hy hq => exact h.advanceCursor hp hy
  | seed hp hy hq _ =>
    refine ((h.advanceCursor hp hy).inPhase (p := .pop) (by decide) ?_ ?_ ?_).markAndPush (.inl rfl) ?_ ?_
    · simp
    · simp
    · simp
    · exact (advanceCursor_interior s _ _).trans (h.cursor_interior hy)
    · simpa using qualifies_unvisited hq
  | resume hp hz => exact h.inPhase (by decide) (fun _ => hz) (fun hd => by cases hd) (fun hd => by cases hd)
  | take hp hz => exact h.popForExpansion hz
  | pass hp _ => exact h.nextNeighbour
  | spread x y hp hx hy hi hq _ =>
    refine (h.nextNeighbour).markAndPush ?_ ?_ ?_
    · exact nextNeighbour_phase hp
    · simpa using hi
    · simpa using qualifies_unvisited hq

end TraversalInv

/-! ### What the tracer leaves alone (R200) -/

/-- The two states differ in nothing but `OUT` and what a traversal keeps. -/
def sameOutsideTraversal (s t : State) : Prop :=
  t = { s with
    out := t.out, visit := t.visit, stack := t.stack, sp := t.sp, sx := t.sx, sy := t.sy, phase := t.phase, cx := t.cx,
    cy := t.cy, k := t.k }

theorem sameOutsideTraversal_trans {u : State} (hu : sameOutsideTraversal s u) (ht : sameOutsideTraversal u t) :
    sameOutsideTraversal s t := by
  unfold sameOutsideTraversal
  rw [ht, hu]

theorem sameOutsideTraversal_step (h : tStep depth s = .step t e) : sameOutsideTraversal s t := by
  unfold sameOutsideTraversal
  cases tracerStep_of_tStep h with
  | skip => rw [advanceCursor_eq]
  | seed => rw [advanceCursor_eq]; rfl
  | pass => rw [nextNeighbour_eq]
  | spread => rw [nextNeighbour_eq]; rfl
  | stay | finish | resume | take => rfl

/-! ### Where the commands' loops end -/

theorem TraversalInv.writeForeground (h : TraversalInv s) {x y : Half} (hi : s.interior x.toNat y.toNat = true) :
    TraversalInv (Machine.writeForeground x y s) := by
  obtain ⟨hcap, -, -⟩ := dimCheck_eq_none_iff.1 h.dims
  have hk : s.idx x.toNat y.toNat < Config.cap := (idx_lt_area_of_interior hi).trans_le hcap
  exact { h with
    canonical := by
      have hc := h.canonical
      simp only [State.memCanonical, Bool.and_eq_true] at hc ⊢
      simp_all [Machine.writeForeground, Mem.wf_write]
    sized := by
      have hs := h.sized
      simp only [State.memSized, Bool.and_eq_true] at hs ⊢
      simp_all [Machine.writeForeground, Mem.within_write] }

theorem traceStart_traversalInv (hc : s.memCanonical = true) (hs : s.memSized = true) (hd : dimCheck s = none) :
    TraversalInv (traceStart s) := by
  obtain ⟨hcap, -, -⟩ := dimCheck_eq_none_iff.1 hd
  refine tInit_traversalInv ?_ ?_ hd
  · simp only [State.memCanonical, Bool.and_eq_true] at hc ⊢
    simp_all [Mem.wf_fill]
  · simp only [State.memSized, Bool.and_eq_true] at hs ⊢
    simp_all [Mem.within_fill]

/-- A request that answers a next state has yielded a pixel, reported exhaustion, or overflowed (R234, R293). -/
theorem lnextBody_cases (h : TraversalInv s) (hb : lnextBody depth s = .next t) :
    (∃ u x y, TraversalInv u ∧ sameOutsideTraversal s u ∧ (u.phase = .pop ∨ u.phase = .expand) ∧ t = yieldPixel x y u) ∨
    (∃ u, TraversalInv u ∧ sameOutsideTraversal s u ∧ u.phase = .done ∧ t = reportExhausted u) ∨
    t = stackOverflow .lnext s := by
  have keep : ∀ u v, TraversalInv u ∧ sameOutsideTraversal s u → tStep depth u = .step v .none →
      TraversalInv v ∧ sameOutsideTraversal s v :=
    fun u v ⟨hu, hsu⟩ hv => ⟨hu.step hv, sameOutsideTraversal_trans hsu (sameOutsideTraversal_step hv)⟩
  rcases nextLoop_induct _ keep (nextBound s) s ⟨h, rfl⟩ with ⟨u, v, x, y, ⟨hu, hsu⟩, hv, hl⟩ | ⟨u, v, ⟨hu, hsu⟩, hv, hl⟩ |
    ⟨-, -, -, hl⟩ | ⟨-, -, -, hl⟩ | hl <;> simp only [lnextBody, hl, Host.Outcome.next.injEq, reduceCtorEq] at hb
  · exact .inl ⟨v, x, y, hu.step hv, sameOutsideTraversal_trans hsu (sameOutsideTraversal_step hv), phase_of_found hv, hb.symm⟩
  · exact .inr (.inl ⟨v, hu.step hv, sameOutsideTraversal_trans hsu (sameOutsideTraversal_step hv), phase_of_done hv, hb.symm⟩)
  · exact .inr (.inr hb.symm)

/-- `TRACE` that answers a next state has run the traversal to its end, or overflowed (R215, R293). -/
theorem traceBody_cases (h : TraversalInv (traceStart s)) (hb : traceBody depth s = .next t) :
    (TraversalInv t ∧ sameOutsideTraversal s t ∧ t.phase = .done) ∨ t = stackOverflow .trace s := by
  have keep : ∀ u v e, TraversalInv u ∧ sameOutsideTraversal s u → tStep depth u = .step v e →
      TraversalInv v ∧ sameOutsideTraversal s v :=
    fun u v _ ⟨hu, hsu⟩ hv => ⟨hu.step hv, sameOutsideTraversal_trans hsu (sameOutsideTraversal_step hv)⟩
  have keepFound : ∀ u v x y, TraversalInv u ∧ sameOutsideTraversal s u → tStep depth u = .step v (.found x y) →
      TraversalInv (writeForeground x y v) ∧ sameOutsideTraversal s (writeForeground x y v) := by
    intro u v x y hu hv
    obtain ⟨hv', hsv⟩ := keep u v _ hu hv
    refine ⟨hv'.writeForeground ?_, sameOutsideTraversal_trans hsv rfl⟩
    rw [sameOutsideTraversal_step hv]
    exact hu.1.interior_of_found hv
  rcases traceLoop_induct _ (fun u v => keep u v .none) keepFound (traceBound s) (traceStart s) ⟨h, rfl⟩ with
    ⟨u, v, hu, hv, hl⟩ | ⟨-, -, -, hl⟩ | ⟨-, -, -, hl⟩ | hl <;>
    simp only [traceBody, hl, Host.Outcome.next.injEq, reduceCtorEq] at hb
  · subst hb
    obtain ⟨hv', hsv⟩ := keep u v _ hu hv
    exact .inl ⟨hv', hsv, phase_of_done hv⟩
  · exact .inr hb.symm

end Sys2Proof.Proofs
end

section
/-! The invariant of the machine (10_state.md R20 to R54) is kept by every step. The cases, by what the step does to the producer: it
stops in `FAULTED`, where only the memories and the recorded cause count; it resets; it leaves all that a producer depends on alone; or
it is a command of the tracer, whose end state `TraversalInv` describes. -/

open Sys2Proof Sys2Proof.Machine

namespace Sys2Proof.Proofs

variable {s t : State} {i : Instr}

/-! ### Faults and resets -/

theorem inv_of_faulted (hc : s.memCanonical = true) (hs : s.memSized = true) (hf : s.opstate = .faulted)
    (hcause : s.faultCause ≠ .none) : Inv s where
  canonical := hc
  sized := hs
  noCause hn := absurd hf hn
  cause _ := hcause
  accepted i hb := by simp [hf] at hb
  noProducer hn := absurd hf hn
  producer hn := absurd hf hn

theorem inv_faultedWith {c : Cause} (hcause : c ≠ .none) (op n : Byte) (hc : s.memCanonical = true) (hs : s.memSized = true) :
    Inv (faultedWith c op n s) :=
  inv_of_faulted hc hs rfl hcause

theorem inv_raiseFault {c : Cause} (hcause : c ≠ .none) (op n : Byte) (h : Inv s) : Inv (raiseFault c op n s) := by
  rcases raiseFault_cases c op n s with ⟨-, hr⟩ | ⟨-, hr⟩ <;> rw [hr]
  · exact inv_faultedWith hcause op n h.canonical h.sized
  · exact h

theorem inv_busyViolation (hb : s.opstate = .busy i) (n : Byte) (h : Inv s) : Inv (busyViolation i n s) := by
  rw [busyViolation_eq hb]
  exact inv_faultedWith (by decide) _ _ (abandon_memCanonical i s h.canonical) (abandon_memSized i s h.sized)

theorem inv_stackOverflow (hi : s.opstate = .idle) (h : Inv s) : Inv (stackOverflow i s) := by
  have hi' : (forgetPix (forgetTracer (abandonSpaces i s))).opstate = .idle := by
    rw [abandonSpaces_eq]
    exact hi
  rw [stackOverflow, raiseFault_idle hi']
  exact inv_faultedWith (by decide) _ _ (abandonSpaces_memCanonical i s h.canonical) (abandonSpaces_memSized i s h.sized)

/-- An idle state without a producer meets the invariant when nothing is left of a producer. -/
theorem inv_of_no_producer (hc : s.memCanonical = true) (hs : s.memSized = true) (hi : s.opstate = .idle)
    (hn : s.faultCause = .none ∧ s.faultOp = 0#8 ∧ s.faultReg = 0#8) (hl : s.live = false)
    (hp : s.valid = false ∧ s.exhausted = false ∧ s.pix = 0#32 ∧ s.sp = 0#32 ∧ (s.phase = .off ∨ s.phase = .done)) : Inv s where
  canonical := hc
  sized := hs
  noCause _ := hn
  cause hf := by simp [hi] at hf
  accepted i hb := by simp [hi] at hb
  noProducer _ _ := hp
  producer _ hl' := by simp [hl] at hl'

/-- An idle state with a live producer meets the invariant when the producer is sound. -/
theorem inv_of_live (hc : s.memCanonical = true) (hs : s.memSized = true) (hi : s.opstate = .idle)
    (hn : s.faultCause = .none ∧ s.faultOp = 0#8 ∧ s.faultReg = 0#8) (hl : s.live = true) (hp : ProducerInv s) : Inv s where
  canonical := hc
  sized := hs
  noCause _ := hn
  cause hf := by simp [hi] at hf
  accepted i hb := by simp [hi] at hb
  noProducer _ hl' := by simp [hl] at hl'
  producer _ _ := hp

theorem inv_resetRegisters (hc : s.memCanonical = true) (hs : s.memSized = true) : Inv (resetRegisters s) :=
  inv_of_no_producer hc hs rfl ⟨rfl, rfl, rfl⟩ rfl ⟨rfl, rfl, rfl, rfl, .inl rfl⟩

theorem inv_softReset (h : Inv s) : Inv (softReset s) := by
  unfold softReset
  split
  · exact inv_resetRegisters h.canonical h.sized
  · exact inv_resetRegisters (abandonSpaces_memCanonical _ s h.canonical) (abandonSpaces_memSized _ s h.sized)
  · exact inv_resetRegisters h.canonical h.sized

theorem inv_hardReset (h : Inv s) : Inv (hardReset s) := by
  refine inv_resetRegisters ?_ ?_
  · repeat apply forgetSpace_memCanonical
    exact h.canonical
  · repeat apply forgetSpace_memSized
    exact h.sized

/-! ### What leaves a producer alone -/

/-- Equal in everything that the invariant asks of `FAULT` and of a producer, or of its absence. -/
def sameProducer (s t : State) : Prop :=
  t = { s with
    opstate := t.opstate, addr := t.addr, data := t.data, arg0 := t.arg0, arg1 := t.arg1, res := t.res, gx := t.gx,
    gy := t.gy, mag := t.mag, sup := t.sup, out := t.out, inputs := t.inputs, lastRead := t.lastRead,
    freeCount := t.freeCount }

theorem producerInv_of_same (e : sameProducer s t) (p : ProducerInv s) : ProducerInv t := by
  rw [e]
  exact { p with }

theorem inv_of_same (h : Inv s) (e : sameProducer s t) (hf : t.opstate = .faulted ↔ s.opstate = .faulted)
    (hb : ∀ i, t.opstate = .busy i → i ≠ .srst ∧ issueFault i t = none) (hc : t.memCanonical = true)
    (hs : t.memSized = true) : Inv t where
  canonical := hc
  sized := hs
  noCause hn := by
    rw [e]
    exact h.noCause (hn ∘ hf.2)
  cause ht := by
    rw [e]
    exact h.cause (hf.1 ht)
  accepted := hb
  noProducer hn hl := by
    rw [e] at hl ⊢
    exact h.noProducer (hn ∘ hf.2) hl
  producer hn hl := by
    rw [e] at hl
    exact producerInv_of_same e (h.producer (hn ∘ hf.2) hl)

/-- Nothing but the host's queue, the value last read and the counter of free values has changed. -/
theorem inv_of_host_fields (h : Inv s) (ins : List Input) (v : Option Word) (n : Nat) :
    Inv { s with inputs := ins, lastRead := v, freeCount := n } :=
  inv_of_same h rfl Iff.rfl
    (fun i hb => ⟨(h.accepted i hb).1, (issueFault_congr i rfl rfl rfl rfl rfl rfl rfl).trans (h.accepted i hb).2⟩)
    h.canonical h.sized

theorem inv_takeInput (rest : List Input) (h : Inv s) : Inv (takeInput rest s) := inv_of_host_fields h rest _ _

theorem inv_returnValue (v : Word) (h : Inv s) : Inv (returnValue v s) := inv_of_host_fields h _ (some v) _

theorem inv_returnFree (h : Inv s) : Inv (returnFree s) := inv_of_host_fields h _ (some _) _

/-- Between two idle states the running command's clause says nothing. -/
theorem inv_of_same_idle (h : Inv s) (hi : s.opstate = .idle) (e : sameProducer s t) (ht : t.opstate = .idle)
    (hc : t.memCanonical = true) (hs : t.memSized = true) : Inv t :=
  inv_of_same h e (by simp [hi, ht]) (by simp [ht]) hc hs

/-! ### The commands -/

/-- A failed check names its cause (R281). -/
theorem issueFault_ne_some_none (i : Instr) (s : State) : issueFault i s ≠ some .none := by
  cases i <;> simp only [issueFault, noCheck, hypotCheck, nmsCheck, traversalCheck, dimCheck, lnextCheck, ldsCheck, stsCheck] <;>
    (repeat' split) <;> simp

theorem traversalCheck_eq_none (h : traversalCheck s = none) :
    s.live = false ∧ thresholdsValid s = true ∧ dimCheck s = none := by
  unfold traversalCheck at h
  split at h
  · cases h
  · next hl =>
    split at h
    · next ht => exact ⟨by simpa using hl, ht, h⟩
    · cases h

theorem nmsCheck_eq_none (h : nmsCheck s = none) : s.live = false ∧ dimCheck s = none := by
  unfold nmsCheck at h
  split at h
  · cases h
  · next hl => exact ⟨by simpa using hl, h⟩

theorem stsCheck_eq_none {sp : Space} (h : stsCheck sp s = none) : sp ≠ .stack ∧ inRange sp s.addr.toNat s = true := by
  unfold stsCheck at h
  split at h
  · next hw =>
    split at h
    · cases h
    · split at h
      · next hr => exact ⟨fun he => by simp [he, Space.hostWritable] at hw, hr⟩
      · cases h
  · cases h

theorem memWrite_opstate (sp : Space) (n : Nat) (v : Word) (s : State) : (memWrite sp n v s).opstate = s.opstate := by
  cases sp <;> rfl

/-- The visit map and the stack are not the host's to write (R81). -/
theorem sameProducer_memWrite (sp : Space) (n : Nat) (v : Word) (s : State) : sameProducer s (memWrite sp n v s) := by
  cases sp <;> rfl

section Bodies
variable (h : Inv s) (hi : s.opstate = .idle)
include h hi

theorem inv_hypotRaster (hck : hypotCheck s = none) : Inv (hypotRaster hypotFn s) := by
  have hcap : s.area ≤ Config.cap := by simpa [hypotCheck, dimTooLarge] using hck
  have hc := h.canonical
  have hs := h.sized
  simp only [State.memCanonical, State.memSized, Bool.and_eq_true] at hc hs
  refine inv_of_same_idle h hi rfl hi ?_ ?_
  · simp_all [State.memCanonical, hypotRaster, Mem.wf_fill]
  · simp_all [State.memSized, hypotRaster, Mem.within_fill]

theorem inv_nmsRaster (hck : nmsCheck s = none) : Inv (nmsRaster dirFn s) := by
  obtain ⟨hcap, -, -⟩ := dimCheck_eq_none_iff.1 (nmsCheck_eq_none hck).2
  have hc := h.canonical
  have hs := h.sized
  simp only [State.memCanonical, State.memSized, Bool.and_eq_true] at hc hs
  refine inv_of_same_idle h hi rfl hi ?_ ?_
  · simp_all [State.memCanonical, nmsRaster, Mem.fillRaster, Mem.wf_fill]
  · simp_all [State.memSized, nmsRaster, Mem.fillRaster, Mem.within_fill]

theorem inv_postIncrement (inc : Bool) : Inv (postIncrement inc s) := by
  rw [postIncrement_eq]
  exact inv_of_same_idle h hi rfl hi h.canonical h.sized

theorem inv_lds (sp : Space) (inc : Bool) : Inv (postIncrement inc { s with data := memRead sp s.addr.toNat s }) := by
  have hload : Inv { s with data := memRead sp s.addr.toNat s } := inv_of_same_idle h hi rfl hi h.canonical h.sized
  exact inv_postIncrement hload hi inc

theorem inv_sts (sp : Space) (inc : Bool) (hck : stsCheck sp s = none) :
    Inv (postIncrement inc (memWrite sp s.addr.toNat s.data s)) := by
  obtain ⟨hsp, hr⟩ := stsCheck_eq_none hck
  have hop : (memWrite sp s.addr.toNat s.data s).opstate = .idle := (memWrite_opstate _ _ _ s).trans hi
  refine inv_postIncrement (inv_of_same_idle h hi (sameProducer_memWrite _ _ _ s) hop ?_ ?_) hop inc
  · exact memWrite_memCanonical _ _ _ s h.canonical
  · exact memWrite_memSized (inRange_lt hsp hr) h.sized

theorem inv_traceBody {depth : Nat} (hck : traversalCheck s = none) (hb : traceBody depth s = .next t) : Inv t := by
  obtain ⟨hl, -, hd⟩ := traversalCheck_eq_none hck
  rcases traceBody_cases (traceStart_traversalInv h.canonical h.sized hd) hb with ⟨ht, hst, hdone⟩ | rfl
  · have hidle : s.opstate ≠ .faulted := by simp [hi]
    obtain ⟨hv, he, hpix, -, -⟩ := h.noProducer hidle hl
    refine inv_of_no_producer ht.canonical ht.sized ?_ ?_ ?_ ⟨?_, ?_, ?_, ht.emptyStack (.inr hdone), .inr hdone⟩ <;> rw [hst]
    · exact hi
    · exact h.noCause hidle
    · exact hl
    · exact hv
    · exact he
    · exact hpix
  · exact inv_stackOverflow hi h

theorem inv_lstartBody (hck : traversalCheck s = none) : Inv (lstartBody s) := by
  obtain ⟨-, ht, hd⟩ := traversalCheck_eq_none hck
  have hstart := tInit_traversalInv h.canonical h.sized hd
  exact inv_of_live hstart.canonical hstart.sized hi (h.noCause (by simp [hi])) rfl
    { hstart with thresholds := ht, yielded := fun hv => (nomatch hv), finished := fun he => (nomatch he) }

theorem inv_lnextBody {depth : Nat} (hck : lnextCheck s = none) (hb : lnextBody depth s = .next t) : Inv t := by
  have hidle : s.opstate ≠ .faulted := by simp [hi]
  have hl : s.live = true := by simpa [lnextCheck] using hck
  have hp := h.producer hidle hl
  have hs : TraversalInv s := { hp with canonical := h.canonical, sized := h.sized }
  have hkept : ∀ {u}, sameOutsideTraversal s u → u.opstate = .idle ∧
      (u.faultCause = .none ∧ u.faultOp = 0#8 ∧ u.faultReg = 0#8) ∧ u.live = true ∧ thresholdsValid u = true := by
    intro u hsu
    rw [hsu]
    exact ⟨hi, h.noCause hidle, hl, hp.thresholds⟩
  rcases lnextBody_cases hs hb with ⟨u, x, y, hu, hsu, hphase, rfl⟩ | ⟨u, hu, hsu, hdone, rfl⟩ | rfl
  · obtain ⟨hi', hn, hl', ht⟩ := hkept hsu
    exact inv_of_live hu.canonical hu.sized hi' hn hl'
      { hu with thresholds := ht, yielded := fun _ => ⟨hphase, rfl⟩, finished := fun he => (nomatch he) }
  · obtain ⟨hi', hn, hl', ht⟩ := hkept hsu
    exact inv_of_live hu.canonical hu.sized hi' hn hl'
      { hu with thresholds := ht, yielded := fun hv => (nomatch hv), finished := fun _ => hdone }
  · exact inv_stackOverflow hi h

theorem inv_ldropBody : Inv (ldropBody s) :=
  inv_of_no_producer h.canonical h.sized hi (h.noCause (by simp [hi])) rfl ⟨rfl, rfl, rfl, rfl, .inl rfl⟩

theorem inv_commandBody (hn : i ≠ .srst) (hck : issueFault i s = none) (hb : commandBody i s = .next t) : Inv t := by
  cases i with
  | trace => exact inv_traceBody h hi hck hb
  | lnext => exact inv_lnextBody h hi hck hb
  | srst => exact absurd rfl hn
  | nop =>
    cases hb
    exact h
  | hypot =>
    cases hb
    exact inv_hypotRaster h hi hck
  | nms =>
    cases hb
    exact inv_nmsRaster h hi hck
  | lstart =>
    cases hb
    exact inv_lstartBody h hi hck
  | ldrop =>
    cases hb
    exact inv_ldropBody h hi
  | hypq | dirq =>
    cases hb
    exact inv_of_same_idle h hi rfl hi h.canonical h.sized
  | lds sp inc =>
    cases hb
    exact inv_lds h hi sp inc
  | sts sp inc =>
    cases hb
    exact inv_sts h hi sp inc hck

/-- A command issued in `IDLE` (R104). -/
theorem inv_exec (hn : i ≠ .srst) (hx : exec i s = .next t) : Inv t := by
  rw [exec_eq_issue hn] at hx
  cases hck : issueFault i s with
  | none =>
    rw [issue_idle_ok hi hck] at hx
    exact inv_commandBody h hi hn hck hx
  | some c =>
    rw [issue_idle_fault hi hck] at hx
    cases hx
    refine inv_faultedWith ?_ _ _ h.canonical h.sized
    rintro rfl
    exact issueFault_ne_some_none i s hck

/-- A command written in `IDLE` is accepted with its checks passed, or runs at once (R104 steps 5 and 6). -/
theorem inv_issueIdle (hn : i ≠ .srst) (hx : issueIdle i s = .next t) : Inv t := by
  unfold issueIdle at hx
  split at hx
  · split at hx
    · next hck =>
      cases hx
      refine inv_of_same h rfl (by simp [hi]) (fun j hj => ?_) h.canonical h.sized
      cases hj
      exact ⟨hn, (issueFault_congr i rfl rfl rfl rfl rfl rfl rfl).trans hck⟩
    · next c hck =>
      cases hx
      refine inv_raiseFault ?_ _ _ h
      rintro rfl
      exact issueFault_ne_some_none i s hck
  · exact inv_exec h hi hn hx

/-- Without a live producer the dimensions and the thresholds are the host's to write (R29, R32, R33). -/
theorem inv_write_parameters (hl : s.live = false) (w' h' : Half) (lo hi' : Word) :
    Inv { s with width := w', height := h', low := lo, high := hi' } :=
  inv_of_no_producer h.canonical h.sized hi (h.noCause (by simp [hi])) hl (h.noProducer (by simp [hi]) hl)

omit hi in
theorem inv_lockedWrite (n : Byte) {store : State → State} (hstore : s.live = false → Inv (store s)) :
    Inv (lockedWrite n store s) := by
  unfold lockedWrite
  split
  · exact inv_raiseFault (by decide) _ _ h
  · next hl => exact hstore (by simpa using hl)

theorem inv_writeIdle (n : Byte) (v : Word) : Inv (writeIdle n v s) := by
  unfold writeIdle
  split
  · exact inv_lockedWrite h n fun hl => inv_write_parameters h hi hl _ _ _ _
  · exact inv_lockedWrite h n fun hl => inv_write_parameters h hi hl _ _ _ _
  · exact inv_lockedWrite h n fun hl => inv_write_parameters h hi hl _ _ _ _
  · exact inv_lockedWrite h n fun hl => inv_write_parameters h hi hl _ _ _ _
  iterate 4 exact inv_of_same_idle h hi rfl hi h.canonical h.sized
  exact inv_raiseFault (by decide) _ _ h

end Bodies

/-! ### Inputs and the step -/

theorem inv_readRegister (n : Byte) (h : Inv s) : Inv (readRegister n s) := by
  unfold readRegister
  split
  · split
    · exact inv_returnValue _ h
    · exact inv_raiseFault (by decide) _ _ (inv_returnFree h)
  · next hb =>
    split
    · split
      · exact inv_returnValue _ h
      · exact inv_returnFree h
    · exact inv_busyViolation (s := returnFree s) hb n (inv_returnFree h)
  · split
    · exact inv_returnValue _ h
    · exact inv_returnFree h

theorem decodeZ_eq_ok {w : Word} {j : Instr} (h : decodeZ w i = .ok j) : zeroZ w = 0#24 ∧ i = j := by
  unfold decodeZ at h
  split at h
  · next hz => exact ⟨hz, Except.ok.inj h⟩
  · cases h

theorem decodeM_ne_srst {make : Space → Bool → Except Illegal Instr} (hm : ∀ sp inc, make sp inc ≠ .ok .srst) (w : Word) :
    decodeM w make ≠ .ok .srst := by
  unfold decodeM
  split
  · split
    · exact hm _ _
    · exact nofun
  · exact nofun

theorem makeLds_ne_srst (sp : Space) (inc : Bool) : makeLds sp inc ≠ .ok .srst := nofun

theorem makeSts_ne_srst (sp : Space) (inc : Bool) : makeSts sp inc ≠ .ok .srst := by
  unfold makeSts
  split <;> exact nofun

/-- `SRST` has no other word (R119). -/
theorem decode_ne_srst {w : Word} (hw : w ≠ srstWord) : decode w ≠ .ok .srst := by
  intro h
  unfold decode at h
  split at h
  iterate 9 exact nomatch (decodeZ_eq_ok h).2
  · exact decodeM_ne_srst makeLds_ne_srst w h
  · exact decodeM_ne_srst makeSts_ne_srst w h
  · next hop =>
    have hz := congrArg BitVec.toNat (decodeZ_eq_ok h).1
    refine hw (BitVec.eq_of_toNat_eq ?_)
    simp only [opField, zeroZ, BitVec.extractLsb'_toNat, Nat.shiftRight_eq_div_pow, BitVec.toNat_ofNat, srstWord] at hop hz ⊢
    omega
  · cases h

theorem inv_writeCmd {v : Word} (h : Inv s) (hx : writeCmd v s = .next t) : Inv t := by
  unfold writeCmd at hx
  split at hx
  · cases hx
    exact inv_softReset h
  · next hv =>
    split at hx
    · cases hx
      exact h
    · next hb =>
      cases hx
      exact inv_busyViolation hb _ h
    · next hi =>
      split at hx
      · cases hx
        exact inv_raiseFault (by decide) _ _ h
      · next i hd => exact inv_issueIdle h hi (fun he => decode_ne_srst hv (he ▸ hd)) hx

theorem inv_writeRegister {n : Byte} {v : Word} (h : Inv s) (hx : writeRegister n v s = .next t) : Inv t := by
  unfold writeRegister at hx
  split at hx
  · exact inv_writeCmd h hx
  · split at hx <;> cases hx
    · next hi => exact inv_writeIdle h hi n v
    · next hb => exact inv_busyViolation hb n h
    · exact h

theorem inv_perform {a : HostAction} (h : Inv s) (hx : perform a s = .next t) : Inv t := by
  cases a with
  | hardReset =>
    cases hx
    exact inv_hardReset h
  | read n =>
    cases hx
    exact inv_readRegister n h
  | write n v => exact inv_writeRegister h hx

theorem inv_proceed (h : Inv s) (hx : proceed s = .next t) : Inv t := by
  unfold proceed at hx
  split at hx
  · cases hx
    exact h
  · next i hb =>
    obtain ⟨hn, -⟩ := h.accepted i hb
    have hidle : Inv { s with opstate := .idle } :=
      inv_of_same h rfl (by simp [hb]) (fun _ hj => nomatch hj) h.canonical h.sized
    exact inv_exec hidle rfl hn hx
  · cases hx
    exact h

/-- Settles O57. The step takes an input or is the block's own; what matters in either is what it leaves of the producer. -/
theorem stepsKeepTheInvariant : Obligations.StepsKeepTheInvariant := by
  intro s t h hx
  rcases step_cases s with hs | ⟨a, rest, -, hs⟩ <;> rw [hs] at hx
  · exact inv_proceed h hx
  · exact inv_perform (inv_takeInput rest h) hx

end Sys2Proof.Proofs
end

section
/-! The register map (10_state.md R22 to R40, 60_exceptions.md R281), the register writes in `IDLE` (45_host_access_and_system.md R256)
and the work stack (10_state.md R50, R52). -/

open Sys2Proof Sys2Proof.Machine

namespace Sys2Proof.Proofs

variable {s : State}

/-! ### Register views -/

theorem regValue_eq_none_iff (n : Byte) (s : State) : regValue n s = none ↔ n = 0x01#8 ∨ 0x10 ≤ n.toNat := by
  have hcmd : n = 0x01#8 ↔ n.toNat = 1 := BitVec.toNat_inj.symm
  rw [hcmd]
  unfold regValue
  split
  iterate 15
    next hn => simp [hn]
  simp only [imp_false] at *
  simp only [true_iff]
  omega

theorem coordWord_toNat (x y : Half) : (coordWord x y).toNat = y.toNat * 65536 + x.toNat := by
  rw [coordWord, BitVec.toNat_append, ← Nat.shiftLeft_add_eq_or_of_lt x.isLt, Nat.shiftLeft_eq]

theorem busyFlag_iff (s : State) : s.busyFlag = true ↔ ∃ i, s.opstate = .busy i := by
  unfold State.busyFlag
  split <;> simp [*]

theorem faultedFlag_iff (s : State) : s.faultedFlag = true ↔ s.opstate = .faulted := by
  unfold State.faultedFlag
  split <;> simp [*]

/-- The bits of `STATUS` (R27). -/
theorem statusWord_bits (s : State) :
    (statusWord s).getLsbD 0 = s.busyFlag ∧ (statusWord s).getLsbD 1 = s.faultedFlag ∧ (statusWord s).getLsbD 2 = s.live ∧
    (statusWord s).getLsbD 3 = s.valid ∧ (statusWord s).getLsbD 4 = s.exhausted ∧
    ∀ b, 5 ≤ b → (statusWord s).getLsbD b = false := by
  simp only [statusWord, BitVec.getLsbD_append]
  refine ⟨?_, ?_, ?_, ?_, ?_, fun b hb => ?_⟩
  case refine_6 =>
    iterate 5 rw [if_neg (by omega)]
    exact BitVec.getLsbD_zero
  all_goals simp

/-- The fields of `FAULT` (R30). -/
theorem faultWord_fields (s : State) :
    (faultWord s).extractLsb' 0 8 = causeCode s.faultCause ∧ (faultWord s).extractLsb' 8 8 = s.faultOp ∧
    (faultWord s).extractLsb' 16 8 = s.faultReg ∧ (faultWord s).extractLsb' 24 8 = 0#8 := by
  simp only [faultWord, BitVec.extractLsb'_append_eq_ite]
  simp

/-- Settles O8, from the bits of `STATUS` and the fields of `FAULT`; the other registers read as they are stored. -/
theorem registerMapReads : Obligations.RegisterMapReads := by
  have hext : ∀ x : Half, (x.zeroExtend 32).toNat = x.toNat := fun x => BitVec.toNat_setWidth_of_le (by decide)
  refine ⟨fun s => ?_, fun s n => regValue_eq_none_iff n s, fun s => ?_⟩
  · exact ⟨rfl, rfl, rfl, ⟨_, rfl, hext _⟩, ⟨_, rfl, hext _⟩, rfl, rfl, rfl, rfl, rfl, rfl, rfl, rfl,
      ⟨_, rfl, coordWord_toNat _ _⟩, rfl⟩
  · obtain ⟨hbusy, hfaulted, hlive, hvalid, hexhausted, hzero⟩ := statusWord_bits s
    obtain ⟨hcause, hop, hreg, htop⟩ := faultWord_fields s
    exact ⟨hbusy ▸ busyFlag_iff s, hfaulted ▸ faultedFlag_iff s, hlive, hvalid, hexhausted, hzero, hcause, hop, hreg, htop,
      rfl, rfl, rfl, rfl, rfl, rfl, rfl, rfl, rfl, rfl, rfl⟩

/-! ### Register writes in `IDLE` -/

/-- A write to any register but `CMD` in `IDLE` is `writeIdle`. -/
theorem step_write_idle {n : Byte} {v : Word} {rest : List Input} (ht : s.takes (.write n v) rest) (hi : s.opstate = .idle)
    (hn : n ≠ cmdNumber) : step s = .next (writeIdle n v (takeInput rest s)) := by
  rw [step_takes ht]
  simp only [perform, writeRegister, hn, if_false, takeInput_opstate, hi]

/-- A register a live producer owns. -/
theorem lockedWrite_live (hi : s.opstate = .idle) (hl : s.live = true) (n : Byte) (store : State → State) :
    lockedWrite n store s = faultedWith .locked 0#8 n s := by
  rw [lockedWrite, if_pos hl, raiseFault_idle hi]

theorem lockedWrite_free (hl : s.live = false) (n : Byte) (store : State → State) : lockedWrite n store s = store s := by
  simp [lockedWrite, hl]

/-- `WIDTH`, `HEIGHT`, `LOW`, `HIGH` (R29). -/
theorem writeIdle_locked {n : Byte} (hn : n ∈ [0x04#8, 0x05#8, 0x06#8, 0x07#8]) (hi : s.opstate = .idle) (hl : s.live = true)
    (v : Word) : writeIdle n v s = faultedWith .locked 0#8 n s := by
  simp only [List.mem_cons, List.not_mem_nil, or_false] at hn
  rcases hn with rfl | rfl | rfl | rfl <;> simp [writeIdle, lockedWrite_live hi hl]

/-- A number that names no writable register. -/
theorem writeIdle_badAccess {n : Byte} (hn : n.toNat < 0x04 ∨ 0x0C ≤ n.toNat) (hi : s.opstate = .idle) (v : Word) :
    writeIdle n v s = faultedWith .badAccess 0#8 n s := by
  unfold writeIdle
  split
  iterate 8 omega
  exact raiseFault_idle hi _ _ _

/-- Settles O10. The write reaches `writeIdle`, whose match gives one arm to each writable register and one to the rest. -/
theorem registerWriteTransactions : Obligations.RegisterWriteTransactions := by
  intro s n v rest ht hi
  have hi' : (takeInput rest s).opstate = .idle := hi
  refine ⟨fun hn hl => ?_, ?_, ?_, ?_, ?_, ?_, ?_, ?_, ?_, fun hn => ?_⟩
  · have hcmd : n ≠ cmdNumber := by
      rintro rfl
      exact absurd hn (by decide)
    rw [step_write_idle ht hi hcmd, writeIdle_locked hn hi' hl]
  iterate 4
    rintro rfl hl
    rw [step_write_idle ht hi (by decide)]
    simp [writeIdle, lockedWrite_free, hl]
  iterate 4
    rintro rfl
    exact step_write_idle ht hi (by decide)
  · have hcmd : n ≠ cmdNumber ∧ (n.toNat < 0x04 ∨ 0x0C ≤ n.toNat) := by
      rw [Ne, ← BitVec.toNat_inj, cmdNumber]
      simp only [List.mem_cons, List.not_mem_nil, or_false, ← BitVec.toNat_inj, BitVec.toNat_ofNat] at hn ⊢
      omega
    rw [step_write_idle ht hi hcmd.1, writeIdle_badAccess hcmd.2 hi']

/-! ### The work stack -/

/-- What was pushed last is popped first. -/
theorem pop_pushed (h : s.sp.toNat + 1 < 4294967296) (x y : Half) :
    pop { s with stack := s.stack.write s.sp.toNat (coordWord x y), sp := s.sp + 1#32 } =
      some (x, y, { s with stack := s.stack.write s.sp.toNat (coordWord x y) }) := by
  have hne : s.sp + 1#32 ≠ 0#32 := by bv_omega
  rw [pop_some hne]
  simp

/-- Settles O38: the entry pushed is the one below the new `SP`, and no other entry is written. -/
theorem stackIsLastInFirstOut : Obligations.StackIsLastInFirstOut := by
  intro depth s x y hd
  refine ⟨fun hf => push_full hf.ge x y, ⟨pop_empty, fun hn => ?_⟩, fun hroom => ?_⟩
  · by_contra hz
    rw [pop_some hz] at hn
    cases hn
  · exact ⟨_, _, push_room hroom x y, BitVec.toNat_add_of_lt (by simp; omega), pop_pushed (by omega) x y, rfl,
      fun j hj => Mem.read_write_other _ _ hj.ne⟩

end Sys2Proof.Proofs
end

section
/-! The canonical form of the seven memories (20_memory.md R70, log 12) is kept by every step. Nothing is asked of the state but the
form itself, because a write, a fill and a loss of contents keep it at every index: the checks and the invariant play no part. -/

open Sys2Proof Sys2Proof.Machine

namespace Sys2Proof.Proofs

variable {depth : Nat} {s t : State} {e : Event} {i : Instr}

/-- `State.memCanonical` with a name for each memory. -/
structure MemoriesWf (s : State) : Prop where
  gx : s.gx.wf = true
  gy : s.gy.wf = true
  mag : s.mag.wf = true
  sup : s.sup.wf = true
  out : s.out.wf = true
  visit : s.visit.wf = true
  stack : s.stack.wf = true

theorem memoriesWf_iff : MemoriesWf s ↔ s.memCanonical = true := by
  simp only [State.memCanonical, Bool.and_eq_true]
  constructor
  · rintro ⟨hgx, hgy, hmag, hsup, hout, hvisit, hstack⟩
    exact ⟨⟨⟨⟨⟨⟨hgx, hgy⟩, hmag⟩, hsup⟩, hout⟩, hvisit⟩, hstack⟩
  · rintro ⟨⟨⟨⟨⟨⟨hgx, hgy⟩, hmag⟩, hsup⟩, hout⟩, hvisit⟩, hstack⟩
    exact ⟨hgx, hgy, hmag, hsup, hout, hvisit, hstack⟩

section Preservation
variable (h : MemoriesWf s)
include h

/-! ### Faults and resets -/

theorem memoriesWf_abandonSpaces (i : Instr) : MemoriesWf (abandonSpaces i s) :=
  memoriesWf_iff.2 (abandonSpaces_memCanonical i s (memoriesWf_iff.1 h))

theorem memoriesWf_abandon (i : Instr) : MemoriesWf (abandon i s) :=
  memoriesWf_iff.2 (abandon_memCanonical i s (memoriesWf_iff.1 h))

theorem memoriesWf_raiseFault (c : Cause) (op n : Byte) : MemoriesWf (raiseFault c op n s) := by
  rcases raiseFault_cases c op n s with ⟨-, hr⟩ | ⟨-, hr⟩ <;> rw [hr]
  · exact { h with }
  · exact h

theorem memoriesWf_busyViolation (i : Instr) (n : Byte) : MemoriesWf (busyViolation i n s) :=
  memoriesWf_raiseFault (memoriesWf_abandon h i) _ _ _

theorem memoriesWf_stackOverflow (i : Instr) : MemoriesWf (stackOverflow i s) := by
  have hforget : MemoriesWf (forgetPix (forgetTracer (abandonSpaces i s))) := { memoriesWf_abandonSpaces h i with }
  exact memoriesWf_raiseFault hforget _ _ _

theorem memoriesWf_softReset : MemoriesWf (softReset s) := by
  unfold softReset
  split
  · exact { h with }
  · exact { memoriesWf_abandonSpaces h _ with }
  · exact { h with }

omit h in
/-- After the hardware reset no memory lists a sample (R322). -/
theorem memoriesWf_hardReset (s : State) : MemoriesWf (hardReset s) := by
  constructor <;> exact Mem.wf_unspecified _

/-! ### The tracer -/

theorem memoriesWf_markAndPush (x y : Half) : MemoriesWf (markAndPush x y s) :=
  { h with visit := Mem.wf_write _ _ _ h.visit, stack := Mem.wf_write _ _ _ h.stack }

theorem memoriesWf_inPhase (p : Phase) : MemoriesWf (inPhase p s) := { h with }

theorem memoriesWf_advanceCursor : MemoriesWf (advanceCursor s) := by
  rw [advanceCursor_eq]
  exact { h with }

theorem memoriesWf_nextNeighbour : MemoriesWf (nextNeighbour s) := by
  rw [nextNeighbour_eq]
  exact { h with }

/-- Of the steps of the tracer only the two discoveries write a memory. -/
theorem memoriesWf_tStep (hs : tStep depth s = .step t e) : MemoriesWf t := by
  cases tracerStep_of_tStep hs with
  | stay => exact h
  | finish | resume => exact memoriesWf_inPhase h _
  | skip => exact memoriesWf_advanceCursor h
  | seed => exact memoriesWf_markAndPush (memoriesWf_inPhase (memoriesWf_advanceCursor h) _) _ _
  | take => exact { h with }
  | pass => exact memoriesWf_nextNeighbour h
  | spread x y => exact memoriesWf_markAndPush (memoriesWf_nextNeighbour h) x y

theorem memoriesWf_tInit : MemoriesWf (tInit s) := { h with visit := Mem.wf_fill _ _ _ h.visit }

theorem memoriesWf_traceStart : MemoriesWf (traceStart s) :=
  memoriesWf_tInit { h with out := Mem.wf_fill _ _ _ h.out }

theorem memoriesWf_writeForeground (x y : Half) : MemoriesWf (writeForeground x y s) :=
  { h with out := Mem.wf_write _ _ _ h.out }

theorem memoriesWf_traceBody (hb : traceBody depth s = .next t) : MemoriesWf t := by
  have keep : ∀ u v, MemoriesWf u → tStep depth u = .step v .none → MemoriesWf v := fun _ _ hu hv => memoriesWf_tStep hu hv
  have keepFound : ∀ u v x y, MemoriesWf u → tStep depth u = .step v (.found x y) → MemoriesWf (writeForeground x y v) :=
    fun _ _ x y hu hv => memoriesWf_writeForeground (memoriesWf_tStep hu hv) x y
  rcases traceLoop_induct _ keep keepFound (traceBound s) (traceStart s) (memoriesWf_traceStart h) with
    ⟨u, v, hu, hv, hl⟩ | ⟨-, -, -, hl⟩ | ⟨-, -, -, hl⟩ | hl <;>
    simp only [traceBody, hl, Host.Outcome.next.injEq, reduceCtorEq] at hb <;> subst hb
  · exact memoriesWf_tStep hu hv
  · exact memoriesWf_stackOverflow h .trace

theorem memoriesWf_lnextBody (hb : lnextBody depth s = .next t) : MemoriesWf t := by
  have keep : ∀ u v, MemoriesWf u → tStep depth u = .step v .none → MemoriesWf v := fun _ _ hu hv => memoriesWf_tStep hu hv
  rcases nextLoop_induct _ keep (nextBound s) s h with ⟨u, v, x, y, hu, hv, hl⟩ | ⟨u, v, hu, hv, hl⟩ | ⟨-, -, -, hl⟩ |
    ⟨-, -, -, hl⟩ | hl <;>
    simp only [lnextBody, hl, Host.Outcome.next.injEq, reduceCtorEq] at hb <;> subst hb
  · exact { memoriesWf_tStep hu hv with }
  · exact { memoriesWf_tStep hu hv with }
  · exact memoriesWf_stackOverflow h .lnext

/-! ### The commands -/

theorem memoriesWf_hypotRaster (fn : Half → Half → Word) : MemoriesWf (hypotRaster fn s) :=
  { h with mag := Mem.wf_fill _ _ _ h.mag }

theorem memoriesWf_nmsRaster (dirOf : Half → Half → Bucket) : MemoriesWf (nmsRaster dirOf s) :=
  { h with sup := Mem.wf_fill _ _ _ h.sup }

theorem memoriesWf_lstartBody : MemoriesWf (lstartBody s) := { memoriesWf_tInit h with }

theorem memoriesWf_postIncrement (inc : Bool) : MemoriesWf (postIncrement inc s) := by
  rw [postIncrement_eq]
  exact { h with }

theorem memoriesWf_memWrite (sp : Space) (n : Nat) (v : Word) : MemoriesWf (memWrite sp n v s) :=
  memoriesWf_iff.2 (memWrite_memCanonical sp n v s (memoriesWf_iff.1 h))

theorem memoriesWf_commandBody (hb : commandBody i s = .next t) : MemoriesWf t := by
  cases i with
  | trace => exact memoriesWf_traceBody h hb
  | lnext => exact memoriesWf_lnextBody h hb
  | nop =>
    cases hb
    exact h
  | hypot =>
    cases hb
    exact memoriesWf_hypotRaster h _
  | nms =>
    cases hb
    exact memoriesWf_nmsRaster h _
  | lstart =>
    cases hb
    exact memoriesWf_lstartBody h
  | ldrop | hypq | dirq =>
    cases hb
    exact { h with }
  | lds sp inc =>
    cases hb
    have hload : MemoriesWf { s with data := memRead sp s.addr.toNat s } := { h with }
    exact memoriesWf_postIncrement hload inc
  | sts sp inc =>
    cases hb
    exact memoriesWf_postIncrement (memoriesWf_memWrite h sp _ _) inc
  | srst =>
    cases hb
    exact memoriesWf_softReset h

/-- A command that reaches the block in any operating state (R104). -/
theorem memoriesWf_exec (hx : exec i s = .next t) : MemoriesWf t := by
  by_cases hn : i = .srst
  · subst hn
    cases hx
    exact memoriesWf_softReset h
  rw [exec_eq_issue hn] at hx
  rcases issue_cases i (issueFault i) (commandBody i) s with ⟨-, -, hs⟩ | ⟨-, c, -, hs⟩ | ⟨j, -, hs⟩ | ⟨-, hs⟩ <;> rw [hs] at hx
  · exact memoriesWf_commandBody h hx
  · cases hx
    exact { h with }
  · cases hx
    exact memoriesWf_busyViolation h j _
  · cases hx
    exact h

/-! ### Transactions -/

theorem memoriesWf_issueIdle (hx : issueIdle i s = .next t) : MemoriesWf t := by
  unfold issueIdle at hx
  split at hx
  · split at hx <;> cases hx
    · exact { h with }
    · exact memoriesWf_raiseFault h _ _ _
  · exact memoriesWf_exec h hx

theorem memoriesWf_writeCmd {v : Word} (hx : writeCmd v s = .next t) : MemoriesWf t := by
  unfold writeCmd at hx
  split at hx
  · exact memoriesWf_exec h hx
  · split at hx
    · cases hx
      exact h
    · cases hx
      exact memoriesWf_busyViolation h _ _
    · split at hx
      · cases hx
        exact memoriesWf_raiseFault h _ _ _
      · exact memoriesWf_issueIdle h hx

theorem memoriesWf_lockedWrite (n : Byte) {store : State → State} (hstore : MemoriesWf (store s)) :
    MemoriesWf (lockedWrite n store s) := by
  unfold lockedWrite
  split
  · exact memoriesWf_raiseFault h _ _ _
  · exact hstore

theorem memoriesWf_writeIdle (n : Byte) (v : Word) : MemoriesWf (writeIdle n v s) := by
  unfold writeIdle
  split
  iterate 4 exact memoriesWf_lockedWrite h n { h with }
  iterate 4 exact { h with }
  exact memoriesWf_raiseFault h _ _ _

theorem memoriesWf_writeRegister {n : Byte} {v : Word} (hx : writeRegister n v s = .next t) : MemoriesWf t := by
  unfold writeRegister at hx
  split at hx
  · exact memoriesWf_writeCmd h hx
  · split at hx <;> cases hx
    · exact memoriesWf_writeIdle h n v
    · exact memoriesWf_busyViolation h _ n
    · exact h

theorem memoriesWf_readRegister (n : Byte) : MemoriesWf (readRegister n s) := by
  have hvalue : ∀ v, MemoriesWf (returnValue v s) := fun _ => { h with }
  have hfree : MemoriesWf (returnFree s) := { h with }
  unfold readRegister
  split
  · split
    · exact hvalue _
    · exact memoriesWf_raiseFault hfree _ _ _
  · split
    · split
      · exact hvalue _
      · exact hfree
    · exact memoriesWf_busyViolation hfree _ n
  · split
    · exact hvalue _
    · exact hfree

theorem memoriesWf_perform {a : HostAction} (hx : perform a s = .next t) : MemoriesWf t := by
  cases a with
  | hardReset =>
    cases hx
    exact memoriesWf_hardReset s
  | read n =>
    cases hx
    exact memoriesWf_readRegister h n
  | write n v => exact memoriesWf_writeRegister h hx

theorem memoriesWf_proceed (hx : proceed s = .next t) : MemoriesWf t := by
  unfold proceed at hx
  split at hx
  · cases hx
    exact h
  · next i _ =>
    have hidle : MemoriesWf { s with opstate := .idle } := { h with }
    exact memoriesWf_exec hidle hx
  · cases hx
    exact h

end Preservation

/-- Settles O55. The step takes an input or is the block's own; every write it can make keeps the form of the memory written. -/
theorem stepsKeepMemoryCanonical : Obligations.StepsKeepMemoryCanonical := by
  intro s t hc hx
  have h : MemoriesWf s := memoriesWf_iff.2 hc
  refine memoriesWf_iff.1 ?_
  rcases step_cases s with hs | ⟨a, rest, -, hs⟩ <;> rw [hs] at hx
  · exact memoriesWf_proceed h hx
  · have htaken : MemoriesWf (takeInput rest s) := { h with }
    exact memoriesWf_perform htaken hx

end Sys2Proof.Proofs
end

section
/-! The host's loads and stores (20_memory.md R80 to R82; 45_host_access_and_system.md R250 to R252): one check decides between the
access and the fault `ADDR_RANGE`, and the access touches one sample, `DATA` and `ADDR`. -/

open Sys2Proof Sys2Proof.Machine Sys2Proof.Statement

namespace Sys2Proof.Proofs

variable {s : State} {sp : Space} {i : Instr}

/-! ### The checks -/

/-- The range check of the commands is R82's. -/
theorem inRange_iff (sp : Space) (s : State) : inRange sp s.addr.toNat s = true ↔ indexInRange sp s := by
  have harea : s.w * s.h = s.area := rfl
  cases sp <;> simp [inRange, indexInRange, harea]

theorem ldsCheck_of_inRange (hr : indexInRange sp s) : ldsCheck sp s = none := by
  rw [ldsCheck, if_pos ((inRange_iff sp s).2 hr)]

theorem ldsCheck_of_outOfRange (hr : ¬indexInRange sp s) : ldsCheck sp s = some .addrRange := by
  rw [ldsCheck, if_neg (mt (inRange_iff sp s).1 hr)]

theorem hostWritable_iff (sp : Space) : sp.hostWritable = true ↔ sp ≠ .visit ∧ sp ≠ .stack := by
  cases sp <;> simp [Space.hostWritable]

theorem storeLocked_iff (sp : Space) (s : State) : storeLocked sp s = true ↔ sp = .sup ∧ s.live = true := by
  simp [storeLocked]

/-- A store to a writable space that is not locked is checked for its range alone (R251). -/
theorem stsCheck_of_unlocked (hv : sp ≠ .visit) (hs : sp ≠ .stack) (hl : ¬(sp = .sup ∧ s.live = true)) :
    stsCheck sp s = ldsCheck sp s := by
  rw [stsCheck, if_pos ((hostWritable_iff sp).2 ⟨hv, hs⟩), if_neg (mt (storeLocked_iff sp s).1 hl), ldsCheck]

/-! ### The commands -/

/-- A command in `IDLE` whose checks pass runs its pseudocode (R104). -/
theorem exec_idle_ok (hn : i ≠ .srst) (hi : s.opstate = .idle) (hck : issueFault i s = none) :
    exec i s = commandBody i s := by
  rw [exec_eq_issue hn, issue_idle_ok hi hck]

/-- A command in `IDLE` with a check that fails records the fault and does nothing else (R104, R290). -/
theorem exec_idle_fault {c : Cause} (hn : i ≠ .srst) (hi : s.opstate = .idle) (hck : issueFault i s = some c) :
    exec i s = .next (faultedWith c (opcodeOf i) 0#8 s) := by
  rw [exec_eq_issue hn, issue_idle_fault hi hck]

/-- `ADDR` after the access (R252). -/
theorem postIncrement_eq_ite (inc : Bool) (s : State) :
    postIncrement inc s = { s with addr := if inc then s.addr + 1#32 else s.addr } := by
  cases inc <;> rfl

/-- Settles O52: the command is its pseudocode, and `DATA` holds the sample's value because an extension keeps it. -/
theorem ldsLoadsOneSample : Obligations.LdsLoadsOneSample := by
  refine ⟨fun s sp inc hi hr => ?_, fun s i => ⟨?_, ?_, rfl, rfl, ?_, ?_, rfl⟩⟩
  · rw [exec_idle_ok (i := .lds sp inc) nofun hi (ldsCheck_of_inRange hr), commandBody, postIncrement_eq_ite]
  · exact BitVec.toInt_signExtend_of_le (by decide)
  · exact BitVec.toInt_signExtend_of_le (by decide)
  · exact BitVec.toNat_setWidth_of_le (by decide)
  · exact BitVec.toNat_setWidth_of_le (by decide)

theorem memWrite_addr (sp : Space) (n : Nat) (v : Word) (s : State) : (memWrite sp n v s).addr = s.addr := by
  cases sp <;> rfl

/-- Settles O53: the store is the write of one sample, and `Mem.read_write_other` is its frame within the space. -/
theorem stsStoresOneSample : Obligations.StsStoresOneSample := by
  refine ⟨fun s sp inc hi hv hs hl hr => ?_, fun w inc => ⟨fun hd => ?_, fun hd => ?_⟩⟩
  · have hck : stsCheck sp s = none := (stsCheck_of_unlocked hv hs hl).trans (ldsCheck_of_inRange hr)
    refine ⟨_, exec_idle_ok (i := .sts sp inc) nofun hi hck, ?_⟩
    rw [postIncrement_eq_ite, memWrite_addr]
    refine ⟨rfl, ?_, ?_, ?_, ?_, ?_⟩
    all_goals
      rintro rfl
      exact ⟨rfl, Mem.read_write_same _ _ _, fun k hk => Mem.read_write_other _ _ hk⟩
  · exact nomatch decode_ok_wellFormed hd
  · exact nomatch decode_ok_wellFormed hd

/-- Settles O54: both commands fail the same range check, and a raster with a zero dimension has no index. -/
theorem outOfRangeFaults : Obligations.OutOfRangeFaults := by
  refine ⟨fun s sp inc hi hr => ⟨?_, fun hv hs hl => ?_⟩, ?_⟩
  · exact exec_idle_fault (i := .lds sp inc) nofun hi (ldsCheck_of_outOfRange hr)
  · exact exec_idle_fault (i := .sts sp inc) nofun hi ((stsCheck_of_unlocked hv hs hl).trans (ldsCheck_of_outOfRange hr))
  · rintro s sp hsp hz (⟨-, hlt, -⟩ | ⟨he, -⟩)
    · have harea : s.w * s.h = 0 := Nat.mul_eq_zero.2 hz
      omega
    · exact hsp he

end Sys2Proof.Proofs
end

section
/-! The command words (30_encoding.md R101, R105, R110, R119): a word is its fields put together again, so the decoder's rows,
each of which asks for its zero fields, are the encoder's. -/

open Sys2Proof Sys2Proof.Machine Sys2Proof.Statement

namespace Sys2Proof.Proofs

variable {w : Word} {i : Instr}

/-! ### A word from its fields (R101, R102) -/

theorem opField_append_zeroZ (w : Word) : opField w ++ zeroZ w = w :=
  (BitVec.extractLsb'_append_extractLsb'_eq_extractLsb' (x := w) (Nat.zero_add 24).symm).trans BitVec.extractLsb'_eq_self

theorem ofBool_incField (w : Word) : BitVec.ofBool (incField w) = w.extractLsb' 19 1 := by
  ext k hk
  obtain rfl : k = 0 := by omega
  simp [incField]

theorem fields_append_zeroM (w : Word) : opField w ++ spField w ++ BitVec.ofBool (incField w) ++ zeroM w = w := by
  have hsp : opField w ++ spField w = w.extractLsb' 20 12 :=
    BitVec.extractLsb'_append_extractLsb'_eq_extractLsb' (x := w) (start₁ := 20) (len₁ := 4) rfl
  have hinc : w.extractLsb' 20 12 ++ w.extractLsb' 19 1 = w.extractLsb' 19 13 :=
    BitVec.extractLsb'_append_extractLsb'_eq_extractLsb' rfl
  have hzero : w.extractLsb' 19 13 ++ zeroM w = w.extractLsb' 0 32 :=
    BitVec.extractLsb'_append_extractLsb'_eq_extractLsb' (x := w) (Nat.zero_add 19).symm
  rw [hsp, ofBool_incField, hinc, hzero, BitVec.extractLsb'_eq_self]

/-- A word with the opcode and the zero field of a format Z row is that row's word. -/
theorem formatZ_eq {op : Byte} (hop : (opField w).toNat = op.toNat) (hz : zeroZ w = 0#24) : formatZ op = w := by
  rw [formatZ, ← BitVec.eq_of_toNat_eq hop, ← hz, opField_append_zeroZ]

theorem spaceOfId_eq_some {n : BitVec 4} {sp : Space} (h : spaceOfId n = some sp) : spaceId sp = n := by
  unfold spaceOfId at h
  split at h
  iterate 7
    next hn =>
      cases h
      exact BitVec.eq_of_toNat_eq hn.symm
  cases h

/-- A word with the opcode, the space and the zero field of a format M row is that row's word. -/
theorem formatM_eq {op : Byte} {sp : Space} (hop : (opField w).toNat = op.toNat) (hsp : spaceOfId (spField w) = some sp)
    (hz : zeroM w = 0#19) : formatM op sp (incField w) = w := by
  rw [formatM, ← BitVec.eq_of_toNat_eq hop, spaceOfId_eq_some hsp, ← hz, fields_append_zeroM]

/-! ### The decoder and the encoder (R105) -/

theorem decodeM_eq_ok {make : Space → Bool → Except Illegal Instr} (h : decodeM w make = .ok i) :
    zeroM w = 0#19 ∧ ∃ sp, spaceOfId (spField w) = some sp ∧ make sp (incField w) = .ok i := by
  unfold decodeM at h
  split at h
  · next hz =>
    split at h
    · next sp hsp => exact ⟨hz, sp, hsp, h⟩
    · cases h
  · cases h

theorem makeSts_eq_ok {sp : Space} {inc : Bool} (h : makeSts sp inc = .ok i) : .sts sp inc = i := by
  unfold makeSts at h
  split at h
  · exact Except.ok.inj h
  · cases h

/-- A word that decodes is the encoding of its command: each row of the decoder has checked every bit of it. -/
theorem encode_eq_of_decode (h : decode w = .ok i) : encode i = w := by
  unfold decode at h
  split at h
  iterate 9
    next hop =>
      obtain ⟨hz, rfl⟩ := decodeZ_eq_ok h
      exact formatZ_eq hop hz
  · next hop =>
    obtain ⟨hz, sp, hsp, hi⟩ := decodeM_eq_ok h
    cases hi
    exact formatM_eq hop hsp hz
  · next hop =>
    obtain ⟨hz, sp, hsp, hi⟩ := decodeM_eq_ok h
    obtain rfl := makeSts_eq_ok hi
    exact formatM_eq hop hsp hz
  · next hop =>
    obtain ⟨hz, rfl⟩ := decodeZ_eq_ok h
    exact formatZ_eq hop hz
  · cases h

theorem decode_encode (h : i.wellFormed = true) : decode (encode i) = .ok i := by
  cases i with
  | lds sp inc => cases sp <;> cases inc <;> rfl
  | sts sp inc =>
    cases sp with
    | visit | stack => cases h
    | _ => cases inc <;> rfl
  | _ => rfl

/-- Settles O2: the two directions of the round trip. -/
theorem decodeIsInverseOfEncode : Obligations.DecodeIsInverseOfEncode := fun _ _ =>
  ⟨fun h => ⟨decode_ok_wellFormed h, encode_eq_of_decode h⟩, fun ⟨hi, hw⟩ => hw ▸ decode_encode hi⟩

/-! ### The legal words (R119) -/

theorem mem_legalWords_iff : (w, i) ∈ legalWords ↔ i.wellFormed = true ∧ encode i = w := by
  constructor
  · intro h
    have hlist : ∀ p ∈ legalWords, p.2.wellFormed = true ∧ encode p.2 = p.1 := by decide
    exact hlist _ h
  · rintro ⟨hi, rfl⟩
    cases i with
    | lds sp inc => cases sp <;> cases inc <;> decide
    | sts sp inc =>
      cases sp with
      | visit | stack => cases hi
      | _ => cases inc <;> decide
    | _ => decide

/-- Settles O1: the list holds the encoding of every well-formed term, and these are the words that decode. -/
theorem legalWordsAreTheThirtyFour : Obligations.LegalWordsAreTheThirtyFour := by
  have hmem : ∀ w i, decode w = .ok i ↔ (w, i) ∈ legalWords := fun w i =>
    (decodeIsInverseOfEncode w i).trans mem_legalWords_iff.symm
  refine ⟨rfl, hmem, fun w hw => ?_⟩
  cases hd : decode w with
  | ok i => exact absurd ((hmem w i).1 hd) (hw i)
  | error r => exact ⟨r, rfl⟩

/-- Settles O3: each word is decoded by evaluation. -/
theorem sampleWordsDecode : Obligations.SampleWordsDecode :=
  ⟨rfl, rfl, rfl, rfl, rfl, rfl, rfl, rfl, rfl⟩

/-! ### The illegal words (R110) -/

/-- The decoder refuses the word. -/
def Refuses (d : Except Illegal Instr) : Prop := ∃ r, d = .error r

@[simp] theorem refuses_error (r : Illegal) : Refuses (.error r) := ⟨r, rfl⟩

@[simp] theorem not_refuses_ok (i : Instr) : ¬Refuses (.ok i) := nofun

theorem refuses_decodeZ_iff : Refuses (decodeZ w i) ↔ zeroZ w ≠ 0#24 := by
  unfold decodeZ
  split <;> simp [*]

theorem spaceOfId_eq_none_iff (n : BitVec 4) : spaceOfId n = none ↔ 7 ≤ n.toNat := by
  unfold spaceOfId
  split
  iterate 7
    next hn => simp [hn]
  simp only [imp_false] at *
  simp only [true_iff]
  omega

/-- A format M row refuses a word for its zero field, for a reserved space id, or for what the row makes of the space. -/
theorem refuses_decodeM_iff {make : Space → Bool → Except Illegal Instr} : Refuses (decodeM w make) ↔
    zeroM w ≠ 0#19 ∨ 7 ≤ (spField w).toNat ∨ ∃ sp, spaceOfId (spField w) = some sp ∧ Refuses (make sp (incField w)) := by
  rw [← spaceOfId_eq_none_iff]
  unfold decodeM
  split
  · split <;> simp [*]
  · simp [*]

theorem refuses_makeSts_iff (sp : Space) (inc : Bool) : Refuses (makeSts sp inc) ↔ sp = .visit ∨ sp = .stack := by
  cases sp <;> simp [makeSts, Space.hostWritable]

theorem spaceOfId_unwritable_iff (n : BitVec 4) :
    (∃ sp, spaceOfId n = some sp ∧ (sp = .visit ∨ sp = .stack)) ↔ n.toNat = 5 ∨ n.toNat = 6 := by
  unfold spaceOfId
  split <;> simp_all

/-- R110's cases, in the decoder's names for the fields. -/
theorem illegalWord_iff : illegalWord w ↔
    (opField w).toNat ∉ [0x00, 0x01, 0x02, 0x03, 0x04, 0x05, 0x06, 0x08, 0x09, 0x10, 0x11, 0xFF] ∨
    ((opField w).toNat ∈ [0x00, 0x01, 0x02, 0x03, 0x04, 0x05, 0x06, 0x08, 0x09, 0xFF] ∧ zeroZ w ≠ 0#24) ∨
    ((opField w).toNat ∈ [0x10, 0x11] ∧ zeroM w ≠ 0#19) ∨
    ((opField w).toNat ∈ [0x10, 0x11] ∧ 7 ≤ (spField w).toNat) ∨
    ((opField w).toNat = 0x11 ∧ ((spField w).toNat = 5 ∨ (spField w).toNat = 6)) := Iff.rfl

theorem refuses_decode_iff : Refuses (decode w) ↔ illegalWord w := by
  rw [illegalWord_iff]
  unfold decode
  split
  iterate 9
    next hop => simp [hop, refuses_decodeZ_iff]
  · next hop => simp [hop, refuses_decodeM_iff, makeLds]
  · next hop => simp [hop, refuses_decodeM_iff, refuses_makeSts_iff, spaceOfId_unwritable_iff]
  · next hop => simp [hop, refuses_decodeZ_iff]
  · simp_all

end Sys2Proof.Proofs
end

section
/-! A word written to `CMD` (30_encoding.md R104): what each `OPSTATE` makes of it, and the busy interval (70_reset_and_hazards.md
R330, R340). -/

open Sys2Proof Sys2Proof.Machine Sys2Proof.Statement

namespace Sys2Proof.Proofs

variable {s : State} {w : Word} {i : Instr} {rest : List Input}

/-! ### The write to `CMD` (R104) -/

theorem step_writeCmd (h : s.takes (.write 0x01#8 w) rest) : step s = writeCmd w (takeInput rest s) := step_takes h

theorem ne_srstWord_of_error {r : Illegal} (hd : decode w = .error r) : w ≠ srstWord := by
  rintro rfl
  cases hd

theorem writeCmd_faulted (hw : w ≠ srstWord) (hf : s.opstate = .faulted) : writeCmd w s = .next s := by
  simp [writeCmd, hw, hf]

theorem writeCmd_busy (hw : w ≠ srstWord) (hb : s.opstate = .busy i) :
    writeCmd w s = .next (faultedWith .busyViolation (opcodeOf i) cmdNumber (abandon i s)) := by
  simp [writeCmd, hw, hb, busyViolation_eq hb]

theorem writeCmd_idle_error {r : Illegal} (hd : decode w = .error r) (hi : s.opstate = .idle) :
    writeCmd w s = .next (faultedWith .illegalCmd (opField w) 0#8 s) := by
  simp [writeCmd, ne_srstWord_of_error hd, hi, hd, raiseFault_idle hi]

/-- The word of `SRST` never reaches the issue of R104, and no other word decodes to it. -/
theorem writeCmd_idle_ok (hd : decode w = .ok i) (hi : s.opstate = .idle) :
    writeCmd w s = if i = .srst then exec i s else issueIdle i s := by
  by_cases hn : i = .srst
  · subst hn
    have hw : w = srstWord := (encode_eq_of_decode hd).symm
    rw [writeCmd, if_pos hw, if_pos rfl]
  · have hw : w ≠ srstWord := by
      rintro rfl
      cases hd
      exact hn rfl
    simp [writeCmd, hw, hi, hd, hn]

/-- Settles O4: R110's cases are those in which the decoder refuses, and `OPSTATE` decides what a refused word does. -/
theorem illegalWordsFault : Obligations.IllegalWordsFault := by
  refine ⟨fun w => refuses_decode_iff, fun s w rest ht hw => ?_⟩
  obtain ⟨r, hd⟩ := refuses_decode_iff.2 hw
  have hne : w ≠ srstWord := ne_srstWord_of_error hd
  rw [step_writeCmd ht]
  refine ⟨fun hi => ?_, fun hf => ?_, fun i hb => ?_⟩
  · exact writeCmd_idle_error (s := takeInput rest s) hd hi
  · exact writeCmd_faulted (s := takeInput rest s) hne hf
  · exact ⟨_, writeCmd_busy (s := takeInput rest s) hne hb, rfl, rfl⟩

/-! ### The issue of a command (R104 steps 5 and 6) -/

/-- A command that fails a check faults whatever the next input is. -/
theorem issueIdle_of_fault {c : Cause} (hn : i ≠ .srst) (hi : s.opstate = .idle) (hck : issueFault i s = some c) :
    issueIdle i s = exec i s := by
  simp [issueIdle, hck, exec_idle_fault hn hi hck, raiseFault_idle hi]

theorem issueIdle_of_not_overlapped (ho : overlapped s = false) : issueIdle i s = exec i s := by
  rw [issueIdle, ho]
  rfl

theorem issueIdle_of_overlapped (ho : overlapped s = true) (hck : issueFault i s = none) :
    issueIdle i s = .next (accept i s) := by
  rw [issueIdle, ho, hck]
  rfl

theorem issueFault_takeInput (i : Instr) (rest : List Input) (s : State) :
    issueFault i (takeInput rest s) = issueFault i s := issueFault_congr i rfl rfl rfl rfl rfl rfl rfl

/-- A step that takes a legal word in `IDLE`. -/
theorem step_command (ht : s.takes (.write 0x01#8 w) rest) (hi : s.opstate = .idle) (hd : decode w = .ok i) :
    step s = if i = .srst then exec i (takeInput rest s) else issueIdle i (takeInput rest s) := by
  rw [step_writeCmd ht, writeCmd_idle_ok (s := takeInput rest s) hd hi]

theorem step_command_not_overlapped (ht : s.takes (.write 0x01#8 w) rest) (hi : s.opstate = .idle) (hd : decode w = .ok i)
    (ho : overlapped (takeInput rest s) = false) : step s = exec i (takeInput rest s) := by
  rw [step_command ht hi hd, issueIdle_of_not_overlapped ho, ite_self]

theorem withFetchWord_takes (s : State) (n : Nat) :
    (s.withFetchWord 32 n).takes (.write 0x01#8 (tableWord 32 n)) [] := ⟨true, rfl, fun _ => rfl⟩

theorem decodeTableWord_eq_some {nbits n : Nat} (h : decodeTableWord nbits n = some i) : decode (tableWord nbits n) = .ok i := by
  unfold decodeTableWord at h
  split at h
  · next hd => rw [hd, Option.some.inj h]
  · cases h

/-- Settles O5: by what the next input and the issue-time checks say, the step is `exec` or the acceptance. -/
theorem stepRunsTheDecodedCommand : Obligations.StepRunsTheDecodedCommand := by
  refine ⟨fun s w i rest ht hi hd => ⟨step_command_not_overlapped ht hi hd, fun ho hx => ?_, fun ho hn hck => ?_⟩,
    fun s n i hi hd => ?_⟩
  · rw [step_command ht hi hd]
    split
    · rfl
    · next hn =>
      obtain ⟨c, hck⟩ := hx.resolve_left hn
      exact issueIdle_of_fault hn hi ((issueFault_takeInput i rest s).trans hck)
  · rw [step_command ht hi hd, if_neg hn]
    exact issueIdle_of_overlapped ho ((issueFault_takeInput i rest s).trans hck)
  · exact step_command_not_overlapped (withFetchWord_takes s n) hi (decodeTableWord_eq_some hd) rfl

/-! ### The busy interval (R330, R340) -/

theorem proceed_busy (hb : s.opstate = .busy i) : proceed s = exec i { s with opstate := .idle } := by
  rw [proceed, hb]
  rfl

theorem proceed_of_not_busy (hb : s.busyFlag = false) : proceed s = .next s := by
  cases ho : s.opstate with
  | busy i => simp [State.busyFlag, ho] at hb
  | idle | faulted => rw [proceed, ho]

theorem waits_of_busy (hb : s.opstate = .busy i) (a : HostAction) : waits { early := false, act := a } s = true := by
  simp [waits, State.busyFlag, hb]

/-- Settles O6: a busy block with nothing early to take completes its command, from the state in which it was accepted. -/
theorem busyIntervalEndsInCompletion : Obligations.BusyIntervalEndsInCompletion := by
  refine ⟨fun s i hb hq => ?_, fun s i hi hq => ?_, fun s hq hb => ?_⟩
  · rw [step_proceeds, proceed_busy hb]
    exact hq.imp_right fun ⟨a, rest, h⟩ => ⟨_, rest, h, waits_of_busy hb a⟩
  · have hq' : (accept i s).inputs = [] := hq
    rw [step_proceeds (.inl hq'), proceed_busy (accept_opstate i s), ← hi]
    rfl
  · rw [step_proceeds (.inl hq), proceed_of_not_busy hb]

end Sys2Proof.Proofs
end

section
/-! The traversal ends within the bound of R211 (43_hysteresis_tracer_eager.md). The idea: every step but the last lowers a weight
that charges each pixel left to the scan one step and each Unvisited pixel eight: a pop, six expansions and, after a seed, the pop
that finds the stack empty. -/

open Sys2Proof Sys2Proof.Machine

namespace Sys2Proof.Proofs

variable {depth : Nat} {s t : State} {e : Event}

/-- A traversal whose cursor is in range (R41): all that its length depends on. -/
structure CursorInRange (s : State) : Prop where
  context : s.phase ≠ .off
  width : 3 ≤ s.w
  left : 1 ≤ s.sx.toNat
  right : s.sx.toNat + 2 ≤ s.w
  top : 1 ≤ s.sy.toNat
  bottom : s.sy.toNat + 1 ≤ s.h
  finalCursor : s.sy.toNat + 1 = s.h → s.sx.toNat = 1

/-- The interior positions from the cursor on (R41). -/
def positionsLeft (s : State) : Nat := (s.h - 1 - s.sy.toNat) * (s.w - 2) - (s.sx.toNat - 1)

/-- The steps that the pixel now expanded, or the return to the scan, still takes. -/
def phaseSteps (p : Phase) (k : Fin 6) : Nat :=
  match p with
  | .off => 0
  | .scan => 0
  | .pop => 1
  | .expand => 7 - k.val
  | .done => 0

/-- The weight of a traversal state: a bound on the steps before the last one (R211). -/
def stepsLeft (s : State) : Nat := positionsLeft s + 8 * s.unvisited + 7 * s.sp.toNat + phaseSteps s.phase s.k

/-! ### The parts of a step -/

/-- The scan's advance leaves one position less (R41). -/
theorem positionsLeft_advanceCursor (h : CursorInRange s) (hy : s.sy.toNat + 1 < s.h) :
    positionsLeft (advanceCursor s) + 1 = positionsLeft s := by
  obtain ⟨-, hw, hl, hr, ht, hb, -⟩ := h
  obtain ⟨rows, hrows⟩ : ∃ rows, s.h - 1 - s.sy.toNat = rows + 1 := ⟨s.h - 2 - s.sy.toNat, by omega⟩
  have hw' : s.w < 65536 := s.width.isLt
  have hh' : s.h < 65536 := s.height.isLt
  rw [positionsLeft, positionsLeft, advanceCursor_w, advanceCursor_h, hrows, Nat.succ_mul]
  unfold advanceCursor
  split
  · have ex : (s.sx + 1#16).toNat = s.sx.toNat + 1 := BitVec.toNat_add_of_lt (by simp; omega)
    simp only [hrows, Nat.succ_mul, ex]
    omega
  · have ey : (s.sy + 1#16).toNat = s.sy.toNat + 1 := BitVec.toNat_add_of_lt (by simp; omega)
    have hrows' : s.h - 1 - (s.sy.toNat + 1) = rows := by omega
    simp [ey, hrows']
    omega

theorem CursorInRange.advanceCursor (h : CursorInRange s) (hy : s.sy.toNat + 1 < s.h) :
    CursorInRange (Machine.advanceCursor s) := by
  obtain ⟨hc, hw, hl, hr, ht, hb, -⟩ := h
  have hw' : s.w < 65536 := s.width.isLt
  have hh' : s.h < 65536 := s.height.isLt
  unfold Machine.advanceCursor
  split
  · have ex : (s.sx + 1#16).toNat = s.sx.toNat + 1 := BitVec.toNat_add_of_lt (by simp; omega)
    exact ⟨hc, hw, by simp [ex], show (s.sx + 1#16).toNat + 2 ≤ s.w by omega, ht, hb, fun he => absurd he hy.ne⟩
  · have ey : (s.sy + 1#16).toNat = s.sy.toNat + 1 := BitVec.toNat_add_of_lt (by simp; omega)
    exact ⟨hc, hw, le_rfl, hw, by simp [ey], show (s.sy + 1#16).toNat + 1 ≤ s.h by omega, fun _ => rfl⟩

theorem CursorInRange.cursor_interior (h : CursorInRange s) (hy : s.sy.toNat + 1 < s.h) :
    s.interior s.sx.toNat s.sy.toNat = true := by
  obtain ⟨-, -, hl, hr, ht, -, -⟩ := h
  exact interior_iff.2 (by omega)

theorem CursorInRange.inPhase (h : CursorInRange s) {p : Phase} (hp : p ≠ .off) : CursorInRange (Proofs.inPhase p s) :=
  { h with context := hp }

theorem nextNeighbour_phaseSteps (hp : s.phase = .expand) :
    phaseSteps (nextNeighbour s).phase (nextNeighbour s).k + 1 = phaseSteps s.phase s.k := by
  have hk := s.k.isLt
  unfold nextNeighbour
  split
  · next h5 => simp [phaseSteps, hp, h5]
  · next h5 =>
    simp [phaseSteps, hp]
    omega

theorem unvisited_markAndPush {x y : Half} (hi : s.interior x.toNat y.toNat = true)
    (hv : s.visit.read (s.idx x.toNat y.toNat) = 0#1) : (markAndPush x y s).unvisited + 1 = s.unvisited :=
  unvisited_write_visit hi hv

theorem markAndPush_sp_le (x y : Half) (s : State) : (markAndPush x y s).sp.toNat ≤ s.sp.toNat + 1 := by
  show (s.sp + 1#32).toNat ≤ _
  rw [BitVec.toNat_add]
  exact Nat.mod_le _ _

theorem stepsLeft_markAndPush {x y : Half} (hi : s.interior x.toNat y.toNat = true)
    (hv : s.visit.read (s.idx x.toNat y.toNat) = 0#1) : stepsLeft (markAndPush x y s) + 1 ≤ stepsLeft s := by
  have hu := unvisited_markAndPush hi hv
  have hsp := markAndPush_sp_le x y s
  have hp : positionsLeft (markAndPush x y s) = positionsLeft s := rfl
  have hq : phaseSteps (markAndPush x y s).phase (markAndPush x y s).k = phaseSteps s.phase s.k := rfl
  unfold stepsLeft
  omega

theorem stepsLeft_advanceCursor (h : CursorInRange s) (hy : s.sy.toNat + 1 < s.h) :
    stepsLeft (advanceCursor s) + 1 = stepsLeft s := by
  have hp := positionsLeft_advanceCursor h hy
  have hu : (advanceCursor s).unvisited = s.unvisited := by
    rw [advanceCursor_eq]
    rfl
  simp only [stepsLeft, hu, advanceCursor_sp, advanceCursor_phase, advanceCursor_k]
  omega

theorem stepsLeft_nextNeighbour (hp : s.phase = .expand) : stepsLeft (nextNeighbour s) + 1 = stepsLeft s := by
  have hk := nextNeighbour_phaseSteps hp
  have hpos : positionsLeft (nextNeighbour s) = positionsLeft s := by
    rw [nextNeighbour_eq]
    rfl
  have hu : (nextNeighbour s).unvisited = s.unvisited := by
    rw [nextNeighbour_eq]
    rfl
  simp only [stepsLeft, hpos, hu, nextNeighbour_sp]
  omega

theorem stepsLeft_popForExpansion (hp : s.phase = .pop) (hz : s.sp ≠ 0#32) :
    stepsLeft (popForExpansion s) + 1 = stepsLeft s := by
  have hsp : (s.sp - 1#32).toNat + 1 = s.sp.toNat := by bv_omega
  show positionsLeft s + 8 * s.unvisited + 7 * (s.sp - 1#32).toNat + 7 + 1 =
    positionsLeft s + 8 * s.unvisited + 7 * s.sp.toNat + phaseSteps s.phase s.k
  rw [hp]
  simp only [phaseSteps]
  omega

theorem stepsLeft_inPhase (p : Phase) (s : State) :
    stepsLeft (inPhase p s) + phaseSteps s.phase s.k = stepsLeft s + phaseSteps p s.k :=
  Nat.add_right_comm _ _ _

theorem CursorInRange.nextNeighbour (h : CursorInRange s) (hp : s.phase = .expand) :
    CursorInRange (Machine.nextNeighbour s) := by
  have hc : (Machine.nextNeighbour s).phase ≠ .off := by
    rcases nextNeighbour_phase hp with he | he <;> simp [he]
  obtain ⟨-, hw, hl, hr, ht, hb, hf⟩ := h
  rw [nextNeighbour_eq] at hc ⊢
  exact ⟨hc, hw, hl, hr, ht, hb, hf⟩

/-! ### The step -/

/-- A step that does not end the traversal lowers the weight (R211). -/
theorem CursorInRange.step (h : CursorInRange s) (hs : tStep depth s = .step t e) (he : e ≠ .done) :
    CursorInRange t ∧ stepsLeft t < stepsLeft s := by
  cases tracerStep_of_tStep hs with
  | stay | finish => exact absurd rfl he
  | skip hp hy hq =>
    have hw := stepsLeft_advanceCursor h hy
    exact ⟨h.advanceCursor hy, by omega⟩
  | seed hp hy hq _ =>
    have hr : CursorInRange (Proofs.inPhase .pop (Machine.advanceCursor s)) := (h.advanceCursor hy).inPhase (by decide)
    have hw := stepsLeft_advanceCursor h hy
    have hpop := stepsLeft_inPhase .pop (Machine.advanceCursor s)
    rw [advanceCursor_phase, hp] at hpop
    simp only [phaseSteps] at hpop
    have hpush : stepsLeft (markAndPush s.sx s.sy (Proofs.inPhase .pop (Machine.advanceCursor s))) + 1 ≤ _ :=
      stepsLeft_markAndPush ((advanceCursor_interior s _ _).trans (h.cursor_interior hy)) (by simpa using qualifies_unvisited hq)
    exact ⟨{ hr with }, by omega⟩
  | resume hp hz =>
    have hw := stepsLeft_inPhase .scan s
    rw [hp] at hw
    simp only [phaseSteps] at hw
    exact ⟨h.inPhase (by decide), by omega⟩
  | take hp hz =>
    have hw := stepsLeft_popForExpansion hp hz
    exact ⟨{ h with context := nofun }, by omega⟩
  | pass hp _ =>
    have hw := stepsLeft_nextNeighbour hp
    exact ⟨h.nextNeighbour hp, by omega⟩
  | spread x y hp hx hy hi hq _ =>
    have hr := h.nextNeighbour hp
    have hw := stepsLeft_nextNeighbour hp
    have hpush : stepsLeft (markAndPush x y (Machine.nextNeighbour s)) + 1 ≤ _ :=
      stepsLeft_markAndPush (by simpa using hi) (by simpa using qualifies_unvisited hq)
    exact ⟨{ hr with }, by omega⟩

theorem discover_ne_off (depth : Nat) (x y : Half) (u : State) : discover depth x y u ≠ .off := by
  rcases discover_cases depth x y u with ⟨-, hd⟩ | ⟨-, hd⟩ <;> simp [hd]

theorem tStep_ne_off (h : s.phase ≠ .off) : tStep depth s ≠ .off := by
  rcases tStep_cases depth s with ⟨hp, -⟩ | ⟨-, hs⟩ | ⟨-, -, hs⟩ | ⟨-, -, -, hs⟩ | ⟨-, -, -, hs⟩ | ⟨-, -, hs⟩ | ⟨-, -, hs⟩ |
    ⟨-, -, hs⟩ | ⟨-, -, hs⟩
  · exact absurd hp h
  all_goals
    rw [hs]
    simp [discover_ne_off]

/-! ### The loop of `TRACE` -/

theorem CursorInRange.writeForeground (h : CursorInRange s) (x y : Half) : CursorInRange (Machine.writeForeground x y s) :=
  { h with }

/-- The loop ends when it is allowed one step more than the weight. -/
theorem traceLoop_ends {n : Nat} (h : CursorInRange s) (hn : stepsLeft s < n) :
    (∃ t, traceLoop depth n s = .done t) ∨ traceLoop depth n s = .overflow := by
  induction n generalizing s with
  | zero => omega
  | succ n ih =>
    unfold traceLoop
    cases hs : tStep depth s with
    | step t e =>
      cases e with
      | none =>
        obtain ⟨ht, hw⟩ := h.step hs nofun
        exact ih ht (by omega)
      | found x y =>
        obtain ⟨ht, hw⟩ := h.step hs nofun
        have hf : stepsLeft (Machine.writeForeground x y t) = stepsLeft t := rfl
        exact ih (ht.writeForeground x y) (by omega)
      | done => exact .inl ⟨t, rfl⟩
    | overflow => exact .inr rfl
    | off => exact absurd hs (tStep_ne_off h.context)

theorem traceStart_cursorInRange (hw : 3 ≤ s.w) (hh : 3 ≤ s.h) : CursorInRange (traceStart s) :=
  ⟨nofun, hw, le_rfl, hw, le_rfl, show 1 + 1 ≤ s.h by omega, fun _ => rfl⟩

theorem stepsLeft_traceStart_lt (s : State) : stepsLeft (traceStart s) < traceBound s := by
  have hu : (traceStart s).unvisited ≤ s.interiorCount := unvisited_le_interiorCount (traceStart s)
  have hp : positionsLeft (traceStart s) = s.interiorCount := by
    show (s.h - 1 - 1) * (s.w - 2) - 0 = (s.w - 2) * (s.h - 2)
    rw [Nat.mul_comm]
    rfl
  have hrest : 7 * (traceStart s).sp.toNat + phaseSteps (traceStart s).phase (traceStart s).k = 0 := rfl
  unfold stepsLeft traceBound
  omega

/-- R211: whatever the depth of the stack, the traversal ends within its bound, in `Done` or in `STACK_OVF`. -/
theorem traceLoop_traceStart_ends (depth : Nat) (hw : 3 ≤ s.w) (hh : 3 ≤ s.h) :
    (∃ t, traceLoop depth (traceBound s) (traceStart s) = .done t) ∨
      traceLoop depth (traceBound s) (traceStart s) = .overflow :=
  traceLoop_ends (traceStart_cursorInRange hw hh) (stepsLeft_traceStart_lt s)

end Sys2Proof.Proofs
end

section
/-! The scripts of the host (30_encoding.md R115, R118). The idea: a command does not read the queue of inputs or the value last
returned (log 1, log 3), so it runs between two inputs of a script as it runs alone. -/

open Sys2Proof Sys2Proof.Machine Sys2Proof.Statement

namespace Sys2Proof.Proofs

variable {depth : Nat} {s t u : State} {i : Instr} {ins rest : List Input} {lr : Option Word}

/-! ### The host's side of the state -/

/-- The state with another queue of inputs and another value last read. -/
def withHost (ins : List Input) (lr : Option Word) (s : State) : State := { s with inputs := ins, lastRead := lr }

/-- The same outcome of a tracer step, seen with another host. -/
def stepWithHost (ins : List Input) (lr : Option Word) : TOutcome → TOutcome
  | .step t e => .step (withHost ins lr t) e
  | .overflow => .overflow
  | .off => .off

theorem advanceCursor_withHost (s : State) : advanceCursor (withHost ins lr s) = withHost ins lr (advanceCursor s) := by
  rw [advanceCursor, advanceCursor, apply_ite (withHost ins lr)]
  rfl

theorem nextNeighbour_withHost (s : State) : nextNeighbour (withHost ins lr s) = withHost ins lr (nextNeighbour s) := by
  rw [nextNeighbour, nextNeighbour, apply_ite (withHost ins lr)]
  rfl

theorem discover_withHost (x y : Half) (s : State) :
    discover depth x y (withHost ins lr s) = stepWithHost ins lr (discover depth x y s) := by
  by_cases h : depth ≤ s.sp.toNat
  · rw [discover_full h, discover_full (s := withHost ins lr s) h]
    rfl
  · have hd := (discover_cases depth x y s).resolve_right fun ho => h ho.1
    have hd' := (discover_cases depth x y (withHost ins lr s)).resolve_right fun ho => h ho.1
    rw [hd.2, hd'.2]
    rfl

theorem stepScan_withHost (s : State) : stepScan depth (withHost ins lr s) = stepWithHost ins lr (stepScan depth s) := by
  unfold stepScan
  rw [advanceCursor_withHost, apply_ite (stepWithHost ins lr), apply_ite (stepWithHost ins lr), ← discover_withHost]
  rfl

theorem stepPop_withHost (s : State) : stepPop (withHost ins lr s) = stepWithHost ins lr (stepPop s) := by
  by_cases hz : s.sp = 0#32
  · rw [stepPop, stepPop, pop_empty hz, pop_empty (s := withHost ins lr s) hz]
    rfl
  · rw [stepPop, stepPop, pop_some hz, pop_some (s := withHost ins lr s) hz]
    rfl

theorem stepExpand_withHost (s : State) : stepExpand depth (withHost ins lr s) = stepWithHost ins lr (stepExpand depth s) := by
  unfold stepExpand
  rw [nextNeighbour_withHost]
  simp only [apply_ite (stepWithHost ins lr), ← discover_withHost]
  rfl

theorem tStep_withHost (s : State) : tStep depth (withHost ins lr s) = stepWithHost ins lr (tStep depth s) := by
  have hp : (withHost ins lr s).phase = s.phase := rfl
  rw [tStep, tStep, hp]
  cases s.phase with
  | scan => exact stepScan_withHost s
  | pop => exact stepPop_withHost s
  | expand => exact stepExpand_withHost s
  | off | done => rfl

/-- The same end of `TRACE`'s loop, seen with another host. -/
def endWithHost (ins : List Input) (lr : Option Word) : TraceEnd → TraceEnd
  | .done t => .done (withHost ins lr t)
  | .overflow => .overflow
  | .off => .off
  | .bound => .bound

theorem traceLoop_withHost (n : Nat) (s : State) :
    traceLoop depth n (withHost ins lr s) = endWithHost ins lr (traceLoop depth n s) := by
  induction n generalizing s with
  | zero => rfl
  | succ n ih =>
    rw [traceLoop, traceLoop, tStep_withHost]
    cases tStep depth s with
    | step t e =>
      cases e with
      | none => exact ih t
      | found x y => exact ih (writeForeground x y t)
      | done => rfl
    | overflow | off => rfl

/-! ### The three commands of the pipeline -/

/-- The command takes one state to the other, whatever the host's side of them is. -/
def RunsTo (i : Instr) (s u : State) : Prop := ∀ ins lr, exec i (withHost ins lr s) = .next (withHost ins lr u)

/-- A command whose checks pass runs as its pseudocode does. -/
theorem runsTo_of_body (hn : i ≠ .srst) (hi : s.opstate = .idle) (hck : issueFault i s = none)
    (hb : ∀ ins lr, commandBody i (withHost ins lr s) = .next (withHost ins lr u)) : RunsTo i s u := by
  intro ins lr
  have hck' : issueFault i (withHost ins lr s) = none := (issueFault_congr i rfl rfl rfl rfl rfl rfl rfl).trans hck
  exact (exec_idle_ok (s := withHost ins lr s) hn hi hck').trans (hb ins lr)

theorem dimCheck_of_ready (h : traversalReady s) : dimCheck s = none := by
  obtain ⟨-, -, -, hdims⟩ := h
  exact dimCheck_eq_none_iff.2 hdims

theorem traversalCheck_of_ready (h : traversalReady s) : traversalCheck s = none := by
  have hd := dimCheck_of_ready h
  obtain ⟨-, hl, hth, -⟩ := h
  simp [traversalCheck, hl, hth, hd]

theorem nmsCheck_of_ready (h : traversalReady s) : nmsCheck s = none := by
  have hd := dimCheck_of_ready h
  obtain ⟨-, hl, -⟩ := h
  simp [nmsCheck, hl, hd]

theorem hypotCheck_of_ready (h : traversalReady s) : hypotCheck s = none := by
  obtain ⟨-, -, -, hcap, -⟩ := h
  have harea : ¬Config.cap < s.area := Nat.not_lt.2 hcap
  simp [hypotCheck, dimTooLarge, harea]

theorem hypot_runsTo (h : traversalReady s) : RunsTo .hypot s (hypotRaster hypotFn s) :=
  runsTo_of_body nofun h.1 (hypotCheck_of_ready h) fun _ _ => rfl

theorem nms_runsTo (h : traversalReady s) : RunsTo .nms s (nmsRaster dirFn s) :=
  runsTo_of_body nofun h.1 (nmsCheck_of_ready h) fun _ _ => rfl

theorem traceBody_of_done (h : traceLoop depth (traceBound s) (traceStart s) = .done t) : traceBody depth s = .next t := by
  rw [traceBody, h]

theorem traceBody_of_overflow (h : traceLoop depth (traceBound s) (traceStart s) = .overflow) :
    traceBody depth s = .next (stackOverflow .trace s) := by
  rw [traceBody, h]

theorem traceBody_withHost_of_done (h : traceLoop depth (traceBound s) (traceStart s) = .done t) :
    traceBody depth (withHost ins lr s) = .next (withHost ins lr t) :=
  traceBody_of_done ((traceLoop_withHost _ _).trans (congrArg (endWithHost ins lr) h))

theorem traceBody_withHost_of_overflow (h : traceLoop depth (traceBound s) (traceStart s) = .overflow) :
    traceBody depth (withHost ins lr s) = .next (stackOverflow .trace (withHost ins lr s)) :=
  traceBody_of_overflow ((traceLoop_withHost _ _).trans (congrArg (endWithHost ins lr) h))

theorem stackOverflow_trace_withHost (hi : s.opstate = .idle) :
    stackOverflow .trace (withHost ins lr s) = withHost ins lr (stackOverflow .trace s) := by
  have ho : ∀ x : State, x.opstate = .idle → (forgetPix (forgetTracer (abandonSpaces .trace x))).opstate = .idle := by
    intro x hx
    rw [forgetPix_opstate, forgetTracer_opstate, abandonSpaces_eq]
    exact hx
  rw [stackOverflow, stackOverflow, raiseFault_idle (ho s hi), raiseFault_idle (ho (withHost ins lr s) hi)]
  rfl

/-- The traversal leaves the block in the operating state it started in (R200). -/
theorem traceLoop_done_opstate {n : Nat} (h : traceLoop depth n s = .done t) : t.opstate = s.opstate := by
  have keep : ∀ u v e, u.opstate = s.opstate → tStep depth u = .step v e → v.opstate = s.opstate :=
    fun u v _ hu hv => (congrArg State.opstate (sameOutsideTraversal_step hv) :).trans hu
  rcases traceLoop_induct (·.opstate = s.opstate) (fun u v => keep u v .none) (fun u v x y => keep u v (.found x y)) n s rfl with
    ⟨u, v, hu, hv, hl⟩ | ⟨-, -, -, hl⟩ | ⟨-, -, -, hl⟩ | hl <;> rw [hl] at h <;> cases h
  exact keep u t _ hu hv

/-- `TRACE` ends, at the end of the traversal or in `STACK_OVF`, and leaves the block not busy (R211, R215). -/
theorem trace_runsTo (h : traversalReady s) : ∃ t, RunsTo .trace s t ∧ t.busyFlag = false := by
  have hck := traversalCheck_of_ready h
  obtain ⟨hi, -, -, -, hw, hh⟩ := h
  rcases traceLoop_traceStart_ends Config.stackDepth hw hh with ⟨t, hl⟩ | hl
  · have ho : t.opstate = .idle := (traceLoop_done_opstate hl).trans hi
    refine ⟨t, runsTo_of_body nofun hi hck fun ins lr => traceBody_withHost_of_done hl, ?_⟩
    rw [State.busyFlag, ho]
  · refine ⟨stackOverflow .trace s, runsTo_of_body nofun hi hck fun ins lr => ?_, ?_⟩
    · rw [← stackOverflow_trace_withHost hi]
      exact traceBody_withHost_of_overflow hl
    · rw [State.busyFlag, stackOverflow, raiseFault_opstate]

/-! ### A command and its poll -/

/-- `STATUS` is readable in every `OPSTATE` (R255). -/
theorem readRegister_status (s : State) : readRegister 0x02#8 s = returnValue (statusWord s) s := by
  have hv : regValue 0x02#8 s = some (statusWord s) := rfl
  unfold readRegister
  split <;> simp [hv, readableWhenBusy]

theorem run_of_step {n : Nat} (h : step s = .next t) : core.run (n + 1) s = core.run n t := by
  have h' : core.step s = .next t := h
  simp only [Host.Core.run, h']

/-- An input of a script is taken at once by a block that is not busy. -/
theorem withHost_takes (hb : s.busyFlag = false) (n : Byte) (v : Word) :
    (withHost (scriptWrite n v :: rest) lr s).takes (.write n v) rest ∧
      (withHost (scriptRead n :: rest) lr s).takes (.read n) rest := by
  have hb' : ∀ ins, (withHost ins lr s).busyFlag ≠ true := fun _ ht => absurd (hb.symm.trans ht) (by decide)
  exact ⟨⟨false, rfl, fun ht => absurd ht (hb' _)⟩, ⟨false, rfl, fun ht => absurd ht (hb' _)⟩⟩

/-- A command line of a script and a poll that finds the block not busy: two steps, and the poll reads `STATUS` (R115). -/
theorem run_scriptRun {n : Nat} (hw : i.wellFormed = true) (hi : s.opstate = .idle) (hx : RunsTo i s u)
    (hb : u.busyFlag = false) :
    core.run (n + 2) (withHost (scriptRun 0 i ++ rest) lr s) = core.run n (withHost rest (some (statusWord u)) u) := by
  have hcommand : step (withHost (scriptRun 0 i ++ rest) lr s) = .next (withHost (scriptRead 0x02#8 :: rest) lr u) := by
    have hs : s.busyFlag = false := by rw [State.busyFlag, hi]
    exact (step_command_not_overlapped (withHost_takes hs _ _).1 hi (decode_encode hw) rfl).trans (hx _ lr)
  have hpoll : step (withHost (scriptRead 0x02#8 :: rest) lr u) = .next (withHost rest (some (statusWord u)) u) :=
    (step_takes (withHost_takes hb 0x02#8 0#32).2).trans (congrArg Host.Outcome.next (readRegister_status _))
  rw [run_of_step hcommand, run_of_step hpoll]

/-- Settles O7: each of the three commands passes its checks, `TRACE` ends, and the polls between them change only the value last
read, which no command reads. -/
theorem cannyScriptRunsThePipeline : Obligations.CannyScriptRunsThePipeline := by
  intro s h hq
  have hu : traversalReady (hypotRaster hypotFn s) := h
  have hv : traversalReady (nmsRaster dirFn (hypotRaster hypotFn s)) := h
  obtain ⟨t, ht, hb⟩ := trace_runsTo hv
  have hidle : ∀ x, traversalReady x → x.busyFlag = false := fun x hx => by rw [State.busyFlag, hx.1]
  have hs : s = withHost (scriptCanny 0) s.lastRead s := by rw [← hq]; rfl
  refine ⟨_, _, _, hypot_runsTo h [] s.lastRead, nms_runsTo hu [] s.lastRead, ht [] s.lastRead, ?_⟩
  calc core.run 6 s
      = core.run 6 (withHost (scriptRun 0 .hypot ++ (scriptRun 0 .nms ++ (scriptRun 0 .trace ++ []))) s.lastRead s) := by
        rw [hs]; rfl
    _ = core.run 4 (withHost (scriptRun 0 .nms ++ (scriptRun 0 .trace ++ [])) _ _) :=
        run_scriptRun rfl h.1 (hypot_runsTo h) (hidle _ hu)
    _ = core.run 2 (withHost (scriptRun 0 .trace ++ []) _ _) := run_scriptRun rfl hu.1 (nms_runsTo hu) (hidle _ hv)
    _ = core.run 0 (withHost [] (some (statusWord t)) t) := run_scriptRun rfl hv.1 ht hb

end Sys2Proof.Proofs
end

section
/-! The default `HYPOT_FN` is correctly rounded (40_hypot_accumulator.md R131, R132). The idea: with `a = n·4^(23 − e)` for the exponent
`e` of `√n`, the significand is within ½ of `√a`, which is said over the integers as `(2·sig − 1)² < 4·a < (2·sig + 1)²`; so the result
is within half a unit in the last place of the norm, and every other binary32 is at least a whole unit away. Below a power of two the
unit is halved, but there the result is not above the norm. That the function is monotone and its range follow from its being the
nearest value. -/

open Sys2Proof Sys2Proof.Machine Sys2Proof.Statement

namespace Sys2Proof.Proofs

/-! ### The significand, over the integers -/

/-- The radicand scaled so that its root has 24 bits (R131). -/
def scaledRadicand (n : ℕ) : ℕ := n * 4 ^ (23 - sqrtExponent n)

theorem four_pow_eq_sq (k : ℕ) : 4 ^ k = (2 ^ k) ^ 2 := pow_right_comm 2 2 k

/-- `sig` is `√a` rounded to the nearest integer, and `√a` is not halfway between two integers. -/
def IsRoundedSqrt (a sig : ℕ) : Prop := (2 * (sig : ℤ) - 1) ^ 2 < 4 * a ∧ 4 * (a : ℤ) < (2 * sig + 1) ^ 2

theorem IsRoundedSqrt.le_of_le {a a' sig sig' : ℕ} (h : IsRoundedSqrt a sig) (h' : IsRoundedSqrt a' sig') (ha : a ≤ a') :
    sig ≤ sig' := by
  obtain ⟨hlo, -⟩ := h
  obtain ⟨-, hhi⟩ := h'
  have hlt : 2 * (sig : ℤ) - 1 < 2 * sig' + 1 := lt_of_pow_lt_pow_left₀ 2 (by omega) (by omega)
  omega

theorem isRoundedSqrt_sq {t : ℕ} (ht : 0 < t) : IsRoundedSqrt (t ^ 2) t := by
  constructor <;> push_cast <;> nlinarith

theorem IsRoundedSqrt.eq_of_sq {t sig : ℕ} (ht : 0 < t) (h : IsRoundedSqrt (t ^ 2) sig) : sig = t :=
  (h.le_of_le (isRoundedSqrt_sq ht) le_rfl).antisymm ((isRoundedSqrt_sq ht).le_of_le h le_rfl)

/-- The integer root, rounded up when `a` exceeds `(r + ½)²` (R131). -/
def roundedSqrt (a : ℕ) : ℕ := if a.sqrt * a.sqrt + a.sqrt < a then a.sqrt + 1 else a.sqrt

theorem isRoundedSqrt_roundedSqrt {a : ℕ} (ha : 0 < a) : IsRoundedSqrt a (roundedSqrt a) := by
  have hr : 0 < a.sqrt := Nat.sqrt_pos.2 ha
  have hlo := Nat.sqrt_le a
  have hhi := Nat.lt_succ_sqrt a
  unfold IsRoundedSqrt roundedSqrt
  generalize a.sqrt = r at *
  zify at *
  split
  · constructor <;> nlinarith
  · constructor <;> nlinarith

/-- Over the reals: the root is within ½ of its rounding. -/
theorem IsRoundedSqrt.abs_sub_lt {a sig : ℕ} (h : IsRoundedSqrt a sig) : |(sig : ℝ) - √a| < 1 / 2 := by
  obtain ⟨hlo, hhi⟩ := h
  have hsq : (2 * √(a : ℝ)) ^ 2 = 4 * a := by
    rw [mul_pow, Real.sq_sqrt a.cast_nonneg]
    norm_num
  have hl : 2 * (sig : ℝ) - 1 < 2 * √a := lt_of_pow_lt_pow_left₀ 2 (by positivity) (by rw [hsq]; exact_mod_cast hlo)
  have hu : 2 * √a < 2 * (sig : ℝ) + 1 := lt_of_pow_lt_pow_left₀ 2 (by positivity) (by rw [hsq]; exact_mod_cast hhi)
  rw [abs_lt]
  constructor <;> linarith

section Radicand
variable {n : ℕ} (hpos : 0 < n) (hn : n < 4 ^ 24)

include hpos in
theorem sqrtExponent_bounds : 4 ^ sqrtExponent n ≤ n ∧ n < 4 ^ (sqrtExponent n + 1) := by
  have hlo : 2 ^ n.log2 ≤ n := Nat.log2_self_le hpos.ne'
  have hhi : n < 2 ^ (n.log2 + 1) := Nat.lt_log2_self
  have hfour : ∀ k, 4 ^ k = 2 ^ (2 * k) := fun k => (pow_mul 2 2 k).symm
  simp only [sqrtExponent, hfour]
  exact ⟨(Nat.pow_le_pow_right two_pos (by omega)).trans hlo, hhi.trans_le (Nat.pow_le_pow_right two_pos (by omega))⟩

include hpos hn

theorem sqrtExponent_le : sqrtExponent n ≤ 23 := by
  obtain ⟨hlo, -⟩ := sqrtExponent_bounds hpos
  have := (Nat.pow_lt_pow_iff_right (by decide : 1 < 4)).1 (hlo.trans_lt hn)
  omega

theorem scaledRadicand_bounds : 4 ^ 23 ≤ scaledRadicand n ∧ scaledRadicand n < 4 ^ 24 := by
  have he := sqrtExponent_le hpos hn
  obtain ⟨hlo, hhi⟩ := sqrtExponent_bounds hpos
  have hscale : ∀ j, 4 ^ (sqrtExponent n + j) * 4 ^ (23 - sqrtExponent n) = 4 ^ (23 + j) := fun j => by
    rw [← pow_add]
    congr 1
    omega
  exact ⟨(hscale 0).ge.trans (Nat.mul_le_mul_right _ hlo), (Nat.mul_lt_mul_of_pos_right hhi (by positivity)).trans_eq (hscale 1)⟩

theorem isRoundedSqrt_sqrtSignificand : IsRoundedSqrt (scaledRadicand n) (sqrtSignificand n) := by
  obtain ⟨hlo, hhi⟩ := scaledRadicand_bounds hpos hn
  have hdef : sqrtSignificand n = roundedSqrt (scaledRadicand n) := by
    rw [roundedSqrt, ← isqrt_eq_sqrt (hhi.trans_eq (by norm_num))]
    rfl
  rw [hdef]
  exact isRoundedSqrt_roundedSqrt (by omega)

/-- The significand has 24 bits, or carries (R131). -/
theorem sqrtSignificand_bounds : 2 ^ 23 ≤ sqrtSignificand n ∧ sqrtSignificand n ≤ 2 ^ 24 := by
  obtain ⟨hlo, hhi⟩ := scaledRadicand_bounds hpos hn
  have hround := isRoundedSqrt_sqrtSignificand hpos hn
  refine ⟨(isRoundedSqrt_sq (t := 2 ^ 23) (by norm_num)).le_of_le hround ?_,
    hround.le_of_le (isRoundedSqrt_sq (t := 2 ^ 24) (by norm_num)) ?_⟩ <;> omega

/-! ### The bits and the value of the result -/

omit hn in
theorem sqrtBits_of_pos : sqrtBits n = (sqrtExponent n + 126) * 2 ^ 23 + sqrtSignificand n := by
  rw [sqrtBits, if_neg hpos.ne']

/-- In units of 2^-149, also where the significand carries into the exponent field. -/
theorem magnitudeUnits_sqrtBits : magnitudeUnits (sqrtBits n) = sqrtSignificand n * 2 ^ (sqrtExponent n + 126) := by
  obtain ⟨hlo, hhi⟩ := sqrtSignificand_bounds hpos hn
  rw [sqrtBits_of_pos hpos]
  generalize sqrtSignificand n = sig at *
  generalize sqrtExponent n = e
  unfold magnitudeUnits
  rcases hhi.lt_or_eq with hlt | rfl
  · have hq : ((e + 126) * 2 ^ 23 + sig) / 2 ^ 23 = e + 126 + 1 := by omega
    have hr : 2 ^ 23 + ((e + 126) * 2 ^ 23 + sig) % 2 ^ 23 = sig := by omega
    rw [hq, hr, if_neg (by omega), Nat.add_sub_cancel]
  · have hq : ((e + 126) * 2 ^ 23 + 2 ^ 24) / 2 ^ 23 = e + 127 + 1 := by omega
    have hr : ((e + 126) * 2 ^ 23 + 2 ^ 24) % 2 ^ 23 = 0 := by omega
    rw [hq, hr, if_neg (by omega), Nat.add_sub_cancel]
    ring

end Radicand

theorem sqrtBits_lt {n : ℕ} (hn : n < 4 ^ 24) : sqrtBits n < 255 * 2 ^ 23 := by
  rcases n.eq_zero_or_pos with rfl | hpos
  · decide
  · have he := sqrtExponent_le hpos hn
    obtain ⟨-, hhi⟩ := sqrtSignificand_bounds hpos hn
    rw [sqrtBits_of_pos hpos]
    omega

/-- The bit pattern of the default for the radicand `n` (R131). -/
def sqrtWord (n : ℕ) : Word := BitVec.ofNat 32 (sqrtBits n)

/-- One unit in the last place of a 24-bit significand of `√n`. -/
noncomputable def sqrtUnit (n : ℕ) : ℝ := 2 ^ (sqrtExponent n + 126) * 2 ^ (-149 : ℤ)

theorem sqrtUnit_pos (n : ℕ) : 0 < sqrtUnit n := by
  unfold sqrtUnit
  positivity

theorem sqrtWord_signBit {n : ℕ} (hn : n < 4 ^ 24) : (sqrtWord n).getLsbD 31 = false := by
  have hlt := sqrtBits_lt hn
  rw [sqrtWord, BitVec.getLsbD_ofNat, Nat.testBit_lt_two_pow (by omega), Bool.and_false]

theorem sqrtWord_magnitude {n : ℕ} (hn : n < 4 ^ 24) : ((sqrtWord n).extractLsb' 0 31).toNat = sqrtBits n := by
  have hlt := sqrtBits_lt hn
  simp only [sqrtWord, BitVec.extractLsb'_toNat, BitVec.toNat_ofNat, Nat.shiftRight_zero]
  omega

theorem orderKey_sqrtWord {n : ℕ} (hn : n < 4 ^ 24) : orderKey (sqrtWord n) = sqrtBits n := by
  rw [orderKey, sqrtWord_signBit hn, sqrtWord_magnitude hn, if_neg Bool.false_ne_true]

theorem isFinite_sqrtWord {n : ℕ} (hn : n < 4 ^ 24) : isFinite (sqrtWord n) = true := by
  have hlt := sqrtBits_lt hn
  rw [isFinite_iff_orderKey, orderKey_sqrtWord hn, infKey]
  omega

theorem sqrtWord_zero : sqrtWord 0 = 0#32 := rfl

theorem f32Value_zero : f32Value 0#32 = 0 := by
  rw [f32Value_eq_keyUnits, show orderKey 0#32 = 0 by decide, keyUnits, Int.sign_zero, zero_mul, Int.cast_zero, zero_mul]

section Radicand
variable {n : ℕ} (hpos : 0 < n) (hn : n < 4 ^ 24)
include hpos hn

theorem f32Value_sqrtWord : f32Value (sqrtWord n) = sqrtSignificand n * sqrtUnit n := by
  rw [f32Value_eq_keyUnits, orderKey_sqrtWord hn, keyUnits_natCast, magnitudeUnits_sqrtBits hpos hn, sqrtUnit]
  push_cast
  ring

/-- The scale of the radicand, undone on its root. -/
theorem sqrtUnit_mul_two_pow : sqrtUnit n * 2 ^ (23 - sqrtExponent n) = 1 := by
  have he := sqrtExponent_le hpos hn
  rw [sqrtUnit, mul_right_comm, ← pow_add, show sqrtExponent n + 126 + (23 - sqrtExponent n) = 149 by omega]
  norm_num

theorem sqrt_eq_scaled : √(n : ℝ) = √(scaledRadicand n : ℝ) * sqrtUnit n := by
  have hscaled : √(scaledRadicand n : ℝ) = √n * 2 ^ (23 - sqrtExponent n) := by
    rw [scaledRadicand, four_pow_eq_sq, Nat.cast_mul, Nat.cast_pow, Nat.cast_pow, Nat.cast_ofNat,
      Real.sqrt_mul n.cast_nonneg, Real.sqrt_sq (by positivity)]
  rw [hscaled, mul_assoc, mul_comm (2 ^ _), sqrtUnit_mul_two_pow hpos hn, mul_one]

/-- The error is below half a unit in the last place. -/
theorem abs_f32Value_sqrtWord_sub_lt : |f32Value (sqrtWord n) - √n| < sqrtUnit n / 2 := by
  have hunit := sqrtUnit_pos n
  have hround := (isRoundedSqrt_sqrtSignificand hpos hn).abs_sub_lt
  rw [f32Value_sqrtWord hpos hn, sqrt_eq_scaled hpos hn, ← sub_mul, abs_mul, abs_of_pos hunit]
  nlinarith

/-- The least significand does not come from rounding up. -/
theorem f32Value_sqrtWord_le_of_pow_two (hsig : sqrtSignificand n = 2 ^ 23) : f32Value (sqrtWord n) ≤ √n := by
  obtain ⟨hlo, -⟩ := scaledRadicand_bounds hpos hn
  have hroot : ((2 ^ 23 : ℕ) : ℝ) ≤ √(scaledRadicand n : ℝ) := Real.le_sqrt_of_sq_le (by exact_mod_cast hlo)
  rw [f32Value_sqrtWord hpos hn, sqrt_eq_scaled hpos hn, hsig]
  exact mul_le_mul_of_nonneg_right hroot (sqrtUnit_pos n).le

end Radicand

/-! ### The other binary32 values -/

/-- The value of an order key. -/
noncomputable def keyValue (k : ℤ) : ℝ := keyUnits k * 2 ^ (-149 : ℤ)

theorem f32Value_eq_keyValue (a : Word) : f32Value a = keyValue (orderKey a) := f32Value_eq_keyUnits a

theorem keyValue_strictMono : StrictMono keyValue := fun _ _ h =>
  mul_lt_mul_of_pos_right (by exact_mod_cast keyUnits_strictMono h) (by positivity)

/-- From a key of the exponent of `√n` or above, the next value is at least a unit away. -/
theorem keyValue_add_sqrtUnit_le {n m : ℕ} (h : sqrtExponent n + 127 ≤ m / 2 ^ 23) :
    keyValue m + sqrtUnit n ≤ keyValue (m + 1 : ℕ) := by
  have hgap : magnitudeUnits m + 2 ^ (sqrtExponent n + 126) ≤ magnitudeUnits (m + 1) := by
    rw [magnitudeUnits_succ]
    exact Nat.add_le_add_left (Nat.pow_le_pow_right two_pos (by omega)) _
  simp only [keyValue, keyUnits_natCast, sqrtUnit, ← add_mul]
  exact mul_le_mul_of_nonneg_right (by exact_mod_cast hgap) (by positivity)

section Radicand
variable {n : ℕ} (hpos : 0 < n) (hn : n < 4 ^ 24) {b : Word}
include hpos hn

/-- A greater binary32 is a whole unit above. -/
theorem f32Value_sqrtWord_add_unit_le (h : f32Value (sqrtWord n) < f32Value b) :
    f32Value (sqrtWord n) + sqrtUnit n ≤ f32Value b := by
  obtain ⟨hlo, -⟩ := sqrtSignificand_bounds hpos hn
  have hbits := sqrtBits_of_pos hpos
  simp only [f32Value_eq_keyValue, orderKey_sqrtWord hn, keyValue_strictMono.lt_iff_lt] at h ⊢
  exact (keyValue_add_sqrtUnit_le (by omega)).trans (keyValue_strictMono.monotone (by omega))

/-- Above the least significand, a smaller binary32 is a whole unit below. -/
theorem f32Value_add_unit_le_sqrtWord (hsig : sqrtSignificand n ≠ 2 ^ 23) (h : f32Value b < f32Value (sqrtWord n)) :
    f32Value b + sqrtUnit n ≤ f32Value (sqrtWord n) := by
  obtain ⟨hlo, -⟩ := sqrtSignificand_bounds hpos hn
  have hbits := sqrtBits_of_pos hpos
  obtain ⟨m, hm⟩ : ∃ m, sqrtBits n = m + 1 := ⟨sqrtBits n - 1, by omega⟩
  simp only [f32Value_eq_keyValue, orderKey_sqrtWord hn, keyValue_strictMono.lt_iff_lt, hm] at h ⊢
  exact (add_le_add_left (keyValue_strictMono.monotone (by omega)) _).trans (keyValue_add_sqrtUnit_le (by omega))

end Radicand

/-- R131: every other binary32 value is strictly farther from the root. -/
theorem sqrtWord_nearest {n : ℕ} (hn : n < 4 ^ 24) {b : Word} (hb : f32Value b ≠ f32Value (sqrtWord n)) :
    |f32Value (sqrtWord n) - √n| < |f32Value b - √n| := by
  rcases n.eq_zero_or_pos with rfl | hpos
  · rw [sqrtWord_zero, f32Value_zero] at hb ⊢
    simpa using hb
  · obtain ⟨hlo, hhi⟩ := abs_lt.1 (abs_f32Value_sqrtWord_sub_lt hpos hn)
    rcases hb.lt_or_gt with hlt | hgt
    · refine lt_abs.2 (.inr (abs_lt.2 ?_))
      by_cases hsig : sqrtSignificand n = 2 ^ 23
      · have hle := f32Value_sqrtWord_le_of_pow_two hpos hn hsig
        constructor <;> linarith
      · have hgap := f32Value_add_unit_le_sqrtWord hpos hn hsig hlt
        constructor <;> linarith
    · have hgap := f32Value_sqrtWord_add_unit_le hpos hn hgt
      refine lt_abs.2 (.inl (abs_lt.2 ?_))
      constructor <;> linarith

/-- The nearest value rises with the root. -/
theorem f32Value_sqrtWord_mono {n n' : ℕ} (hn : n' < 4 ^ 24) (h : n ≤ n') : f32Value (sqrtWord n) ≤ f32Value (sqrtWord n') := by
  by_contra! hlt
  have hroot : √(n : ℝ) ≤ √n' := Real.sqrt_le_sqrt (by exact_mod_cast h)
  have hnear := sq_lt_sq.2 (sqrtWord_nearest (h.trans_lt hn) hlt.ne)
  have hnear' := sq_lt_sq.2 (sqrtWord_nearest hn hlt.ne')
  nlinarith

/-- A root that is an integer is exact. -/
theorem f32Value_sqrtWord_sq {t : ℕ} (ht : t < 2 ^ 24) : f32Value (sqrtWord (t ^ 2)) = t := by
  rcases t.eq_zero_or_pos with rfl | hpos
  · rw [zero_pow two_ne_zero, sqrtWord_zero, f32Value_zero, Nat.cast_zero]
  · have hpos' : 0 < t ^ 2 := by positivity
    have hn : t ^ 2 < 4 ^ 24 := (Nat.pow_lt_pow_left ht two_ne_zero).trans_eq (by norm_num)
    have hsq : scaledRadicand (t ^ 2) = (t * 2 ^ (23 - sqrtExponent (t ^ 2))) ^ 2 := by
      rw [scaledRadicand, four_pow_eq_sq, mul_pow]
    have hsig := (hsq ▸ isRoundedSqrt_sqrtSignificand hpos' hn).eq_of_sq (by positivity)
    rw [f32Value_sqrtWord hpos' hn, hsig, Nat.cast_mul, mul_assoc, mul_comm _ (sqrtUnit _)]
    push_cast
    rw [sqrtUnit_mul_two_pow hpos' hn, mul_one]

theorem sqrtUnit_le_f32Ulp {n : ℕ} (hpos : 0 < n) (hn : n < 4 ^ 24) : sqrtUnit n ≤ f32Ulp (sqrtWord n) := by
  obtain ⟨hlo, -⟩ := sqrtSignificand_bounds hpos hn
  have hbits := sqrtBits_of_pos hpos
  rw [sqrtUnit, f32Ulp, expField_toNat, sqrtWord_magnitude hn, ← zpow_natCast, ← zpow_add₀ two_ne_zero]
  exact zpow_le_zpow_right₀ one_le_two (by push_cast; omega)

/-- R132 (g). -/
theorem abs_f32Value_sqrtWord_sub_le_ulp {n : ℕ} (hn : n < 4 ^ 24) : |f32Value (sqrtWord n) - √n| ≤ f32Ulp (sqrtWord n) := by
  rcases n.eq_zero_or_pos with rfl | hpos
  · rw [sqrtWord_zero, f32Value_zero, Nat.cast_zero, Real.sqrt_zero, sub_zero, abs_zero, f32Ulp]
    positivity
  · have herr := abs_f32Value_sqrtWord_sub_lt hpos hn
    have hulp := sqrtUnit_le_f32Ulp hpos hn
    linarith [sqrtUnit_pos n]

/-! ### The function on signed 16-bit operands -/

/-- `N` of R131. -/
def radicand (gx gy : ℤ) : ℕ := gx.natAbs ^ 2 + gy.natAbs ^ 2

theorem hypot32_eq_sqrtWord (gx gy : ℤ) : hypot32 gx gy = sqrtWord (radicand gx gy) := by
  have hrad : (gx * gx + gy * gy).toNat = radicand gx gy := by
    rw [radicand, ← Int.natAbs_mul_self, ← Int.natAbs_mul_self, ← Nat.cast_add, Int.toNat_natCast, sq, sq]
  rw [hypot32, hrad, sqrtWord]

theorem norm2_eq_sqrt (gx gy : ℤ) : norm2 gx gy = √(radicand gx gy : ℝ) := by
  rw [norm2, radicand, Nat.cast_add, Nat.cast_pow, Nat.cast_pow, Nat.cast_natAbs, Nat.cast_natAbs, Int.cast_abs, Int.cast_abs,
    sq_abs, sq_abs]

theorem natAbs_le_of_isHalf {g : ℤ} (h : isHalf g) : g.natAbs ≤ 2 ^ 15 := by
  obtain ⟨hlo, hhi⟩ := h
  omega

theorem radicand_mono {a b a' b' : ℤ} (ha : a.natAbs ≤ a'.natAbs) (hb : b.natAbs ≤ b'.natAbs) : radicand a b ≤ radicand a' b' :=
  Nat.add_le_add (Nat.pow_le_pow_left ha 2) (Nat.pow_le_pow_left hb 2)

theorem radicand_le {gx gy : ℤ} (hx : isHalf gx) (hy : isHalf gy) : radicand gx gy ≤ 2 ^ 31 :=
  Nat.add_le_add (Nat.pow_le_pow_left (natAbs_le_of_isHalf hx) 2) (Nat.pow_le_pow_left (natAbs_le_of_isHalf hy) 2)

theorem radicand_lt {gx gy : ℤ} (hx : isHalf gx) (hy : isHalf gy) : radicand gx gy < 4 ^ 24 :=
  (radicand_le hx hy).trans_lt (by norm_num)

/-- The greatest magnitude, 46340.94921875. -/
theorem f32Value_sqrtWord_two_pow_31_le : f32Value (sqrtWord (2 ^ 31)) ≤ 46340.95 := by
  have hkey : orderKey (sqrtWord (2 ^ 31)) = (0x473504F3 : ℕ) := by decide +kernel
  have hunits : magnitudeUnits 0x473504F3 = 11863283 * 2 ^ 141 := by decide +kernel
  rw [f32Value_eq_keyUnits, hkey, keyUnits_natCast, hunits]
  norm_num

/-- R131: the range of the function. -/
theorem sqrtWord_range {n : ℕ} (hpos : 0 < n) (hn : n ≤ 2 ^ 31) :
    1 ≤ f32Value (sqrtWord n) ∧ f32Value (sqrtWord n) ≤ 46340.95 := by
  have hone := f32Value_sqrtWord_sq (t := 1) (by norm_num)
  rw [one_pow, Nat.cast_one] at hone
  exact ⟨hone.ge.trans (f32Value_sqrtWord_mono (hn.trans_lt (by norm_num)) hpos),
    (f32Value_sqrtWord_mono (by norm_num) hn).trans f32Value_sqrtWord_two_pow_31_le⟩

/-- Settles O24: the result is the nearest value to the root of the radicand, and its range follows from that and two values. -/
theorem hypotIsCorrectlyRounded : Obligations.HypotIsCorrectlyRounded := by
  intro gx gy hx hy
  have hle := radicand_le hx hy
  have hlt := radicand_lt hx hy
  simp only [hypot32_eq_sqrtWord, norm2_eq_sqrt]
  refine ⟨?_, isFinite_sqrtWord hlt, sqrtWord_signBit hlt, fun b _ hb => sqrtWord_nearest hlt hb, ?_⟩
  · rw [← Int.natAbs_mul_self, ← Int.natAbs_mul_self, ← sq, ← sq]
    exact_mod_cast hle
  · rcases (radicand gx gy).eq_zero_or_pos with h0 | hpos
    · exact .inl (by rw [h0, sqrtWord_zero])
    · exact .inr (sqrtWord_range hpos hle)

theorem hypot32_symmetries (a b : ℤ) :
    hypot32 a b = hypot32 b a ∧ hypot32 a b = hypot32 (-a) b ∧ hypot32 a b = hypot32 a (-b) := by
  refine ⟨?_, ?_, ?_⟩ <;> rw [hypot32_eq_sqrtWord, hypot32_eq_sqrtWord, radicand, radicand]
  · rw [add_comm]
  · rw [Int.natAbs_neg]
  · rw [Int.natAbs_neg]

theorem f32Value_hypot32_axis {a : ℤ} (ha : isHalf a) : f32Value (hypot32 a 0) = a.natAbs := by
  have hlt : a.natAbs < 2 ^ 24 := (natAbs_le_of_isHalf ha).trans_lt (by norm_num)
  rw [hypot32_eq_sqrtWord, radicand, Int.natAbs_zero, zero_pow two_ne_zero, add_zero, f32Value_sqrtWord_sq hlt]

/-- Settles O25: the operands enter by the squares of their magnitudes alone, and the rest follows from the nearest value. -/
theorem hypotMeetsItsObligations : Obligations.HypotMeetsItsObligations := by
  refine ⟨rfl, fun a ha => ⟨f32Value_hypot32_axis ha, (hypot32_symmetries 0 a).1⟩, hypot32_symmetries, fun a b ha hb => ?_,
    fun a b a' b' ha hb ha' hb' haa hbb => ?_, fun a b ha hb => ?_⟩
  · rw [hypot32_eq_sqrtWord]
    exact ⟨isFinite_sqrtWord (radicand_lt ha hb), sqrtWord_signBit (radicand_lt ha hb)⟩
  · rw [hypot32_eq_sqrtWord, hypot32_eq_sqrtWord,
      fLe_iff_f32Value (isFinite_sqrtWord (radicand_lt ha hb)) (isFinite_sqrtWord (radicand_lt ha' hb'))]
    exact f32Value_sqrtWord_mono (radicand_lt ha' hb') (radicand_mono haa hbb)
  · rw [hypot32_eq_sqrtWord, norm2_eq_sqrt]
    exact abs_f32Value_sqrtWord_sub_le_ulp (radicand_lt ha hb)

end Sys2Proof.Proofs
end

section
/-! The commands of the hypot_accumulator (40_hypot_accumulator.md R134, R138): `HYPOT` is one fill of `MAG`, `HYPQ` one evaluation. -/

open Sys2Proof Sys2Proof.Machine Sys2Proof.Statement

namespace Sys2Proof.Proofs

variable {s : State}

theorem hypotCheck_of_fits (h : s.w * s.h ≤ Config.cap) : hypotCheck s = none := by
  have harea : ¬Config.cap < s.area := Nat.not_lt.2 h
  simp [hypotCheck, dimTooLarge, harea]

theorem hypotCheck_of_tooLarge (h : Config.cap < s.w * s.h) : hypotCheck s = some .dimLarge := by
  have harea : Config.cap < s.area := h
  simp [hypotCheck, dimTooLarge, harea]

/-- The raster is row-major (R8): a pixel's index is below the area. -/
theorem pixelIndex_lt_area {x y : ℕ} (hx : x < s.w) (hy : y < s.h) : y * s.w + x < s.area := by
  unfold State.area
  nlinarith

/-- Settles O21: the command is a fill of `MAG` below the area, which every pixel's index is. -/
theorem hypotWritesMagnitudes : Obligations.HypotWritesMagnitudes := by
  refine ⟨rfl, fun s hi => ⟨fun hlarge => ?_, fun hfits => ?_⟩⟩
  · exact exec_idle_fault (i := .hypot) nofun hi (hypotCheck_of_tooLarge hlarge)
  · refine ⟨hypotRaster hypotFn s, exec_idle_ok (i := .hypot) nofun hi (hypotCheck_of_fits hfits), rfl, fun x y hx hy => ?_,
      fun i hge => ?_⟩
    · rw [hypotRaster_mag, Mem.read_fill_lt _ _ (pixelIndex_lt_area hx hy), hypotFn]
    · rw [hypotRaster_mag, Mem.read_fill_ge (n := s.area) _ _ hge]

theorem exec_hypq_idle (hi : s.opstate = .idle) : exec .hypq s = .next { s with
    res := hypot32 (s.arg0.extractLsb' 0 16).toInt (s.arg1.extractLsb' 0 16).toInt } :=
  exec_idle_ok (i := .hypq) nofun hi rfl

/-- R138's corner cases and example. -/
theorem hypot32_corner_cases : ∀ p ∈ [(0xFFFF8000#32, 0x00000000#32, 0x47000000#32), (0x00000003#32, 0x0000FFFC#32, 0x40A00000#32),
      (0x12340003#32, 0x0000FFFC#32, 0x40A00000#32)],
    hypot32 (p.1.extractLsb' 0 16).toInt (p.2.1.extractLsb' 0 16).toInt = p.2.2 := by
  simp only [List.forall_mem_cons, List.not_mem_nil, false_imp_iff, implies_true, and_true]
  decide +kernel

/-- Settles O22: the command is one evaluation, and the corner cases are computed. -/
theorem hypqEvaluatesOnce : Obligations.HypqEvaluatesOnce := by
  refine ⟨rfl, fun s hi => exec_hypq_idle hi, fun p hp s hi h0 h1 => ?_⟩
  rw [exec_hypq_idle hi, h0, h1, hypot32_corner_cases p hp]

end Sys2Proof.Proofs
end

section
/-! The direction classifier (41_direction_classifier.md): the integer comparisons of R152 as comparisons with tan 67.5°, the symmetries
(R153), the exact angle (R151) and `DIRQ` (R158). -/

open Sys2Proof Sys2Proof.Machine Sys2Proof.Statement

namespace Sys2Proof.Proofs

/-! ### The comparisons over the real numbers (R152) -/

/-- The tangent of 67.5°, the inverse of the tangent of 22.5°. -/
noncomputable def tan675 : ℝ := 1 + √2

theorem one_lt_tan675 : 1 < tan675 := by
  have hroot : 0 < √(2 : ℝ) := by positivity
  rw [tan675]
  linarith

theorem tan675_pos : 0 < tan675 := zero_lt_one.trans one_lt_tan675

/-- An integer vector never lies on a boundary, for √2 is irrational. -/
theorem tan675_mul_ne {m n : ℤ} (h : m ≠ 0 ∨ n ≠ 0) : tan675 * m ≠ n := by
  have hirr : Irrational tan675 := by
    rw [tan675]
    exact_mod_cast irrational_sqrt_two.natCast_add 1
  rcases eq_or_ne m 0 with rfl | hm
  · rw [Int.cast_zero, mul_zero]
    exact_mod_cast (h.resolve_left (not_not.2 rfl)).symm
  · exact (hirr.mul_intCast hm).ne_int n

/-- The comparison of squares is one of a length with a multiple of √2. -/
theorem mul_self_lt_two_mul_iff {v u : ℤ} (hv : 0 ≤ v) (hu : 0 ≤ u) : v * v < 2 * (u * u) ↔ (v : ℝ) < √2 * u := by
  have hsq : (√2 * (u : ℝ)) * (√2 * u) = 2 * (u * u) := by
    rw [mul_mul_mul_comm, Real.mul_self_sqrt zero_le_two]
  have hv' : (0 : ℝ) ≤ v := by exact_mod_cast hv
  have hu' : (0 : ℝ) ≤ u := by exact_mod_cast hu
  rw [mul_self_lt_mul_self_iff hv' (by positivity), hsq]
  exact_mod_cast Iff.rfl

theorem nearAxis_iff {u gy : ℤ} (hu : 0 ≤ u) (hy : 0 ≤ gy) :
    (u + gy) * (u + gy) < 2 * (u * u) ↔ tan675 * gy < u := by
  have hinv : tan675 * ((√2 - 1) * u) = u := by
    have hone : (1 + √2) * (√2 - 1) = (1 : ℝ) := by linarith [Real.mul_self_sqrt (zero_le_two (α := ℝ))]
    rw [← mul_assoc, tan675, hone, one_mul]
  rw [mul_self_lt_two_mul_iff (by omega) hu, Int.cast_add, ← lt_sub_iff_add_lt', ← sub_one_mul,
    ← mul_lt_mul_iff_right₀ tan675_pos, hinv]

theorem below675_iff {u gy : ℤ} (hu : 0 < u) : gy ≤ u ∨ (gy - u) * (gy - u) < 2 * (u * u) ↔ gy < tan675 * u := by
  have hu' : (0 : ℝ) < u := by exact_mod_cast hu
  rcases le_or_gt gy u with hle | hgt
  · have hle' : (gy : ℝ) ≤ u := by exact_mod_cast hle
    exact iff_of_true (.inl hle) (hle'.trans_lt (lt_mul_of_one_lt_left hu' one_lt_tan675))
  · rw [or_iff_right hgt.not_ge, mul_self_lt_two_mul_iff (by omega) hu.le, tan675, one_add_mul, ← sub_lt_iff_lt_add',
      Int.cast_sub]

/-- R152 with its comparisons of squares as comparisons with tan 67.5°; the y axis needs no case of its own. -/
theorem dirUpper_eq {gx gy : ℤ} (hy : 0 ≤ gy) : dirUpper gx gy =
    if gy = 0 ∨ tan675 * gy < |(gx : ℝ)| then .d0
    else if gy < tan675 * |(gx : ℝ)| then (if 0 < gx then .d45 else .d135) else .d90 := by
  unfold dirUpper
  by_cases hy0 : gy = 0
  · simp only [hy0, true_or, if_true]
  by_cases hx0 : gx = 0
  · have hy' : (0 : ℝ) ≤ gy := by exact_mod_cast hy
    have hnear : ¬tan675 * gy < 0 := (mul_nonneg tan675_pos.le hy').not_gt
    simp [hy0, hx0, hnear, hy'.not_gt]
  · have habs : |(gx : ℝ)| = ((gx.natAbs : ℤ) : ℝ) := by rw [Int.natCast_natAbs, Int.cast_abs]
    have hu : 0 < (gx.natAbs : ℤ) := Int.natCast_pos.2 (Int.natAbs_pos.2 hx0)
    simp only [hy0, hx0, if_false, false_or, habs, nearAxis_iff hu.le hy, below675_iff hu]

theorem dir_of_nonneg {gx gy : ℤ} (hy : 0 ≤ gy) : dir gx gy = dirUpper gx gy := if_neg hy.not_gt

theorem dir_of_neg {gx gy : ℤ} (hy : gy < 0) : dir gx gy = dirUpper (-gx) (-gy) := if_pos hy

/-! ### The symmetries (R153) -/

theorem dir_neg (gx gy : ℤ) : dir (-gx) (-gy) = dir gx gy := by
  rcases lt_trichotomy gy 0 with hneg | rfl | hpos
  · rw [dir_of_neg hneg, dir_of_nonneg (by omega)]
  · rfl
  · rw [dir_of_neg (by omega), neg_neg, neg_neg, dir_of_nonneg hpos.le]

/-- The classifier by the magnitudes of the components and the sign of their product. -/
theorem dir_eq (gx gy : ℤ) : dir gx gy =
    if gy = 0 ∨ tan675 * |(gy : ℝ)| < |(gx : ℝ)| then .d0
    else if |(gy : ℝ)| < tan675 * |(gx : ℝ)| then (if 0 < gx * gy then .d45 else .d135) else .d90 := by
  wlog hy : 0 ≤ gy generalizing gx gy
  · have hopposite := this (-gx) (-gy) (by omega)
    simpa only [dir_neg, neg_eq_zero, Int.cast_neg, abs_neg, neg_mul_neg] using hopposite
  · have hy' : (0 : ℝ) ≤ gy := by exact_mod_cast hy
    rw [dir_of_nonneg hy, dirUpper_eq hy, abs_of_nonneg hy']
    rcases hy.eq_or_lt with rfl | hpos
    · simp
    · simp only [mul_pos_iff_of_pos_right hpos]

/-- Mirroring exchanges the two diagonal buckets. -/
def mirrored : Bucket → Bucket
  | .d45 => .d135
  | .d135 => .d45
  | b => b

theorem mirrored_mirrored (b : Bucket) : mirrored (mirrored b) = b := by cases b <;> rfl

theorem mirrored_eq_iff {b c : Bucket} : mirrored b = c ↔ b = mirrored c := by
  constructor
  · rintro rfl
    exact (mirrored_mirrored b).symm
  · rintro rfl
    exact mirrored_mirrored c

theorem dir_mirror (gx gy : ℤ) : dir (-gx) gy = mirrored (dir gx gy) := by
  rw [dir_eq, dir_eq, Int.cast_neg, abs_neg, neg_mul]
  simp only [neg_pos]
  split_ifs with hnear hbelow hneg hpos hpos
  · rfl
  · omega
  · rfl
  · rfl
  · have hx : gx ≠ 0 := by
      rintro rfl
      rw [Int.cast_zero, abs_zero, mul_zero] at hbelow
      exact hbelow.not_ge (abs_nonneg _)
    have hy : gy ≠ 0 := fun hy => hnear (.inl hy)
    have hprod := mul_ne_zero hx hy
    omega
  · rfl

theorem dir_scale {k : ℤ} (hk : 1 ≤ k) (gx gy : ℤ) : dir (k * gx) (k * gy) = dir gx gy := by
  have hk' : (0 : ℝ) < k := by exact_mod_cast hk
  have hsign : k * gx * (k * gy) = k * k * (gx * gy) := by ring
  have hkk : 0 < k * k := by positivity
  have hk0 : k ≠ 0 := by omega
  rw [dir_eq, dir_eq]
  simp only [Int.cast_mul, abs_mul, abs_of_pos hk', mul_left_comm tan675, mul_lt_mul_iff_right₀ hk', hsign,
    mul_pos_iff_of_pos_left hkk, mul_eq_zero, hk0, false_or]

theorem dir_yAxis {gy : ℤ} (hy : gy ≠ 0) : dir 0 gy = .d90 := by
  have hpos : (0 : ℝ) < |(gy : ℝ)| := abs_pos.2 (by exact_mod_cast hy)
  have hnear : ¬(gy = 0 ∨ tan675 * |(gy : ℝ)| < 0) :=
    not_or.2 ⟨hy, (mul_pos tan675_pos hpos).not_gt⟩
  rw [dir_eq, Int.cast_zero, abs_zero, mul_zero, if_neg hnear, if_neg hpos.not_gt]

theorem dir_diagonal {g : ℤ} (hg : g ≠ 0) : dir g g = .d45 := by
  have hlt : |(g : ℝ)| < tan675 * |(g : ℝ)| := lt_mul_of_one_lt_left (abs_pos.2 (by exact_mod_cast hg)) one_lt_tan675
  rw [dir_eq, if_neg (not_or.2 ⟨hg, hlt.not_gt⟩), if_pos hlt, if_pos (mul_self_pos.2 hg)]

theorem dir_antidiagonal {g : ℤ} (hg : g ≠ 0) : dir g (-g) = .d135 := by
  calc dir g (-g) = dir (-g) g := by rw [← dir_neg, neg_neg]
    _ = mirrored (dir g g) := dir_mirror g g
    _ = .d135 := by rw [dir_diagonal hg, mirrored]

/-- Settles O27: opposite vectors first, the rest by the magnitudes and the sign of the product. -/
theorem directionSymmetries : Obligations.DirectionSymmetries := by
  refine ⟨dir_neg, fun _ => rfl, fun _ hy => dir_yAxis hy, fun _ hg => ⟨dir_diagonal hg, dir_antidiagonal hg⟩, fun gx gy => ?_,
    fun k gx gy hk => dir_scale hk gx gy⟩
  rw [dir_mirror]
  exact ⟨mirrored_eq_iff, mirrored_eq_iff, mirrored_eq_iff, mirrored_eq_iff⟩

/-! ### The exact angle (R151) -/

theorem theta_nonneg {gx gy : ℤ} (hy : 0 ≤ gy) : 0 ≤ theta gx gy := Complex.arg_nonneg_iff.2 (Int.cast_nonneg hy)

theorem theta_le_pi (gx gy : ℤ) : theta gx gy ≤ Real.pi := Complex.arg_le_pi _

theorem thetaLine_of_nonneg {gx gy : ℤ} (hy : 0 ≤ gy) : thetaLine gx gy = theta gx gy :=
  if_neg (theta_nonneg hy).not_gt

/-- The half turn makes the vector its opposite. -/
theorem thetaLine_of_neg {gx gy : ℤ} (hy : gy < 0) : thetaLine gx gy = theta (-gx) (-gy) := by
  have hy' : (gy : ℝ) < 0 := by exact_mod_cast hy
  have hneg : theta gx gy < 0 := Complex.arg_neg_iff.2 hy'
  have hopposite : (⟨((-gx : ℤ) : ℝ), ((-gy : ℤ) : ℝ)⟩ : ℂ) = -⟨gx, gy⟩ := by
    rw [Int.cast_neg, Int.cast_neg]
    rfl
  rw [thetaLine, if_pos hneg, theta, theta, hopposite, Complex.arg_neg_eq_arg_add_pi_of_im_neg hy']

/-- In the upper half plane the angle is compared by the cross product with the direction of the other angle. -/
theorem theta_lt_iff {gx gy : ℤ} (hy : 0 ≤ gy) (hne : gx ≠ 0 ∨ gy ≠ 0) {α : ℝ} (h0 : 0 < α) (hpi : α < Real.pi) :
    theta gx gy < α ↔ gy * Real.cos α < gx * Real.sin α := by
  have hz : (⟨gx, gy⟩ : ℂ) ≠ 0 := by
    simpa [Complex.ext_iff, imp_iff_not_or] using hne
  have hnorm : 0 < ‖(⟨gx, gy⟩ : ℂ)‖ := norm_pos_iff.2 hz
  have hcross : ‖(⟨gx, gy⟩ : ℂ)‖ * Real.sin (theta gx gy - α) = gy * Real.cos α - gx * Real.sin α := by
    rw [Real.sin_sub, mul_sub, ← mul_assoc, ← mul_assoc, theta, Complex.norm_mul_sin_arg, Complex.norm_mul_cos_arg]
  have hlo := theta_nonneg (gx := gx) hy
  have hhi := theta_le_pi gx gy
  rw [← sub_neg (b := (gx : ℝ) * _), ← hcross]
  constructor
  · intro hlt
    exact mul_neg_of_pos_of_neg hnorm (Real.sin_neg_of_neg_of_neg_pi_lt (by linarith) (by linarith))
  · intro hneg
    by_contra! hle
    have hsin := Real.sin_nonneg_of_nonneg_of_le_pi (x := theta gx gy - α) (by linarith) (by linarith)
    exact hneg.not_ge (mul_nonneg hnorm.le hsin)

theorem sin_pi_div_eight_pos : 0 < Real.sin (Real.pi / 8) :=
  Real.sin_pos_of_pos_of_lt_pi (by linarith [Real.pi_pos]) (by linarith [Real.pi_pos])

theorem cos_pi_div_eight_eq : Real.cos (Real.pi / 8) = tan675 * Real.sin (Real.pi / 8) := by
  have hcos : 0 < Real.cos (Real.pi / 8) := Real.cos_pos_of_mem_Ioo ⟨by linarith [Real.pi_pos], by linarith [Real.pi_pos]⟩
  have hdouble : 2 * (Real.pi / 8) = Real.pi / 4 := by ring
  have hsin2 : 2 * Real.sin (Real.pi / 8) * Real.cos (Real.pi / 8) = √2 / 2 := by
    rw [← Real.sin_two_mul, hdouble, Real.sin_pi_div_four]
  have hcos2 : 2 * Real.cos (Real.pi / 8) ^ 2 - 1 = √2 / 2 := by
    rw [← Real.cos_two_mul, hdouble, Real.cos_pi_div_four]
  have hroot : √(2 : ℝ) * √2 = 2 := Real.mul_self_sqrt zero_le_two
  refine mul_right_cancel₀ hcos.ne' ?_
  rw [tan675]
  linear_combination hcos2 / 2 - (1 + √2) / 2 * hsin2 - hroot / 4

section UpperHalfPlane
variable {gx gy : ℤ} (hy : 0 ≤ gy) (hne : gx ≠ 0 ∨ gy ≠ 0)
include hy hne

theorem theta_lt_pi_div_eight_iff : theta gx gy < Real.pi / 8 ↔ tan675 * gy < gx := by
  have hpi := Real.pi_pos
  rw [theta_lt_iff hy hne (by linarith) (by linarith), cos_pi_div_eight_eq, ← mul_assoc,
    mul_lt_mul_iff_left₀ sin_pi_div_eight_pos, mul_comm]

theorem theta_lt_three_pi_div_eight_iff : theta gx gy < 3 * Real.pi / 8 ↔ gy < tan675 * gx := by
  have hpi := Real.pi_pos
  have hangle : 3 * Real.pi / 8 = Real.pi / 2 - Real.pi / 8 := by ring
  rw [hangle, theta_lt_iff hy hne (by linarith) (by linarith), Real.cos_pi_div_two_sub, Real.sin_pi_div_two_sub,
    cos_pi_div_eight_eq, ← mul_assoc, mul_lt_mul_iff_left₀ sin_pi_div_eight_pos, mul_comm tan675]

theorem theta_lt_five_pi_div_eight_iff : theta gx gy < 5 * Real.pi / 8 ↔ -gy < tan675 * gx := by
  have hpi := Real.pi_pos
  have hangle : 5 * Real.pi / 8 = Real.pi / 8 + Real.pi / 2 := by ring
  rw [hangle, theta_lt_iff hy hne (by linarith) (by linarith), Real.cos_add_pi_div_two, Real.sin_add_pi_div_two,
    cos_pi_div_eight_eq, ← mul_assoc, ← neg_mul_comm, mul_lt_mul_iff_left₀ sin_pi_div_eight_pos, mul_comm tan675]

theorem theta_lt_seven_pi_div_eight_iff : theta gx gy < 7 * Real.pi / 8 ↔ -(tan675 * gy) < gx := by
  have hpi := Real.pi_pos
  have hangle : 7 * Real.pi / 8 = Real.pi - Real.pi / 8 := by ring
  rw [hangle, theta_lt_iff hy hne (by linarith) (by linarith), Real.cos_pi_sub, Real.sin_pi_sub, cos_pi_div_eight_eq,
    mul_neg, ← mul_assoc, ← neg_mul, mul_lt_mul_iff_left₀ sin_pi_div_eight_pos, mul_comm tan675]

end UpperHalfPlane

/-- The bucket of an angle in [0, π] (R151). -/
noncomputable def bucketOfAngle (φ : ℝ) : Bucket :=
  if φ < Real.pi / 8 then .d0
  else if φ < 3 * Real.pi / 8 then .d45
  else if φ < 5 * Real.pi / 8 then .d90
  else if φ < 7 * Real.pi / 8 then .d135
  else .d0

theorem bucketOfAngle_table (φ : ℝ) :
    (φ < Real.pi / 8 ∨ 7 * Real.pi / 8 ≤ φ → bucketOfAngle φ = .d0) ∧
    (Real.pi / 8 ≤ φ ∧ φ < 3 * Real.pi / 8 → bucketOfAngle φ = .d45) ∧
    (3 * Real.pi / 8 ≤ φ ∧ φ < 5 * Real.pi / 8 → bucketOfAngle φ = .d90) ∧
    (5 * Real.pi / 8 ≤ φ ∧ φ < 7 * Real.pi / 8 → bucketOfAngle φ = .d135) := by
  have hpi := Real.pi_pos
  unfold bucketOfAngle
  refine ⟨?_, fun ⟨hlo, hhi⟩ => ?_, fun ⟨hlo, hhi⟩ => ?_, fun ⟨hlo, hhi⟩ => ?_⟩
  · rintro (hlo | hhi)
    · rw [if_pos hlo]
    · rw [if_neg (by linarith), if_neg (by linarith), if_neg (by linarith), if_neg hhi.not_gt]
  · rw [if_neg hlo.not_gt, if_pos hhi]
  · rw [if_neg (by linarith), if_neg hlo.not_gt, if_pos hhi]
  · rw [if_neg (by linarith), if_neg (by linarith), if_neg hlo.not_gt, if_pos hhi]

theorem bucketOfAngle_theta_xAxis (gx : ℤ) : bucketOfAngle (theta gx 0) = .d0 := by
  have hpi := Real.pi_pos
  rcases le_or_gt 0 gx with hx | hx
  · have h0 : theta gx 0 = 0 := Complex.arg_eq_zero_iff.2 ⟨Int.cast_nonneg hx, Int.cast_zero⟩
    exact (bucketOfAngle_table _).1 (.inl (by linarith))
  · have h180 : theta gx 0 = Real.pi := Complex.arg_eq_pi_iff.2 ⟨Int.cast_lt_zero.2 hx, Int.cast_zero⟩
    exact (bucketOfAngle_table _).1 (.inr (by linarith))

/-- Above the x axis the comparisons of angles are comparisons of the components. -/
theorem bucketOfAngle_theta {gx gy : ℤ} (hy : 0 < gy) : bucketOfAngle (theta gx gy) =
    if tan675 * gy < gx then .d0
    else if gy < tan675 * gx then .d45
    else if -gy < tan675 * gx then .d90
    else if -(tan675 * gy) < gx then .d135
    else .d0 := by
  have hne : gx ≠ 0 ∨ gy ≠ 0 := .inr hy.ne'
  simp only [bucketOfAngle, theta_lt_pi_div_eight_iff hy.le hne, theta_lt_three_pi_div_eight_iff hy.le hne,
    theta_lt_five_pi_div_eight_iff hy.le hne, theta_lt_seven_pi_div_eight_iff hy.le hne]

theorem dirUpper_rightQuadrant {gx gy : ℤ} (hx : 0 < gx) (hy : 0 < gy) : dirUpper gx gy = bucketOfAngle (theta gx gy) := by
  have hx' : (0 : ℝ) < gx := by exact_mod_cast hx
  have hy' : (0 : ℝ) < gy := by exact_mod_cast hy
  have hsteep : -(gy : ℝ) < tan675 * gx := (neg_neg_of_pos hy').trans (mul_pos tan675_pos hx')
  simp only [dirUpper_eq hy.le, bucketOfAngle_theta hy, abs_of_pos hx', hy.ne', false_or, if_pos hx, if_pos hsteep]

/-- Mirrored, the ranges are closed at the other end; no vector lies on an end. -/
theorem dirUpper_leftQuadrant {gx gy : ℤ} (hx : gx ≤ 0) (hy : 0 < gy) : dirUpper gx gy = bucketOfAngle (theta gx gy) := by
  have hx' : (gx : ℝ) ≤ 0 := by exact_mod_cast hx
  have hy' : (0 : ℝ) < gy := by exact_mod_cast hy
  have hgx : tan675 * (gx : ℝ) ≤ gx := by nlinarith [one_lt_tan675]
  have hgy : (gy : ℝ) < tan675 * gy := lt_mul_of_one_lt_left hy' one_lt_tan675
  have hsteep : tan675 * gx ≠ -(gy : ℝ) := by exact_mod_cast tan675_mul_ne (m := gx) (n := -gy) (.inr (by omega))
  have hflat : tan675 * gy ≠ -(gx : ℝ) := by exact_mod_cast tan675_mul_ne (m := gy) (n := -gx) (.inl hy.ne')
  simp only [dirUpper_eq hy.le, bucketOfAngle_theta hy, abs_of_nonpos hx', hy.ne', false_or, if_neg hx.not_gt]
  rw [if_neg (by linarith : ¬tan675 * gy < (gx : ℝ)), if_neg (by linarith : ¬(gy : ℝ) < tan675 * gx)]
  rcases hsteep.lt_or_gt with hbelow | habove
  · rw [if_neg hbelow.not_gt]
    rcases hflat.lt_or_gt with hnear | hfar
    · rw [if_pos hnear, if_neg (by linarith)]
    · rw [if_neg hfar.not_gt, if_pos (by linarith), if_pos (by linarith)]
  · rw [if_pos habove, if_neg (by linarith), if_neg (by linarith)]

theorem dirUpper_eq_bucketOfAngle {gx gy : ℤ} (hy : 0 ≤ gy) : dirUpper gx gy = bucketOfAngle (theta gx gy) := by
  rcases hy.eq_or_lt with rfl | hpos
  · exact (bucketOfAngle_theta_xAxis gx).symm
  · rcases le_or_gt gx 0 with hx | hx
    · exact dirUpper_leftQuadrant hx hpos
    · exact dirUpper_rightQuadrant hx hpos

/-- Settles O26: in the upper half plane by the cross products, below it by the opposite vector. -/
theorem directionIsTheExactAngle : Obligations.DirectionIsTheExactAngle := by
  intro gx gy
  rcases le_or_gt 0 gy with hy | hy
  · rw [thetaLine_of_nonneg hy, dir_of_nonneg hy, dirUpper_eq_bucketOfAngle hy]
    exact ⟨⟨theta_nonneg hy, theta_le_pi gx gy⟩, bucketOfAngle_table _⟩
  · have hopposite : 0 ≤ -gy := by omega
    rw [thetaLine_of_neg hy, dir_of_neg hy, dirUpper_eq_bucketOfAngle hopposite]
    exact ⟨⟨theta_nonneg hopposite, theta_le_pi _ _⟩, bucketOfAngle_table _⟩

/-! ### `DIRQ` (R158) -/

theorem exec_dirq_idle {s : State} (hi : s.opstate = .idle) : exec .dirq s = .next { s with
    res := BitVec.ofNat 32 (bucketCode (dir (s.arg0.extractLsb' 0 16).toInt (s.arg1.extractLsb' 0 16).toInt)).toNat } := by
  rw [BitVec.ofNat_toNat]
  exact exec_idle_ok (i := .dirq) nofun hi rfl

/-- R158's corner cases and example. -/
theorem dir_corner_cases : ∀ p ∈ [(0x00000000#32, 0x00000000#32, 0#32), (0x0000FFFF#32, 0x00000000#32, 0#32),
      (0x00008000#32, 0x00008000#32, 1#32), (0x00000005#32, 0x00000003#32, 1#32)],
    BitVec.ofNat 32 (bucketCode (dir (p.1.extractLsb' 0 16).toInt (p.2.1.extractLsb' 0 16).toInt)).toNat = p.2.2 := by
  simp only [List.forall_mem_cons, List.not_mem_nil, false_imp_iff, implies_true, and_true]
  decide

/-- Settles O23: the command is one evaluation, and the corner cases are computed. -/
theorem dirqEvaluatesOnce : Obligations.DirqEvaluatesOnce := by
  refine ⟨rfl, rfl, rfl, rfl, rfl, fun s hi => exec_dirq_idle hi, fun p hp s hi h0 h1 => ?_⟩
  rw [exec_dirq_idle hi, h0, h1, dir_corner_cases p hp]

end Sys2Proof.Proofs
end

section
/-! The nms_ridge_thinner (42_nms_ridge_thinner.md R174): the issue-time checks of `NMS`, and what `SUP` holds at a pixel afterwards,
on the border ring (R173) and in the interior (R171, R172). -/

open Sys2Proof Sys2Proof.Machine Sys2Proof.Statement

namespace Sys2Proof.Proofs

variable {s : State} {dirOf : Half → Half → Bucket} {x y : ℕ}

/-! ### The checks (R286, R287, R295) -/

theorem dimCheck_of_tooLarge (h : Config.cap < s.w * s.h) : dimCheck s = some .dimLarge :=
  if_pos (decide_eq_true h)

theorem dimCheck_of_tooSmall (hfits : s.w * s.h ≤ Config.cap) (h : s.w < 3 ∨ s.h < 3) : dimCheck s = some .dimSmall := by
  have harea : ¬Config.cap < s.area := Nat.not_lt.2 hfits
  simp [dimCheck, dimTooLarge, dimTooSmall, harea, h]

theorem nmsCheck_of_live (hl : s.live = true) : nmsCheck s = some .locked := if_pos hl

/-- Without a producer only the dimensions are checked. -/
theorem nmsCheck_of_not_live (hl : s.live = false) : nmsCheck s = dimCheck s := by
  simp [nmsCheck, hl]

/-! ### The pixels -/

theorem interior_eq_false_of_border (h : x = 0 ∨ x = s.w - 1 ∨ y = 0 ∨ y = s.h - 1) : s.interior x y = false := by
  rw [← Bool.not_eq_true, interior_iff]
  omega

theorem read_nmsRaster_sup (hx : x < s.w) (hy : y < s.h) :
    (nmsRaster dirOf s).sup.read (s.idx x y) = suppressed dirOf s x y := by
  rw [nmsRaster_sup, Mem.fillRaster, Mem.read_fill_lt _ _ (idx_lt_area hx hy), idx_mod hx, idx_div hx]

theorem read_nmsRaster_sup_of_border (hx : x < s.w) (hy : y < s.h) (h : x = 0 ∨ x = s.w - 1 ∨ y = 0 ∨ y = s.h - 1) :
    (nmsRaster dirOf s).sup.read (s.idx x y) = posZero := by
  rw [read_nmsRaster_sup hx hy, suppressed, interior_eq_false_of_border h, if_neg Bool.false_ne_true]

/-- An interior pixel is thinned by the two neighbours of its bucket. -/
theorem read_nmsRaster_sup_of_interior {b : Bucket} (hi : s.interior x y = true) (hb : s.bucketAt dirOf x y = b) :
    (nmsRaster dirOf s).sup.read (s.idx x y) =
      thin (s.magAt (x, y)) (s.magAt (neighbourP b x y)) (s.magAt (neighbourQ b x y)) := by
  obtain ⟨-, hx, -, hy⟩ := interior_iff.1 hi
  rw [read_nmsRaster_sup (by omega) (by omega), suppressed, if_pos hi, hb]

/-- Settles O30: the command is a fill of `SUP` below the area, and each bucket's neighbours are a row of R171's table. -/
theorem nmsThinsAlongTheGradient : Obligations.NmsThinsAlongTheGradient := by
  refine ⟨rfl, fun s hi => ⟨fun hl => ?_, fun hl hlarge => ?_, fun hl hfits hsmall => ?_, fun hl hfits hw hh => ?_⟩⟩
  · exact exec_idle_fault (i := .nms) nofun hi (nmsCheck_of_live hl)
  · exact exec_idle_fault (i := .nms) nofun hi ((nmsCheck_of_not_live hl).trans (dimCheck_of_tooLarge hlarge))
  · exact exec_idle_fault (i := .nms) nofun hi ((nmsCheck_of_not_live hl).trans (dimCheck_of_tooSmall hfits hsmall))
  · have hck : nmsCheck s = none := (nmsCheck_of_not_live hl).trans (dimCheck_eq_none_iff.2 ⟨hfits, hw, hh⟩)
    refine ⟨nmsRaster dirFn s, exec_idle_ok (i := .nms) nofun hi hck, rfl, fun i hge => ?_, fun x y hx hy hborder => ?_,
      fun x y hx hx' hy hy' => ?_⟩
    · exact Mem.read_fill_ge (n := s.area) _ _ hge
    · exact read_nmsRaster_sup_of_border hx hy hborder
    · have hin : s.interior x y = true := interior_iff.2 (by omega)
      have hthin (b : Bucket) := read_nmsRaster_sup_of_interior (dirOf := dirFn) (b := b) hin
      exact ⟨hthin .d0, hthin .d45, hthin .d90, hthin .d135⟩

end Sys2Proof.Proofs
end

section
/-! The step of the tracer phase by phase (43_hysteresis_tracer_eager.md R203 to R207): one equation for each thing a step can do, and
from these and from `TracerStep` the rules of the four phases, the phase graph (R210) and the step's frame (R200). -/

open Sys2Proof Sys2Proof.Machine

namespace Sys2Proof.Proofs

variable {depth : Nat} {s t : State} {e : Event}

/-! ### The parts of a step -/

theorem qualifies_iff {threshold : Word} {x y : Nat} :
    qualifies s threshold x y = true ↔ s.visit.read (s.idx x y) = 0#1 ∧ fGe (s.sup.read (s.idx x y)) threshold = true := by
  simp only [qualifies, Bool.and_eq_true, decide_eq_true_eq]

theorem advanceCursor_right (h : s.sx.toNat + 2 < s.w) : advanceCursor s = { s with sx := s.sx + 1#16 } := if_pos h

theorem advanceCursor_nextRow (h : s.w ≤ s.sx.toNat + 2) : advanceCursor s = { s with sx := 1#16, sy := s.sy + 1#16 } :=
  if_neg h.not_gt

theorem nextNeighbour_last (h : s.k = 5) : nextNeighbour s = { s with phase := .pop, k := 0 } := if_pos (congrArg Fin.val h)

theorem nextNeighbour_next (h : s.k ≠ 5) : nextNeighbour s = { s with k := s.k + 1 } := if_neg fun hv => h (Fin.ext hv)

theorem discover_room {x y : Half} (h : s.sp.toNat < depth) :
    discover depth x y s = .step (markAndPush x y s) (.found x y) :=
  ((discover_cases depth x y s).resolve_right fun hf => h.not_ge hf.1).2

/-! ### One equation for each case of a step -/

theorem tStep_done (hp : s.phase = .done) : tStep depth s = .step s .done := by
  simp only [tStep, hp]

theorem tStep_scan_complete (hp : s.phase = .scan) (hy : s.h ≤ s.sy.toNat + 1) :
    tStep depth s = .step (inPhase .done s) .done := by
  simp only [tStep, hp, stepScan, hy, if_true]
  rfl

theorem tStep_scan (hp : s.phase = .scan) (hy : s.sy.toNat + 1 < s.h) :
    tStep depth s = if qualifies s s.high s.sx.toNat s.sy.toNat then
      discover depth s.sx s.sy (inPhase .pop (advanceCursor s)) else .step (advanceCursor s) .none := by
  simp only [tStep, hp, stepScan, hy.not_ge, if_false]
  rfl

theorem tStep_pop_empty (hp : s.phase = .pop) (hz : s.sp = 0#32) : tStep depth s = .step (inPhase .scan s) .none := by
  simp only [tStep, hp, stepPop, pop_empty hz]
  rfl

theorem tStep_pop_some (hp : s.phase = .pop) (hz : s.sp ≠ 0#32) : tStep depth s = .step (popForExpansion s) .none := by
  simp only [tStep, hp, stepPop, pop_some hz]
  rfl

/-- The neighbour at the offset of `K` is Unvisited and a candidate (R206). -/
def neighbourQualifies (s : State) : Prop :=
  isCandidate s (s.cx.toNat + offsetX s.k) (s.cy.toNat + offsetY s.k) ∧
    s.visit.read (s.idx (s.cx.toNat + offsetX s.k : Int).toNat (s.cy.toNat + offsetY s.k : Int).toNat) = 0#1

theorem neighbourQualifies_iff : neighbourQualifies s ↔
    (s.interior (s.cx.toNat + offsetX s.k) (s.cy.toNat + offsetY s.k) &&
      qualifies s s.low (s.cx.toNat + offsetX s.k : Int).toNat (s.cy.toNat + offsetY s.k : Int).toNat) = true := by
  simp only [neighbourQualifies, isCandidate, Bool.and_eq_true, qualifies_iff]
  tauto

theorem tStep_expand_pass (hp : s.phase = .expand) (hn : ¬neighbourQualifies s) :
    tStep depth s = .step (nextNeighbour s) .none := by
  simp only [tStep, hp, stepExpand, mt neighbourQualifies_iff.2 hn]
  rfl

theorem tStep_expand_discover (hp : s.phase = .expand) (hn : neighbourQualifies s) :
    tStep depth s = discover depth (BitVec.ofNat 16 (s.cx.toNat + offsetX s.k : Int).toNat)
      (BitVec.ofNat 16 (s.cy.toNat + offsetY s.k : Int).toNat) (nextNeighbour s) := by
  simp only [tStep, hp, stepExpand, neighbourQualifies_iff.1 hn, if_true]

/-! ### The rules of the phases -/

/-- Settles O32: the cursor's advance has two cases, and a seed under the cursor is a discovery from the advanced state. -/
theorem scanStepTestsOnePixel : Obligations.ScanStepTestsOnePixel := by
  refine fun depth s hp => ⟨tStep_scan_complete hp, fun hy => ⟨(advanceCursor s).sx, (advanceCursor s).sy, fun hx => ?_, fun hx => ?_,
    fun hn => ?_, fun hv hq => ⟨fun room => ?_, fun full => ?_⟩⟩⟩
  · rw [advanceCursor_right (by omega)]
    exact ⟨rfl, rfl⟩
  · rw [advanceCursor_nextRow (by omega)]
    exact ⟨rfl, rfl⟩
  · rw [tStep_scan hp hy, if_neg (mt qualifies_iff.1 hn), ← advanceCursor_eq]
  · have room' : (inPhase .pop (advanceCursor s)).sp.toNat < depth := by simpa [inPhase] using room
    rw [tStep_scan hp hy, if_pos (qualifies_iff.2 ⟨hv, hq⟩), discover_room room', advanceCursor_eq]
    rfl
  · have full' : depth ≤ (inPhase .pop (advanceCursor s)).sp.toNat := by simpa [inPhase] using full.ge
    rw [tStep_scan hp hy, if_pos (qualifies_iff.2 ⟨hv, hq⟩), discover_full full']

/-- Settles O33, by the two equations of phase `POP`. -/
theorem popStepTakesTheTop : Obligations.PopStepTakesTheTop := fun _ _ hp => ⟨tStep_pop_empty hp, tStep_pop_some hp⟩

/-- Settles O34: the neighbour is discovered from the state whose neighbour index has moved on, and being interior it fits the stack's
coordinates. -/
theorem expandStepTestsOneNeighbour : Obligations.ExpandStepTestsOneNeighbour := by
  refine ⟨⟨rfl, rfl⟩, fun depth s hp => ⟨(nextNeighbour s).k, (nextNeighbour s).phase, fun h5 => ?_, fun h5 => ?_, fun hn => ?_,
    fun hn room => ?_, fun hn full => ?_⟩⟩
  · rw [nextNeighbour_last h5]
    exact ⟨rfl, rfl⟩
  · rw [nextNeighbour_next h5]
    exact ⟨hp, Fin.val_add_one_of_lt (Fin.lt_last_iff_ne_last.2 h5)⟩
  · rw [tStep_expand_pass hp hn, nextNeighbour_eq]
  · obtain ⟨hx, hy⟩ := toNat_ofNat_of_interior hn.1.1
    refine ⟨_, _, hx, hy, ?_⟩
    rw [tStep_expand_discover hp hn, discover_room (by simpa using room), nextNeighbour_eq]
    rfl
  · rw [tStep_expand_discover hp hn, discover_full (by simpa using full.ge)]

/-- Settles O35: the phase after a step that reports `Done` is `DONE`. -/
theorem doneStepIsFinal : Obligations.DoneStepIsFinal :=
  fun _ _ => ⟨tStep_done, fun _ h => tStep_done (phase_of_done h)⟩

theorem nextNeighbour_phase_eq_pop_iff (hp : s.phase = .expand) : (nextNeighbour s).phase = .pop ↔ s.k = 5 := by
  by_cases h5 : s.k = 5
  · simp [nextNeighbour_last h5, h5]
  · simp [nextNeighbour_next h5, h5, hp]

/-- Settles O36: each case of a step is an edge of the graph. -/
theorem phaseGraph : Obligations.PhaseGraph := by
  intro depth s t e h
  cases tracerStep_of_tStep h with
  | stay hp | finish hp | skip hp | resume hp | take hp => simp [hp, inPhase, popForExpansion]
  | seed hp => simp [hp, inPhase, markAndPush]
  | pass hp | spread _ _ hp =>
    refine ⟨?_, by simp [hp], fun _ => nextNeighbour_phase_eq_pop_iff hp⟩
    rcases nextNeighbour_phase hp with he | he <;> simp [hp, he, markAndPush]

/-- What a step of the tracer can change (R200). -/
theorem tStep_frame (h : tStep depth s = .step t e) : t = { s with
    visit := t.visit, stack := t.stack, sp := t.sp, sx := t.sx, sy := t.sy, phase := t.phase, cx := t.cx, cy := t.cy,
    k := t.k } := by
  cases tracerStep_of_tStep h with
  | skip => rw [advanceCursor_eq]
  | seed => rw [advanceCursor_eq]; rfl
  | pass => rw [nextNeighbour_eq]
  | spread => rw [nextNeighbour_eq]; rfl
  | stay | finish | resume | take => rfl

/-- Settles O31: a context has a step, and each case of a step writes fields of the tracer alone. -/
theorem tracerStepFrame : Obligations.TracerStepFrame := fun _ _ => ⟨tStep_ne_off, fun _ _ => tStep_frame⟩

end Sys2Proof.Proofs
end

section
/-! The thresholds of the traversal (43_hysteresis_tracer_eager.md R193): which pairs are valid, by value, and the fault of a pair that
is not. -/

open Sys2Proof Sys2Proof.Machine Sys2Proof.Statement

namespace Sys2Proof.Proofs

variable {s : State} {a b c : Word}

theorem thresholdsValid_iff (s : State) :
    thresholdsValid s = true ↔ fGe s.low posZero = true ∧ fGe s.high posZero = true ∧ fLe s.low s.high = true := by
  simp only [thresholdsValid, Bool.and_eq_true, and_assoc]

/-! ### Comparisons -/

theorem fLe_trans (hab : fLe a b = true) (hbc : fLe b c = true) : fLe a c = true := by
  simp only [fLe, Bool.and_eq_true, decide_eq_true_eq] at hab hbc ⊢
  exact ⟨⟨hab.1.1, hbc.1.2⟩, hab.2.trans hbc.2⟩

theorem fGe_of_fGe_of_fLe (hab : fGe a b = true) (hcb : fLe c b = true) : fGe a c = true := by
  rw [fGe_eq_fLe_swap] at hab ⊢
  exact fLe_trans hcb hab

theorem fLe_eq_false_of_fLt (h : fLt b a = true) : fLe a b = false := by
  simp only [fLt, Bool.and_eq_true, decide_eq_true_eq] at h
  simp [fLe, h.2]

theorem fGe_posZero_iff (h : isFinite a = true) : fGe a posZero = true ↔ 0 ≤ f32Value a := by
  rw [fGe_iff_f32Value h (by decide), posZero, f32Value_zero]

/-! ### Valid pairs -/

theorem thresholdsValid_of_isNaN (h : isNaN s.low = true ∨ isNaN s.high = true) : thresholdsValid s = false := by
  simp [thresholdsValid, (comparisons_of_isNaN h).2.1]

theorem thresholdsValid_iff_f32Value (hl : isFinite s.low = true) (hh : isFinite s.high = true) :
    thresholdsValid s = true ↔ 0 ≤ f32Value s.low ∧ f32Value s.low ≤ f32Value s.high := by
  rw [thresholdsValid_iff, fGe_posZero_iff hl, fGe_posZero_iff hh, fLe_iff_f32Value hl hh]
  exact ⟨fun ⟨h0, _, hle⟩ => ⟨h0, hle⟩, fun ⟨h0, hle⟩ => ⟨h0, h0.trans hle, hle⟩⟩

theorem thresholdsValid_posInf_iff (hl : isFinite s.low = true) (hh : s.high = 0x7F800000#32) :
    thresholdsValid s = true ↔ 0 ≤ f32Value s.low := by
  have hle := (fLe_infinities_of_not_isNaN (isNaN_of_isFinite hl)).1
  have h0 : fGe 0x7F800000#32 posZero = true := by decide
  simp [thresholdsValid_iff, hh, fGe_posZero_iff hl, hle, h0]

theorem thresholdsValid_of_negInf (h : s.low = 0xFF800000#32 ∨ s.high = 0xFF800000#32) : thresholdsValid s = false := by
  have h0 : fGe 0xFF800000#32 posZero = false := by decide
  rcases h with h | h <;> simp [thresholdsValid, h, h0]

theorem traversalCheck_of_invalid (hl : s.live = false) (ht : thresholdsValid s = false) : traversalCheck s = some .thresh := by
  simp [traversalCheck, hl, ht]

/-- Settles O29: the comparisons follow the values, and the two infinities are compared by evaluation. -/
theorem thresholdValidity : Obligations.ThresholdValidity := by
  refine fun s => ⟨thresholdsValid_of_isNaN, thresholdsValid_iff_f32Value, thresholdsValid_posInf_iff, fun hl hh => ?_,
    fun hl hh => ?_, thresholdsValid_of_negInf, fun hi hl ht => ⟨?_, ?_⟩⟩
  · rw [thresholdsValid, hl, hh]
    decide
  · have hlt := (fLt_infinities_of_isFinite hh).1
    simp [thresholdsValid, hl, fLe_eq_false_of_fLt hlt]
  · exact exec_idle_fault (i := .trace) nofun hi (traversalCheck_of_invalid hl ht)
  · exact exec_idle_fault (i := .lstart) nofun hi (traversalCheck_of_invalid hl ht)

end Sys2Proof.Proofs
end

section
/-! The work stack along a traversal (43_hysteresis_tracer_eager.md R211, R212). The idea: no step raises the number of stack entries
and Unvisited pixels together, and a step that needs room on the stack has an Unvisited pixel before it. -/

open Sys2Proof Sys2Proof.Machine Sys2Proof.Statement

namespace Sys2Proof.Proofs

variable {depth m n : Nat} {s t : State} {e : Event}

/-- Settles O39: `traceBound` is R211's bound. -/
theorem traversalEndsWithinItsBound : Obligations.TraversalEndsWithinItsBound :=
  fun depth _ ⟨_, _, _, _, hw, hh⟩ => traceLoop_traceStart_ends depth hw hh

/-! ### The stack and the Unvisited pixels -/

theorem unvisited_advanceCursor (s : State) : (advanceCursor s).unvisited = s.unvisited := by
  rw [advanceCursor_eq]
  rfl

theorem unvisited_nextNeighbour (s : State) : (nextNeighbour s).unvisited = s.unvisited := by
  rw [nextNeighbour_eq]
  rfl

theorem sp_add_unvisited_markAndPush_le {x y : Half} (hi : s.interior x.toNat y.toNat = true)
    (hv : s.visit.read (s.idx x.toNat y.toNat) = 0#1) :
    (markAndPush x y s).sp.toNat + (markAndPush x y s).unvisited ≤ s.sp.toNat + s.unvisited := by
  have hsp := markAndPush_sp_le x y s
  have hu := unvisited_markAndPush hi hv
  omega

theorem sp_add_unvisited_step_le (h : CursorInRange s) (hs : tStep depth s = .step t e) :
    t.sp.toNat + t.unvisited ≤ s.sp.toNat + s.unvisited := by
  cases tracerStep_of_tStep hs with
  | stay | finish | resume => exact le_rfl
  | skip => rw [advanceCursor_sp, unvisited_advanceCursor]
  | seed hp hy hq _ =>
    have hmark := sp_add_unvisited_markAndPush_le (s := inPhase .pop (advanceCursor s)) (x := s.sx) (y := s.sy)
      ((advanceCursor_interior s _ _).trans (h.cursor_interior hy)) (by simpa using qualifies_unvisited hq)
    have hsame : (inPhase .pop (advanceCursor s)).sp.toNat + (inPhase .pop (advanceCursor s)).unvisited =
        s.sp.toNat + s.unvisited := by
      rw [← unvisited_advanceCursor s, ← advanceCursor_sp s]
      rfl
    exact hmark.trans_eq hsame
  | take hp hz =>
    have hsp : (s.sp - 1#32).toNat ≤ s.sp.toNat := by bv_omega
    exact Nat.add_le_add_right hsp _
  | pass => rw [nextNeighbour_sp, unvisited_nextNeighbour]
  | spread x y _ _ _ hi hq _ =>
    have hmark := sp_add_unvisited_markAndPush_le (s := nextNeighbour s) (x := x) (y := y) (by simpa using hi)
      (by simpa using qualifies_unvisited hq)
    rwa [nextNeighbour_sp, unvisited_nextNeighbour] at hmark

/-- The cursor stays in range also at the end of the scan (R41). -/
theorem CursorInRange.keep (h : CursorInRange s) (hs : tStep depth s = .step t e) : CursorInRange t := by
  by_cases he : e = .done
  · subst he
    cases tracerStep_of_tStep hs with
    | stay => exact h
    | finish => exact h.inPhase (by decide)
  · exact (h.step hs he).1

/-! ### Room on the stack (R212) -/

/-- A traversal with at most `m` stack entries and Unvisited pixels together. -/
structure Fits (m : Nat) (s : State) : Prop extends CursorInRange s where
  room : s.sp.toNat + s.unvisited ≤ m

theorem tInit_fits (hw : 3 ≤ s.w) (hh : 3 ≤ s.h) : Fits s.interiorCount (tInit s) where
  context := nofun
  width := hw
  left := le_rfl
  right := hw
  top := le_rfl
  bottom := show 1 + 1 ≤ s.h by omega
  finalCursor _ := rfl
  room := by simpa using unvisited_le_interiorCount (tInit s)

theorem Fits.step (h : Fits m s) (hs : tStep depth s = .step t e) : Fits m t :=
  { h.toCursorInRange.keep hs with room := (sp_add_unvisited_step_le h.toCursorInRange hs).trans h.room }

theorem discover_eq_overflow {x y : Half} (h : discover depth x y s = .overflow) : depth ≤ s.sp.toNat := by
  by_contra hlt
  rw [discover_room (Nat.lt_of_not_le hlt)] at h
  cases h

/-- The converse of `tStep_overflow`: only a discovery overflows (R52). -/
theorem discovers_of_overflow (h : tStep depth s = .overflow) : s.discovers ∧ depth ≤ s.sp.toNat := by
  rcases tStep_cases depth s with ⟨-, hs⟩ | ⟨-, hs⟩ | ⟨-, -, hs⟩ | ⟨-, -, -, hs⟩ | ⟨hp, hy, hq, hs⟩ | ⟨-, -, hs⟩ |
    ⟨-, -, hs⟩ | ⟨-, -, hs⟩ | ⟨hp, hq, hs⟩ <;> rw [hs] at h
  iterate 4 cases h
  · exact ⟨.inl ⟨hp, hy, qualifies_iff.1 hq⟩, by simpa using discover_eq_overflow h⟩
  iterate 3 cases h
  · exact ⟨.inr ⟨hp, neighbourQualifies_iff.2 hq⟩, by simpa using discover_eq_overflow h⟩

theorem natCast_toNat_of_interior {x y : Int} (hi : s.interior x y = true) : (x.toNat : Int) = x ∧ (y.toNat : Int) = y := by
  obtain ⟨hx, -, hy, -⟩ := interior_iff.1 hi
  omega

/-- A step that discovers a pixel has an Unvisited interior pixel before it. -/
theorem CursorInRange.unvisited_pos (h : CursorInRange s) (hd : s.discovers) : 0 < s.unvisited := by
  rcases hd with ⟨-, hy, hv, -⟩ | ⟨-, ⟨hi, -⟩, hv⟩
  · exact Nat.lt_of_lt_of_eq (Nat.succ_pos _) (unvisited_write_visit (h.cursor_interior hy) hv)
  · obtain ⟨hx, hy⟩ := natCast_toNat_of_interior hi
    rw [← hx, ← hy] at hi
    exact Nat.lt_of_lt_of_eq (Nat.succ_pos _) (unvisited_write_visit hi hv)

theorem Fits.exists_step (h : Fits m s) (hd : m ≤ depth) : ∃ t e, tStep depth s = .step t e := by
  cases hs : tStep depth s with
  | step t e => exact ⟨t, e, rfl⟩
  | off => exact absurd hs (tStep_ne_off h.context)
  | overflow =>
    obtain ⟨hdisc, hfull⟩ := discovers_of_overflow hs
    have hpos := h.toCursorInRange.unvisited_pos hdisc
    have hroom := h.room
    omega

theorem Fits.of_tracerRun (h : Fits m s) (hr : tracerRun depth n s = some t) : Fits m t := by
  induction n generalizing s with
  | zero => exact Option.some.inj hr ▸ h
  | succ n ih =>
    cases hs : tStep depth s with
    | step u e =>
      simp only [tracerRun, hs] at hr
      exact ih (h.step hs) hr
    | overflow | off => simp only [tracerRun, hs, reduceCtorEq] at hr

theorem Fits.exists_tracerRun (h : Fits m s) (hd : m ≤ depth) (n : Nat) : ∃ t, tracerRun depth n s = some t := by
  induction n generalizing s with
  | zero => exact ⟨s, rfl⟩
  | succ n ih =>
    obtain ⟨u, e, hs⟩ := h.exists_step hd
    simpa only [tracerRun, hs] using ih (h.step hs)

/-- Settles O40: at the start no pixel is on the stack, and no step raises the sum. -/
theorem stackDepthSuffices : Obligations.StackDepthSuffices := by
  rintro depth n s ⟨-, -, -, -, hw, hh⟩
  have hstart := tInit_fits hw hh
  exact ⟨fun t hr => le_of_add_le_left (hstart.of_tracerRun hr).room, fun hd => hstart.exists_tracerRun hd n⟩

end Sys2Proof.Proofs
end

section
/-! Which pixels a traversal finds (43_hysteresis_tracer_eager.md R213). The idea, in two invariants of the tracer's step: every pixel
visited, stacked or being expanded is reachable from a seed (`FoundAreReachable`); and every seed behind the cursor is visited, and so
is every candidate neighbour of a visited pixel, unless the pixel is still on the stack or its expansion has that offset to come
(`Explored`). At the end the scan is complete and nothing is stacked or being expanded, so the visited pixels are the reachable ones. -/

open Sys2Proof Sys2Proof.Machine

namespace Sys2Proof.Proofs

variable {depth : Nat} {s s₀ t : State} {e : Event} {x y : Int}

/-! ### Reachable pixels -/

/-- More seeds and more candidates reach more pixels. -/
theorem reachable_mono (hseed : ∀ x y, isSeed s x y → isSeed t x y) (hcand : ∀ x y, isCandidate s x y → isCandidate t x y)
    (h : Reachable s x y) : Reachable t x y := by
  induction h with
  | seed x y hs => exact .seed x y (hseed x y hs)
  | spread x y k _ hc ih => exact .spread x y k ih (hcand _ _ hc)

theorem interior_of_reachable (h : Reachable s x y) : s.interior x y = true := by
  cases h with
  | seed _ _ hs => exact hs.1
  | spread _ _ _ _ hc => exact hc.1

theorem isSeed_of_frame (h : sameOutsideTraversal s t) : isSeed t x y ↔ isSeed s x y := by
  rw [h]
  rfl

theorem isCandidate_of_frame (h : sameOutsideTraversal s t) : isCandidate t x y ↔ isCandidate s x y := by
  rw [h]
  rfl

theorem reachable_of_frame (h : sameOutsideTraversal s t) : Reachable t x y ↔ Reachable s x y :=
  ⟨reachable_mono (fun _ _ => (isSeed_of_frame h).1) fun _ _ => (isCandidate_of_frame h).1,
    reachable_mono (fun _ _ => (isSeed_of_frame h).2) fun _ _ => (isCandidate_of_frame h).2⟩

/-! ### Edge pixels -/

/-- The pixel is Edge: its visit bit is set (R190). -/
def isEdge (s : State) (x y : Int) : Prop := s.visit.read (s.idx x.toNat y.toNat) = 1#1

theorem idx_inj_of_interior {x' y' : Int} (hi : s.interior x y = true) (hi' : s.interior x' y' = true)
    (he : s.idx x.toNat y.toNat = s.idx x'.toNat y'.toNat) : x = x' ∧ y = y' := by
  obtain ⟨hx, hxw, hy, -⟩ := interior_iff.1 hi
  obtain ⟨hx', hxw', hy', -⟩ := interior_iff.1 hi'
  have ex : x.toNat = x'.toNat := by rw [← idx_mod (s := s) (x := x.toNat) (by omega) y.toNat, he, idx_mod (by omega)]
  have ey : y.toNat = y'.toNat := by rw [← idx_div (s := s) (x := x.toNat) (by omega) y.toNat, he, idx_div (by omega)]
  omega

theorem isEdge_markAndPush_self (a b : Half) (s : State) : isEdge (markAndPush a b s) a.toNat b.toNat :=
  Mem.read_write_same _ _ _

theorem isEdge.markAndPush (h : isEdge s x y) (a b : Half) : isEdge (markAndPush a b s) x y := by
  have hr := Mem.read_write s.visit (s.idx a.toNat b.toNat) (s.idx x.toNat y.toNat) 1#1
  split at hr
  · exact hr
  · exact hr.trans h

theorem isEdge_of_markAndPush {a b : Half} (hab : s.interior a.toNat b.toNat = true) (hi : s.interior x y = true)
    (h : isEdge (markAndPush a b s) x y) : isEdge s x y ∨ x = a.toNat ∧ y = b.toNat := by
  by_cases he : s.idx x.toNat y.toNat = s.idx a.toNat b.toNat
  · exact .inr (idx_inj_of_interior hi hab he)
  · exact .inl ((Mem.read_write_other _ _ he).symm.trans h)

/-- A pixel is Unvisited or Edge (R190). -/
theorem isEdge_of_not_unvisited (h : s.visit.read (s.idx x.toNat y.toNat) ≠ 0#1) : isEdge s x y :=
  (BitVec.eq_zero_or_eq_one _).resolve_left h

/-! ### What is found is reachable -/

/-- What the traversal has visited, stacked or taken up is reachable from the seeds of `s₀`. -/
structure FoundAreReachable (s₀ s : State) : Prop where
  visited : ∀ i, i < s.area → s.visit.read i = 1#1 → Reachable s₀ (i % s.w : Nat) (i / s.w : Nat)
  stacked : ∀ j, j < s.sp.toNat → Reachable s₀ (coordX (s.stack.read j)).toNat (coordY (s.stack.read j)).toNat
  current : s.phase = .expand → Reachable s₀ s.cx.toNat s.cy.toNat

namespace FoundAreReachable

theorem inPhase (h : FoundAreReachable s₀ s) {p : Phase} (hp : p ≠ .expand) : FoundAreReachable s₀ (Proofs.inPhase p s) :=
  { h with current := fun he => absurd he hp }

theorem advanceCursor (h : FoundAreReachable s₀ s) : FoundAreReachable s₀ (Machine.advanceCursor s) := by
  rw [advanceCursor_eq]
  exact { h with }

theorem nextNeighbour (h : FoundAreReachable s₀ s) (hp : s.phase = .expand) :
    FoundAreReachable s₀ (Machine.nextNeighbour s) := by
  rw [nextNeighbour_eq]
  exact { h with current := fun _ => h.current hp }

theorem popForExpansion (h : FoundAreReachable s₀ s) (hz : s.sp ≠ 0#32) : FoundAreReachable s₀ (Proofs.popForExpansion s) := by
  have hsp : (s.sp - 1#32).toNat + 1 = s.sp.toNat := by bv_omega
  exact { h with
    stacked := fun j (hj : j < (s.sp - 1#32).toNat) => h.stacked j (by omega)
    current := fun _ => h.stacked _ (by omega) }

theorem markAndPush (h : FoundAreReachable s₀ s) {a b : Half} (hi : s.interior a.toNat b.toNat = true)
    (hr : Reachable s₀ a.toNat b.toNat) : FoundAreReachable s₀ (Proofs.markAndPush a b s) where
  visited i hlt hv := by
    by_cases he : i = s.idx a.toNat b.toNat
    · obtain ⟨-, hx, -, -⟩ := interior_iff.1 hi
      subst he
      show Reachable s₀ (s.idx a.toNat b.toNat % s.w : Nat) (s.idx a.toNat b.toNat / s.w : Nat)
      rwa [idx_mod (by omega), idx_div (by omega)]
    · exact h.visited i hlt ((Mem.read_write_other _ _ he).symm.trans hv)
  stacked j hj := by
    show Reachable s₀ (coordX ((s.stack.write s.sp.toNat (coordWord a b)).read j)).toNat
      (coordY ((s.stack.write s.sp.toNat (coordWord a b)).read j)).toNat
    by_cases he : j = s.sp.toNat
    · simpa [he] using hr
    · have hle := markAndPush_sp_le a b s
      rw [Mem.read_write_other _ _ he]
      exact h.stacked j (by omega)
  current := h.current

theorem step (h : FoundAreReachable s₀ s) (hc : CursorInRange s) (hf : sameOutsideTraversal s₀ s)
    (hs : tStep depth s = .step t e) : FoundAreReachable s₀ t := by
  cases tracerStep_of_tStep hs with
  | stay => exact h
  | finish | resume => exact h.inPhase (by decide)
  | skip => exact h.advanceCursor
  | seed hp hy hq _ =>
    have hi := hc.cursor_interior hy
    have hseed : isSeed s s.sx.toNat s.sy.toNat := ⟨hi, (qualifies_iff.1 hq).2⟩
    exact (h.advanceCursor.inPhase (by decide)).markAndPush ((advanceCursor_interior s _ _).trans hi)
      (.seed _ _ ((isSeed_of_frame hf).1 hseed))
  | take hp hz => exact h.popForExpansion hz
  | pass hp => exact h.nextNeighbour hp
  | spread a b hp hx hy hi hq _ =>
    have hcand : isCandidate s (s.cx.toNat + offsetX s.k) (s.cy.toNat + offsetY s.k) := by
      rw [← hx, ← hy]
      exact ⟨hi, (qualifies_iff.1 hq).2⟩
    have hreach := Reachable.spread _ _ s.k (h.current hp) ((isCandidate_of_frame hf).1 hcand)
    rw [← hx, ← hy] at hreach
    exact (h.nextNeighbour hp).markAndPush ((nextNeighbour_interior s _ _).trans hi) hreach

end FoundAreReachable

/-! ### What is reachable is found -/

/-- The scan has left the position behind (R41). -/
def behindCursor (s : State) (x y : Int) : Prop := y < s.sy.toNat ∨ y = s.sy.toNat ∧ x < s.sx.toNat

def onStack (s : State) (x y : Int) : Prop :=
  ∃ j, j < s.sp.toNat ∧ x = (coordX (s.stack.read j)).toNat ∧ y = (coordY (s.stack.read j)).toNat

/-- The pixel is being expanded, and offset `k` is still to come (R206). -/
def pending (s : State) (x y : Int) (k : Fin 6) : Prop :=
  s.phase = .expand ∧ x = s.cx.toNat ∧ y = s.cy.toNat ∧ s.k ≤ k

/-- Seeds behind the cursor and candidate neighbours of Edge pixels are Edge, but for what the stack and the expansion still hold. -/
structure Explored (s : State) : Prop where
  seeds : ∀ x y, isSeed s x y → behindCursor s x y → isEdge s x y
  neighbours : ∀ x y, s.interior x y = true → isEdge s x y → onStack s x y ∨
    ∀ k, isCandidate s (x + offsetX k) (y + offsetY k) → isEdge s (x + offsetX k) (y + offsetY k) ∨ pending s x y k

/-- The scan leaves one position behind with each advance (R41). -/
theorem behindCursor_advanceCursor (hy : s.sy.toNat + 1 < s.h) (hi : s.interior x y = true)
    (h : behindCursor (advanceCursor s) x y) : behindCursor s x y ∨ x = s.sx.toNat ∧ y = s.sy.toNat := by
  obtain ⟨hx1, hxw, -, -⟩ := interior_iff.1 hi
  have hw : s.w < 65536 := s.width.isLt
  have hh : s.h < 65536 := s.height.isLt
  unfold behindCursor at h ⊢
  by_cases hr : s.sx.toNat + 2 < s.w
  · have ex : (s.sx + 1#16).toNat = s.sx.toNat + 1 := BitVec.toNat_add_of_lt (by simp; omega)
    simp only [advanceCursor_right hr, ex] at h
    omega
  · have ey : (s.sy + 1#16).toNat = s.sy.toNat + 1 := BitVec.toNat_add_of_lt (by simp; omega)
    have e1 : (1#16).toNat = 1 := rfl
    simp only [advanceCursor_nextRow (Nat.le_of_not_lt hr), ey, e1] at h
    omega

theorem advanceCursor_markAndPush (a b : Half) (s : State) :
    advanceCursor (markAndPush a b s) = markAndPush a b (advanceCursor s) := by
  rw [advanceCursor, advanceCursor, apply_ite (markAndPush a b)]
  rfl

theorem nextNeighbour_markAndPush (a b : Half) (s : State) :
    nextNeighbour (markAndPush a b s) = markAndPush a b (nextNeighbour s) := by
  rw [nextNeighbour, nextNeighbour, apply_ite (markAndPush a b)]
  rfl

namespace Explored

theorem inPhase (h : Explored s) (hp : s.phase ≠ .expand) (p : Phase) : Explored (Proofs.inPhase p s) where
  seeds := h.seeds
  neighbours x y hi he := (h.neighbours x y hi he).imp_right fun hn k hc =>
    .inl ((hn k hc).resolve_right fun hpend => hp hpend.1)

/-- The pixel under the cursor is left behind when it is Edge or no seed. -/
theorem advanceCursor (h : Explored s) (hy : s.sy.toNat + 1 < s.h)
    (hcur : isSeed s s.sx.toNat s.sy.toNat → isEdge s s.sx.toNat s.sy.toNat) : Explored (Machine.advanceCursor s) := by
  have hseeds : ∀ x y, isSeed s x y → behindCursor (Machine.advanceCursor s) x y → isEdge s x y := by
    intro x y hs hb
    rcases behindCursor_advanceCursor hy hs.1 hb with hb | ⟨rfl, rfl⟩
    · exact h.seeds x y hs hb
    · exact hcur hs
  rw [advanceCursor_eq] at hseeds ⊢
  exact ⟨hseeds, h.neighbours⟩

/-- An offset is done with when the neighbour there is Edge or no candidate. -/
theorem nextNeighbour (h : Explored s) (hcur : isCandidate s (s.cx.toNat + offsetX s.k) (s.cy.toNat + offsetY s.k) →
    isEdge s (s.cx.toNat + offsetX s.k) (s.cy.toNat + offsetY s.k)) : Explored (Machine.nextNeighbour s) := by
  have hneighbours : ∀ x y, s.interior x y = true → isEdge s x y → onStack s x y ∨
      ∀ k, isCandidate s (x + offsetX k) (y + offsetY k) → isEdge s (x + offsetX k) (y + offsetY k) ∨
        pending (Machine.nextNeighbour s) x y k := by
    refine fun x y hi he => (h.neighbours x y hi he).imp_right fun hn k hc => ?_
    rcases hn k hc with he | ⟨hp, rfl, rfl, hk⟩
    · exact .inl he
    rcases hk.eq_or_lt with rfl | hlt
    · exact .inl (hcur hc)
    · have h5 : s.k ≠ 5 := by omega
      rw [nextNeighbour_next h5]
      exact .inr ⟨hp, rfl, rfl, Fin.add_one_le_of_lt hlt⟩
  rw [nextNeighbour_eq] at hneighbours ⊢
  exact ⟨h.seeds, hneighbours⟩

theorem popForExpansion (h : Explored s) (hp : s.phase = .pop) (hz : s.sp ≠ 0#32) : Explored (Proofs.popForExpansion s) where
  seeds := h.seeds
  neighbours x y hi he := by
    have hsp : (s.sp - 1#32).toNat + 1 = s.sp.toNat := by bv_omega
    rcases h.neighbours x y hi he with ⟨j, hj, hx, hy⟩ | hn
    · by_cases hlast : j = (s.sp - 1#32).toNat
      · subst hlast
        exact .inr fun k _ => .inr ⟨rfl, hx, hy, Fin.zero_le k⟩
      · exact .inl ⟨j, show j < (s.sp - 1#32).toNat by omega, hx, hy⟩
    · exact .inr fun k hc => .inl ((hn k hc).resolve_right fun hpend => nomatch hp.symm.trans hpend.1)

theorem markAndPush (h : Explored s) {a b : Half} (hab : s.interior a.toNat b.toNat = true) (hroom : s.sp.toNat + 1 < 2 ^ 32) :
    Explored (Proofs.markAndPush a b s) where
  seeds x y hs hb := (h.seeds x y hs hb).markAndPush a b
  neighbours x y hi he := by
    have hsp : (s.sp + 1#32).toNat = s.sp.toNat + 1 := BitVec.toNat_add_of_lt hroom
    rcases isEdge_of_markAndPush hab hi he with he | ⟨rfl, rfl⟩
    · rcases h.neighbours x y hi he with ⟨j, hj, hx, hy⟩ | hn
      · have hr : (Proofs.markAndPush a b s).stack.read j = s.stack.read j := Mem.read_write_other _ _ hj.ne
        exact .inl ⟨j, show j < (s.sp + 1#32).toNat by omega, by rwa [hr], by rwa [hr]⟩
      · exact .inr fun k hc => (hn k hc).imp_left fun he => he.markAndPush a b
    · have hr : (Proofs.markAndPush a b s).stack.read s.sp.toNat = coordWord a b := Mem.read_write_same _ _ _
      exact .inl ⟨s.sp.toNat, show s.sp.toNat < (s.sp + 1#32).toNat by omega, by simp [hr], by simp [hr]⟩

theorem step (h : Explored s) (hc : CursorInRange s) (hd : depth < 2 ^ 32) (hs : tStep depth s = .step t e) : Explored t := by
  cases tracerStep_of_tStep hs with
  | stay => exact h
  | finish hp | resume hp => exact h.inPhase (by simp [hp]) _
  | skip hp hy hq =>
    refine h.advanceCursor hy fun hseed => isEdge_of_not_unvisited fun hv => ?_
    exact absurd (hq.symm.trans (qualifies_iff.2 ⟨hv, hseed.2⟩)) (by decide)
  | seed hp hy hq room =>
    have hmark := h.markAndPush (hc.cursor_interior hy) (by omega)
    have hadvance := hmark.advanceCursor hy fun _ => isEdge_markAndPush_self _ _ s
    rw [advanceCursor_markAndPush] at hadvance
    exact hadvance.inPhase (by simp [Proofs.markAndPush, hp]) .pop
  | take hp hz => exact h.popForExpansion hp hz
  | pass hp hq =>
    refine h.nextNeighbour fun hcand => isEdge_of_not_unvisited fun hv => ?_
    exact absurd (hq.symm.trans (neighbourQualifies_iff.1 ⟨hcand, hv⟩)) (by decide)
  | spread a b hp hx hy hi hq room =>
    have hmark := h.markAndPush hi (by omega)
    have hnext := hmark.nextNeighbour fun _ => by
      show isEdge (Proofs.markAndPush a b s) (s.cx.toNat + offsetX s.k) (s.cy.toNat + offsetY s.k)
      rw [← hx, ← hy]
      exact isEdge_markAndPush_self a b s
    rwa [nextNeighbour_markAndPush] at hnext

/-- When the scan is complete and nothing is stacked or being expanded, every reachable pixel is Edge. -/
theorem isEdge_of_reachable (h : Explored s) (hdone : s.phase = .done) (hz : s.sp = 0#32) (hy : s.h ≤ s.sy.toNat + 1)
    (hr : Reachable s x y) : isEdge s x y := by
  induction hr with
  | seed x y hs =>
    obtain ⟨-, -, -, hyh⟩ := interior_iff.1 hs.1
    exact h.seeds x y hs (.inl (by omega))
  | spread x y k hr hc ih =>
    rcases h.neighbours x y (interior_of_reachable hr) ih with ⟨j, hj, -⟩ | hn
    · simp [hz] at hj
    · exact (hn k hc).resolve_right fun hpend => nomatch hdone.symm.trans hpend.1

end Explored

end Sys2Proof.Proofs
end

section
/-! What `TRACE` ends with (43_hysteresis_tracer_eager.md R213, R215, R216): the invariants of the tracer hold where its loop ends, so the
visit map is the set of the reachable pixels and `OUT` shows it. The rest of R216 follows from reachability. -/

open Sys2Proof Sys2Proof.Machine Sys2Proof.Statement

namespace Sys2Proof.Proofs

variable {depth i : Nat} {s s₀ t : State} {e : Event} {x y : Int}

/-! ### The invariant of the loop -/

/-- The stack is empty while the scan runs and after it, and at the end the scan is complete (R41, R45). -/
structure ScanInv (s : State) : Prop where
  emptyStack : s.phase = .scan ∨ s.phase = .done → s.sp = 0#32
  scanComplete : s.phase = .done → s.h ≤ s.sy.toNat + 1

theorem ScanInv.of_phase (h : s.phase = .pop ∨ s.phase = .expand) : ScanInv s := by
  constructor <;> rcases h with h | h <;> simp [h]

theorem ScanInv.step (h : ScanInv s) (hs : tStep depth s = .step t e) : ScanInv t := by
  cases tracerStep_of_tStep hs with
  | stay => exact h
  | finish hp hy => exact ⟨fun _ => h.emptyStack (.inl hp), fun _ => hy⟩
  | skip hp =>
    constructor <;> rw [advanceCursor_phase, hp]
    · exact fun _ => (advanceCursor_sp s).trans (h.emptyStack (.inl hp))
    · exact nofun
  | seed => exact .of_phase (.inl rfl)
  | resume _ hz => exact ⟨fun _ => hz, nofun⟩
  | take => exact .of_phase (.inr rfl)
  | pass hp | spread _ _ hp => exact .of_phase (nextNeighbour_phase hp)

/-- What holds in the loop of `TRACE` on `s₀`, but for `OUT`. -/
structure TracerInv (s₀ s : State) : Prop where
  fits : Fits s₀.interiorCount s
  frame : sameOutsideTraversal s₀ s
  scan : ScanInv s
  found : FoundAreReachable s₀ s
  explored : Explored s

theorem TracerInv.step (h : TracerInv s₀ s) (hd : depth < 2 ^ 32) (hs : tStep depth s = .step t e) : TracerInv s₀ t where
  fits := h.fits.step hs
  frame := sameOutsideTraversal_trans h.frame (sameOutsideTraversal_step hs)
  scan := h.scan.step hs
  found := h.found.step h.fits.toCursorInRange h.frame hs
  explored := h.explored.step h.fits.toCursorInRange hd hs

theorem TracerInv.writeForeground (h : TracerInv s₀ s) (a b : Half) : TracerInv s₀ (Machine.writeForeground a b s) where
  fits := { h.fits with }
  frame := sameOutsideTraversal_trans h.frame rfl
  scan := { h.scan with }
  found := { h.found with }
  explored := { h.explored with }

theorem traceStart_visit_read (hi : i < s.area) : (traceStart s).visit.read i = 0#1 := Mem.read_fill_lt _ _ hi

/-- At the start no pixel is Edge and no interior pixel is behind the cursor (R195). -/
theorem traceStart_explored (s : State) : Explored (traceStart s) where
  seeds x y hs hb := by
    obtain ⟨hx, -, hy, -⟩ := interior_iff.1 hs.1
    simp only [behindCursor, traceStart_sx, traceStart_sy, BitVec.reduceToNat] at hb
    omega
  neighbours x y hi he := by
    obtain ⟨hx, hy⟩ := natCast_toNat_of_interior hi
    rw [← hx, ← hy] at hi
    have hv : (traceStart s).visit.read ((traceStart s).idx x.toNat y.toNat) = 0#1 :=
      traceStart_visit_read (idx_lt_area_of_interior (s := s) hi)
    exact absurd (hv.symm.trans he) (by decide)

theorem traceStart_tracerInv (hw : 3 ≤ s.w) (hh : 3 ≤ s.h) : TracerInv s (traceStart s) where
  fits := tInit_fits (s := { s with out := s.out.fill s.area fun _ => Config.bg }) hw hh
  frame := rfl
  scan := ⟨fun _ => rfl, nofun⟩
  found := {
    visited := fun i hi hv => absurd ((traceStart_visit_read (s := s) hi).symm.trans hv) (by decide)
    stacked := fun j hj => absurd hj (Nat.not_lt_zero j)
    current := nofun }
  explored := traceStart_explored s

/-- `OUT` shows the visit map over the background, and both are as in `s₀` beyond the raster (R215). -/
structure OutputShowsVisits (s₀ s : State) : Prop where
  raster : ∀ i, i < s₀.area → s.out.read i = if s.visit.read i = 1#1 then Config.fg else Config.bg
  beyond : ∀ i, s₀.area ≤ i → s.out.read i = s₀.out.read i ∧ s.visit.read i = s₀.visit.read i

theorem traceStart_outputShowsVisits (s : State) : OutputShowsVisits s (traceStart s) where
  raster i hi := by
    rw [traceStart_visit_read hi]
    exact Mem.read_fill_lt _ _ hi
  beyond i hi := ⟨Mem.read_fill_ge _ _ hi, Mem.read_fill_ge _ _ hi⟩

theorem OutputShowsVisits.quiet (h : OutputShowsVisits s₀ s) (hs : tStep depth s = .step t e) (he : ∀ a b, e ≠ .found a b) :
    OutputShowsVisits s₀ t := by
  have ho : t.out = s.out := (congrArg State.out (tStep_frame hs) :)
  have hv : t.visit = s.visit := (visitBitsNeverClear depth s t e hs).2 he
  exact ⟨fun i hi => by rw [ho, hv, h.raster i hi], fun i hi => by rw [ho, hv]; exact h.beyond i hi⟩

/-- A discovery sets the visit bit and the foreground sample of one pixel (R215). -/
theorem OutputShowsVisits.found (h : OutputShowsVisits s₀ s) {a b : Half} (hs : tStep depth s = .step t (.found a b))
    (hlt : s.idx a.toNat b.toNat < s₀.area) : OutputShowsVisits s₀ (writeForeground a b t) := by
  have hidx : t.idx a.toNat b.toNat = s.idx a.toNat b.toNat := (congrArg (State.idx · a.toNat b.toNat) (tStep_frame hs) :)
  have ho (i : Nat) : (writeForeground a b t).out.read i = if i = s.idx a.toNat b.toNat then Config.fg else s.out.read i := by
    rw [writeForeground_out, Mem.read_write, hidx, tStep_frame hs]
  have hv (i : Nat) : (writeForeground a b t).visit.read i = if i = s.idx a.toNat b.toNat then 1#1 else s.visit.read i :=
    ((visitBitsNeverClear depth s t _ hs).1 a b rfl).2 i
  constructor
  · intro i hi
    rw [ho, hv]
    split
    · rfl
    · exact h.raster i hi
  · intro i hi
    have hne : i ≠ s.idx a.toNat b.toNat := by omega
    rw [ho, hv, if_neg hne, if_neg hne]
    exact h.beyond i hi

theorem CursorInRange.interior_of_found (h : CursorInRange s) {a b : Half} (hs : tStep depth s = .step t (.found a b)) :
    s.interior a.toNat b.toNat = true := by
  cases tracerStep_of_tStep hs with
  | seed _ hy => exact h.cursor_interior hy
  | spread _ _ _ _ _ hi => exact hi

/-! ### The end of `TRACE` -/

/-- What `TRACE` on `s` ends with. -/
structure TraceResult (s t : State) : Prop extends TracerInv s t, OutputShowsVisits s t where
  done : t.phase = .done

/-- `TRACE` completes: its loop ends within its bound, and the stack has the depth of `CAP`, which no raster exceeds (R211, R212). -/
theorem exec_trace_completes (h : traversalReady s) : ∃ t, exec .trace s = .next t ∧ TraceResult s t := by
  have hck := traversalCheck_of_ready h
  obtain ⟨hi, -, -, hcap, hw, hh⟩ := h
  have hroom : s.interiorCount ≤ Config.stackDepth := (interiorCount_le_area s).trans hcap
  have hd : Config.stackDepth < 2 ^ 32 := by decide
  have keep : ∀ u v e, (∀ a b, e ≠ .found a b) → TracerInv s u ∧ OutputShowsVisits s u → tStep Config.stackDepth u = .step v e →
      TracerInv s v ∧ OutputShowsVisits s v := fun u v e he ⟨hu, ho⟩ hv => ⟨hu.step hd hv, ho.quiet hv he⟩
  have keepFound : ∀ u v a b, TracerInv s u ∧ OutputShowsVisits s u → tStep Config.stackDepth u = .step v (.found a b) →
      TracerInv s (writeForeground a b v) ∧ OutputShowsVisits s (writeForeground a b v) := by
    refine fun u v a b ⟨hu, ho⟩ hv => ⟨(hu.step hd hv).writeForeground a b, ho.found hv ?_⟩
    have hlt := idx_lt_area_of_interior (hu.fits.toCursorInRange.interior_of_found hv)
    have harea : u.area = s.area := (congrArg State.area hu.frame :)
    exact hlt.trans_eq harea
  have hexec : exec .trace s = traceBody Config.stackDepth s := exec_idle_ok (i := .trace) nofun hi hck
  rcases traceLoop_induct _ (fun u v => keep u v .none nofun) keepFound (traceBound s) (traceStart s)
    ⟨traceStart_tracerInv hw hh, traceStart_outputShowsVisits s⟩ with
    ⟨u, t, hu, ht, hl⟩ | ⟨u, ⟨hu, -⟩, hv, -⟩ | ⟨u, ⟨hu, -⟩, hv, -⟩ | hl
  · obtain ⟨hinv, hout⟩ := keep u t .done nofun hu ht
    exact ⟨t, hexec.trans (traceBody_of_done hl), { hinv, hout with done := phase_of_done ht }⟩
  · obtain ⟨v, e, hs⟩ := hu.fits.exists_step hroom
    exact nomatch hv.symm.trans hs
  · exact absurd hv (tStep_ne_off hu.fits.context)
  · rcases traceLoop_traceStart_ends Config.stackDepth hw hh with ⟨t, ht⟩ | ho
    · exact nomatch hl.symm.trans ht
    · exact nomatch hl.symm.trans ho

namespace TraceResult

variable (h : TraceResult s t)
include h

theorem sp_eq : t.sp = 0#32 := h.scan.emptyStack (.inr h.done)

theorem sy_add_one : t.sy.toNat + 1 = s.h := by
  have hh : t.h = s.h := (congrArg State.h h.frame :)
  exact (hh ▸ h.fits.bottom).antisymm (hh ▸ h.scan.scanComplete h.done)

theorem sx_eq : t.sx = 1#16 := by
  have hh : t.h = s.h := (congrArg State.h h.frame :)
  exact BitVec.eq_of_toNat_eq (h.fits.finalCursor (h.sy_add_one.trans hh.symm))

/-- R213, for the pixel of an index. -/
theorem visit_iff (hi : i < s.area) : t.visit.read i = 1#1 ↔ Reachable s (i % s.w : Nat) (i / s.w : Nat) := by
  have hw : t.w = s.w := (congrArg State.w h.frame :)
  have harea : t.area = s.area := (congrArg State.area h.frame :)
  constructor
  · intro hv
    rw [← hw]
    exact h.found.visited i (hi.trans_eq harea.symm) hv
  · intro hr
    have hh : t.h = s.h := (congrArg State.h h.frame :)
    have hidx : t.idx (i % s.w) (i / s.w) = i := by rw [State.idx, hw, Nat.mul_comm, Nat.div_add_mod]
    have hedge := h.explored.isEdge_of_reachable h.done h.sp_eq (by rw [hh, h.sy_add_one]) ((reachable_of_frame h.frame).2 hr)
    rwa [isEdge, Int.toNat_natCast, Int.toNat_natCast, hidx] at hedge

theorem visit_idx_iff {x y : Nat} (hx : x < s.w) (hy : y < s.h) : t.visit.read (s.idx x y) = 1#1 ↔ Reachable s x y := by
  rw [h.visit_iff (idx_lt_area hx hy), idx_mod hx, idx_div hx]

theorem out_eq_fg_iff (hi : i < s.area) : t.out.read i = Config.fg ↔ t.visit.read i = 1#1 := by
  have hne : Config.bg ≠ Config.fg := by decide
  rw [h.raster i hi, ite_eq_left_iff]
  exact ⟨fun hf => by_contra fun hv => hne (hf hv), fun hv hn => absurd hv hn⟩

theorem out_idx_iff {x y : Nat} (hx : x < s.w) (hy : y < s.h) : t.out.read (s.idx x y) = Config.fg ↔ Reachable s x y :=
  (h.out_eq_fg_iff (idx_lt_area hx hy)).trans (h.visit_idx_iff hx hy)

theorem out_eq_bg (hi : i < s.area) (hn : ¬Reachable s (i % s.w : Nat) (i / s.w : Nat)) : t.out.read i = Config.bg := by
  rw [h.raster i hi, if_neg (mt (h.visit_iff hi).1 hn)]

end TraceResult

/-- Settles O41: `TRACE` ends where its loop does, and no pixel of the border is reachable. -/
theorem traceCompletes : Obligations.TraceCompletes := by
  refine ⟨rfl, fun s hready => ?_⟩
  obtain ⟨t, hexec, h⟩ := exec_trace_completes hready
  refine ⟨t, hexec, h.frame, h.done, h.sp_eq, h.sx_eq, ?_, fun x y hx hy => ?_, fun x y hx hy hborder => ?_, h.beyond⟩
  · exact Nat.eq_sub_of_add_eq h.sy_add_one
  · exact h.raster _ (idx_lt_area hx hy)
  · refine h.out_eq_bg (idx_lt_area hx hy) ?_
    show ¬Reachable s (s.idx x y % s.w : Nat) (s.idx x y / s.w : Nat)
    rw [idx_mod hx, idx_div hx]
    exact fun hr => absurd (hborder.symm.trans (interior_of_reachable hr)) (by decide)

/-! ### Reachability decides (R213, R216) -/

theorem isCandidate_of_isSeed (ht : thresholdsValid s = true) (h : isSeed s x y) : isCandidate s x y :=
  ⟨h.1, fGe_of_fGe_of_fLe h.2 ((thresholdsValid_iff s).1 ht).2.2⟩

/-- Settles O42: `FoundAreReachable` and `Explored` are the two directions. -/
theorem traceFindsTheReachablePixels : Obligations.TraceFindsTheReachablePixels := by
  intro s hready
  obtain ⟨t, hexec, h⟩ := exec_trace_completes hready
  obtain ⟨-, -, ht, -⟩ := hready
  exact ⟨t, hexec, fun x y => isCandidate_of_isSeed ht, fun x y => h.visit_idx_iff, fun x y => h.out_idx_iff⟩

/-- On one suppressed raster, thresholds that fewer values reach leave fewer pixels reachable. -/
theorem reachable_of_weaker (hw : t.width = s.width) (hh : t.height = s.height)
    (hsup : ∀ i, i < s.w * s.h → t.sup.read i = s.sup.read i) (hlow : ∀ v, fGe v t.low = true → fGe v s.low = true)
    (hhigh : ∀ v, fGe v t.high = true → fGe v s.high = true) (h : Reachable t x y) : Reachable s x y := by
  have ew : t.w = s.w := congrArg BitVec.toNat hw
  have eh : t.h = s.h := congrArg BitVec.toNat hh
  have hint (x y : Int) : t.interior x y = s.interior x y := by rw [State.interior, State.interior, ew, eh]
  have hread (x y : Int) (hi : t.interior x y = true) :
      t.sup.read (t.idx x.toNat y.toNat) = s.sup.read (s.idx x.toNat y.toNat) := by
    obtain ⟨hx, hy⟩ := natCast_toNat_of_interior hi
    rw [hint, ← hx, ← hy] at hi
    rw [State.idx, ew]
    exact hsup _ (idx_lt_area_of_interior hi)
  refine reachable_mono (fun x y ⟨hi, hv⟩ => ?_) (fun x y ⟨hi, hv⟩ => ?_) h
  · exact ⟨hint x y ▸ hi, hhigh _ (hread x y hi ▸ hv)⟩
  · exact ⟨hint x y ▸ hi, hlow _ (hread x y hi ▸ hv)⟩

/-- Settles O43: what reaches the tighter thresholds reaches the others. -/
theorem tighterThresholdsFindLess : Obligations.TighterThresholdsFindLess := by
  intro s s' hready hready' hw hh hsup hlow hhigh
  obtain ⟨t, hexec, h⟩ := exec_trace_completes hready
  obtain ⟨t', hexec', h'⟩ := exec_trace_completes hready'
  have ew : s'.w = s.w := congrArg BitVec.toNat hw
  have earea : s'.area = s.area := by rw [State.area, State.area, State.h, State.h, ew, hh]
  have hsubset : ∀ i, i < s.area → t'.out.read i = Config.fg → t.out.read i = Config.fg := by
    intro i hi hf
    have hi' : i < s'.area := hi.trans_eq earea.symm
    have hr' := (h'.visit_iff hi').1 ((h'.out_eq_fg_iff hi').1 hf)
    have hr := reachable_of_weaker hw hh hsup (fun v hv => fGe_of_fGe_of_fLe hv hlow) (fun v hv => fGe_of_fGe_of_fLe hv hhigh) hr'
    rw [ew] at hr
    exact (h.out_eq_fg_iff hi).2 ((h.visit_iff hi).2 hr)
  refine ⟨t, t', hexec, hexec', hsubset, List.countP_mono_left fun i hi hf => ?_⟩
  exact decide_eq_true (hsubset i (List.mem_range.1 hi) (of_decide_eq_true hf))

theorem exists_seed_of_reachable (h : Reachable s x y) : ∃ a b, isSeed s a b := by
  induction h with
  | seed a b hs => exact ⟨a, b, hs⟩
  | spread _ _ _ _ _ ih => exact ih

/-- Settles O44: a zero raster has no seed when `HIGH` is greater than zero, and only seeds when it is zero. -/
theorem zeroRasterTrace : Obligations.ZeroRasterTrace := by
  intro s hready hzero
  obtain ⟨t, hexec, h⟩ := exec_trace_completes hready
  have hread (x y : Int) (hi : s.interior x y = true) : s.sup.read (s.idx x.toNat y.toNat) = 0x00000000#32 := by
    obtain ⟨hx, hy⟩ := natCast_toNat_of_interior hi
    rw [← hx, ← hy] at hi
    exact hzero _ (idx_lt_area_of_interior hi)
  refine ⟨t, hexec, fun hpos i hi => h.out_eq_bg hi fun hr => ?_, fun hz x y hi => ?_⟩
  · obtain ⟨a, b, hint, hge⟩ := exists_seed_of_reachable hr
    rw [hread a b hint, fGe_eq_fLe_swap, fLe_eq_false_of_fLt hpos] at hge
    cases hge
  · obtain ⟨-, hx, -, hy⟩ := interior_iff.1 hi
    refine (h.out_idx_iff (by omega) (by omega)).2 (.seed _ _ ⟨hi, ?_⟩)
    rw [hread x y hi]
    rcases hz with hz | hz <;> rw [hz] <;> decide

/-- Settles O45: both ends are decided by reachability, and the two states reach the same pixels. -/
theorem traceDependsOnItsInputsOnly : Obligations.TraceDependsOnItsInputsOnly := by
  rintro s s' hready hready' ⟨hw, hh, hlow, hhigh, hsup⟩
  obtain ⟨t, hexec, h⟩ := exec_trace_completes hready
  obtain ⟨t', hexec', h'⟩ := exec_trace_completes hready'
  have ew : s'.w = s.w := congrArg BitVec.toNat hw
  have eh : s'.h = s.h := congrArg BitVec.toNat hh
  have earea : s'.area = s.area := by rw [State.area, State.area, ew, eh]
  have hreach (x y : Int) : Reachable s' x y ↔ Reachable s x y := by
    constructor
    · exact reachable_of_weaker hw hh hsup (fun v => by rw [hlow]; exact id) (fun v => by rw [hhigh]; exact id)
    · refine reachable_of_weaker hw.symm hh.symm (fun i hi => (hsup i ?_).symm) (fun v => by rw [hlow]; exact id)
        (fun v => by rw [hhigh]; exact id)
      rwa [ew, eh] at hi
  have hvisit : ∀ i, i < s.area → t'.visit.read i = t.visit.read i := by
    intro i hi
    have hiff : t'.visit.read i = 1#1 ↔ t.visit.read i = 1#1 := by
      rw [h'.visit_iff (hi.trans_eq earea.symm), h.visit_iff hi, ew, hreach]
    rcases BitVec.eq_zero_or_eq_one (t.visit.read i) with hv | hv
    · rw [hv]
      exact (BitVec.eq_zero_or_eq_one _).resolve_right fun hv' => absurd (hv.symm.trans (hiff.1 hv')) (by decide)
    · rw [hv, hiff.2 hv]
  refine ⟨t, t', hexec, hexec', h'.sp_eq.trans h.sp_eq.symm, h'.sx_eq.trans h.sx_eq.symm, BitVec.eq_of_toNat_eq ?_,
    h'.done.trans h.done.symm, fun i hi => ⟨?_, hvisit i hi⟩⟩
  · have hy := h.sy_add_one
    have hy' := h'.sy_add_one
    omega
  · rw [h'.raster i (hi.trans_eq earea.symm), h.raster i hi, hvisit i hi]

end Sys2Proof.Proofs
end

section
/-! The commands of the lazy form (44_hysteresis_tracer_lazy.md R231, R234, R236, R238). `LSTART` and `LDROP` are one assignment each. A
request runs steps that report nothing, which move the tracer's registers alone and lower the weight `stepsLeft` while the Unvisited
pixels stay as they are, so its loop ends within `nextBound`, at a discovery or at the end of the scan. -/

open Sys2Proof Sys2Proof.Machine Sys2Proof.Statement

namespace Sys2Proof.Proofs

variable {depth m n : Nat} {s t : State}

/-- Settles O46: the visit map of `TInit` is a fill of the raster with zeros. -/
theorem lstartConstructsTheProducer : Obligations.LstartConstructsTheProducer := by
  refine ⟨rfl, fun s hready => ⟨lstartBody s, ?_, rfl, fun i hi => ?_, fun i hi => ?_⟩⟩
  · exact exec_idle_ok (i := .lstart) nofun hready.1 (traversalCheck_of_ready hready)
  · exact Mem.read_fill_lt _ _ hi
  · exact Mem.read_fill_ge _ _ hi

/-- Settles O49: `LDROP` has no check, and its pseudocode is the assignment of the statement. -/
theorem ldropDiscardsTheProducer : Obligations.LdropDiscardsTheProducer :=
  ⟨rfl, fun _ hi => exec_idle_ok (i := .ldrop) nofun hi rfl⟩

/-! ### The loop of a request -/

theorem exec_lnext_idle (hi : s.opstate = .idle) (hl : s.live = true) : exec .lnext s = lnextBody Config.stackDepth s :=
  exec_idle_ok (i := .lnext) nofun hi (if_pos hl)

theorem nextLoop_done (hp : s.phase = .done) : nextLoop depth (n + 1) s = .exhausted s := by
  rw [nextLoop, tStep_done hp]

/-- Settles O48: in `DONE` the first step of the loop is its last, and it changes nothing. -/
theorem exhaustedStaysExhausted : Obligations.ExhaustedStaysExhausted := by
  intro s hi hl hp
  rw [exec_lnext_idle hi hl, lnextBody, nextBound, nextLoop_done hp]
  rfl

/-- The two states differ in nothing but the tracer's registers. -/
def sameButRegisters (s t : State) : Prop :=
  t = { s with sp := t.sp, sx := t.sx, sy := t.sy, phase := t.phase, cx := t.cx, cy := t.cy, k := t.k }

/-- A step that reports nothing moves the tracer's registers alone. -/
theorem sameButRegisters_step (h : tStep depth s = .step t .none) : sameButRegisters s t := by
  unfold sameButRegisters
  cases tracerStep_of_tStep h with
  | skip => rw [advanceCursor_eq]
  | pass => rw [nextNeighbour_eq]
  | resume | take => rfl

theorem sameButRegisters_trans {u : State} (hu : sameButRegisters s u) (ht : sameButRegisters u t) : sameButRegisters s t := by
  unfold sameButRegisters
  rw [ht, hu]

theorem nextLoop_ne_bound (h : CursorInRange s) (hn : stepsLeft s < n + 8 * s.unvisited) : nextLoop depth n s ≠ .bound := by
  induction n generalizing s with
  | zero =>
    unfold stepsLeft at hn
    omega
  | succ n ih =>
    unfold nextLoop
    cases hs : tStep depth s with
    | step t e =>
      cases e with
      | none =>
        obtain ⟨ht, hlt⟩ := h.step hs nofun
        have hu : t.unvisited = s.unvisited := (congrArg State.unvisited (sameButRegisters_step hs) :)
        exact ih ht (by omega)
      | found | done => exact nofun
    | overflow | off => exact nofun

theorem stepsLeft_lt_nextBound (s : State) : stepsLeft s < nextBound s + 8 * s.unvisited := by
  have hpos : positionsLeft s ≤ s.h * (s.w + 1) :=
    (Nat.sub_le _ _).trans (Nat.mul_le_mul (by omega) (by omega))
  have hphase : phaseSteps s.phase s.k ≤ 7 := by
    cases s.phase <;> simp [phaseSteps]
  unfold stepsLeft nextBound
  omega

/-- A request on a stack with room yields the pixel of a discovery or reports the end of the scan; what every step that reports
nothing keeps holds before its last step. -/
theorem exec_lnext_cases (hi : s.opstate = .idle) (hl : s.live = true) (hf : Fits m s) (hm : m ≤ Config.stackDepth)
    (P : State → Prop) (keep : ∀ u v, P u → tStep Config.stackDepth u = .step v .none → P v) (hs : P s) :
    (∃ u t x y, Fits m u ∧ P u ∧ tStep Config.stackDepth u = .step t (.found x y) ∧ exec .lnext s = .next (yieldPixel x y t)) ∨
      ∃ u t, Fits m u ∧ P u ∧ tStep Config.stackDepth u = .step t .done ∧ exec .lnext s = .next (reportExhausted t) := by
  have keep' : ∀ u v, Fits m u ∧ P u → tStep Config.stackDepth u = .step v .none → Fits m v ∧ P v :=
    fun u v ⟨hu, hp⟩ hv => ⟨hu.step hv, keep u v hp hv⟩
  rw [exec_lnext_idle hi hl, lnextBody]
  rcases nextLoop_induct _ keep' (nextBound s) s ⟨hf, hs⟩ with ⟨u, t, x, y, ⟨hu, hp⟩, ht, hloop⟩ |
    ⟨u, t, ⟨hu, hp⟩, ht, hloop⟩ | ⟨u, ⟨hu, -⟩, hover, -⟩ | ⟨u, ⟨hu, -⟩, hoff, -⟩ | hbound
  · exact .inl ⟨u, t, x, y, hu, hp, ht, by rw [hloop]⟩
  · exact .inr ⟨u, t, hu, hp, ht, by rw [hloop]⟩
  · obtain ⟨v, e, hv⟩ := hu.exists_step hm
    exact nomatch hover.symm.trans hv
  · exact absurd hoff (tStep_ne_off hu.context)
  · exact absurd hbound (nextLoop_ne_bound hf.toCursorInRange (stepsLeft_lt_nextBound s))

/-! ### One request (R234) -/

theorem fits_of_producerInv (h : ProducerInv s) : Fits s.interiorCount s where
  context := h.context
  width := (dimCheck_eq_none_iff.1 h.dims).2.1
  left := h.cursorX.1
  right := h.cursorX.2
  top := h.cursorY.1
  bottom := h.cursorY.2
  finalCursor hy := congrArg BitVec.toNat (h.finalCursor hy)
  room := h.room

theorem scanInv_of_producerInv (h : ProducerInv s) : ScanInv s := ⟨h.emptyStack, fun hd => (h.scanComplete hd).ge⟩

/-- At the end of a traversal the stack is empty and the cursor has its final value (R41, R45). -/
theorem tracer_at_end (hc : CursorInRange s) (hs : ScanInv s) (hd : s.phase = .done) :
    s.sp = 0#32 ∧ s.sx = 1#16 ∧ s.sy.toNat + 1 = s.h := by
  have hy := hc.bottom.antisymm (hs.scanComplete hd)
  exact ⟨hs.emptyStack (.inr hd), BitVec.eq_of_toNat_eq (hc.finalCursor hy), hy⟩

/-- Settles O47: the visit map is as at the request until the last step, which sets the bit of the pixel yielded or ends the scan. -/
theorem lnextYieldsOrIsExhausted : Obligations.LnextYieldsOrIsExhausted := by
  refine ⟨rfl, fun s hinv hi hl => ?_⟩
  have hprod := hinv.producer (by simp [hi]) hl
  have hm : s.interiorCount ≤ Config.stackDepth := (interiorCount_le_area s).trans (dimCheck_eq_none_iff.1 hprod.dims).1
  have keep : ∀ u v, ScanInv u ∧ sameButRegisters s u → tStep Config.stackDepth u = .step v .none →
      ScanInv v ∧ sameButRegisters s v :=
    fun u v ⟨hu, hsu⟩ hv => ⟨hu.step hv, sameButRegisters_trans hsu (sameButRegisters_step hv)⟩
  rcases exec_lnext_cases hi hl (fits_of_producerInv hprod) hm _ keep ⟨scanInv_of_producerInv hprod, rfl⟩ with
    ⟨u, t, x, y, hfits, ⟨-, hsu⟩, ht, hexec⟩ | ⟨u, t, hfits, ⟨hscan, hsu⟩, ht, hexec⟩
  · have hint := hfits.toCursorInRange.interior_of_found ht
    obtain ⟨hunvisited, hvisit⟩ := (visitBitsNeverClear _ u t _ ht).1 x y rfl
    have hframe := tStep_frame ht
    have hphase := phase_of_found ht
    rw [hsu] at hint hunvisited hvisit hframe
    refine ⟨_, hexec, ?_, .inl ⟨rfl, rfl, hphase, x, y, coordWord_toNat x y, hint, hunvisited, hvisit⟩⟩
    rw [hframe]
    rfl
  · have hdone := phase_of_done ht
    obtain ⟨hsp, hsx, hsy⟩ := tracer_at_end (hfits.toCursorInRange.keep ht) (hscan.step ht) hdone
    have hvisit := (visitBitsNeverClear _ u t _ ht).2 nofun
    have hframe := tStep_frame ht
    rw [hsu] at hframe hvisit
    have hpix : t.pix = s.pix := (congrArg State.pix hframe :)
    have hh : t.h = s.h := (congrArg State.h hframe :)
    refine ⟨_, hexec, ?_, .inr ⟨rfl, rfl, hdone, hpix, hvisit, hsp, hsx, hsy.trans hh⟩⟩
    rw [hframe]
    rfl

end Sys2Proof.Proofs
end

section
/-! A suspended producer (44_hysteresis_tracer_lazy.md R240): what the host may run between requests writes `DATA`, `ADDR`, `RES` and the
samples of `MAG`, `GX`, `GY` and `OUT`; a store to `SUP` is locked (10_state.md R29), and a fault writes `FAULT` alone. -/

open Sys2Proof Sys2Proof.Machine

namespace Sys2Proof.Proofs

variable {s t : State}

/-- The two states differ in nothing but `FAULT`, `OPSTATE`, the host's registers and the samples that no traversal reads. -/
def sameButHostData (s t : State) : Prop :=
  t = { s with
    opstate := t.opstate, faultCause := t.faultCause, faultOp := t.faultOp, faultReg := t.faultReg, addr := t.addr,
    data := t.data, res := t.res, gx := t.gx, gy := t.gy, mag := t.mag, out := t.out }

/-- A store that passes its checks while a producer is live is not to `SUP` (R29, R251). -/
theorem ne_sup_of_stsCheck {sp : Space} (hl : s.live = true) (hck : stsCheck sp s = none) : sp ≠ .sup := by
  rintro rfl
  have hlocked : stsCheck .sup s = some .locked := if_pos hl
  exact nomatch hck.symm.trans hlocked

theorem sameButHostData_store {sp : Space} (hsp : sp ≠ .sup) (inc : Bool) (n : Nat) (v : Word) :
    sameButHostData s (postIncrement inc (memWrite sp n v s)) := by
  rw [postIncrement_eq]
  cases sp with
  | sup => exact absurd rfl hsp
  | gx | gy | mag | out | visit | stack => rfl

/-- Settles O50: a failed check writes `FAULT` alone, and each pseudocode writes the host's data alone. -/
theorem suspendedProducerIsUntouched : Obligations.SuspendedProducerIsUntouched := by
  intro s t i hi hl hx hcmd
  have hn : i ≠ .srst := by
    rintro rfl
    simp at hcmd
  suffices h : sameButHostData s t by
    rw [h]
    exact ⟨⟨rfl, rfl, rfl, rfl, rfl, rfl, rfl, rfl, rfl, rfl, rfl, rfl, rfl, rfl⟩, rfl, rfl, rfl, rfl⟩
  cases hck : issueFault i s with
  | some c =>
    cases (exec_idle_fault hn hi hck).symm.trans hx
    rfl
  | none =>
    have hb := (exec_idle_ok hn hi hck).symm.trans hx
    cases i with
    | nop | hypot | hypq | dirq =>
      cases hb
      rfl
    | lds sp inc =>
      cases hb
      rw [postIncrement_eq]
      rfl
    | sts sp inc =>
      cases hb
      exact sameButHostData_store (ne_sup_of_stsCheck hl hck) inc _ _
    | nms | trace | lstart | lnext | ldrop | srst => simp at hcmd

end Sys2Proof.Proofs
end

section
/-! The eager and the lazy form are one traversal (44_hysteresis_tracer_lazy.md R242). `Traversal` is a run of the tracer from a state to
its end, with the pixels discovered on the way; the step reads none of `OUT`, `PIX` and the flags, so both commands' loops follow the same
run, and each pixel of the run is discovered once. -/

open Sys2Proof Sys2Proof.Machine Sys2Proof.Statement

namespace Sys2Proof.Proofs

variable {depth i m n : Nat} {s t u : State} {e : Event} {x y : Half} {ps : List (Half × Half)}

/-! ### What the step does not read -/

/-- The tracer of `s` with the outputs of `o`: `OUT`, `PIX` and the flags. -/
def withOutputs (o s : State) : State :=
  { s with out := o.out, pix := o.pix, live := o.live, valid := o.valid, exhausted := o.exhausted }

theorem advanceCursor_withOutputs (o s : State) : advanceCursor (withOutputs o s) = withOutputs o (advanceCursor s) := by
  rw [advanceCursor, advanceCursor, apply_ite (withOutputs o)]
  rfl

theorem nextNeighbour_withOutputs (o s : State) : nextNeighbour (withOutputs o s) = withOutputs o (nextNeighbour s) := by
  rw [nextNeighbour, nextNeighbour, apply_ite (withOutputs o)]
  rfl

/-- The converse of `tracerStep_of_tStep`. -/
theorem tStep_of_tracerStep (h : TracerStep depth s t e) : tStep depth s = .step t e := by
  cases h with
  | stay hp => exact tStep_done hp
  | finish hp hy => exact tStep_scan_complete hp hy
  | skip hp hy hq => rw [tStep_scan hp hy, hq]; rfl
  | seed hp hy hq room =>
    rw [tStep_scan hp hy, if_pos hq]
    exact discover_room ((advanceCursor_sp s).symm ▸ room)
  | resume hp hz => exact tStep_pop_empty hp hz
  | take hp hz => exact tStep_pop_some hp hz
  | pass hp hq => exact tStep_expand_pass hp fun hn => absurd (hq.symm.trans (neighbourQualifies_iff.1 hn)) (by decide)
  | spread x y hp hx hy hi hq room =>
    have hn : neighbourQualifies s := by
      rw [neighbourQualifies_iff, ← hx, ← hy, hi]
      exact hq
    rw [tStep_expand_discover hp hn, ← hx, ← hy]
    simp only [Int.toNat_natCast, BitVec.ofNat_toNat, BitVec.setWidth_eq]
    exact discover_room ((nextNeighbour_sp s).symm ▸ room)

theorem tStep_withOutputs (o : State) (h : tStep depth s = .step t e) :
    tStep depth (withOutputs o s) = .step (withOutputs o t) e := by
  refine tStep_of_tracerStep ?_
  cases tracerStep_of_tStep h with
  | stay hp => exact .stay hp
  | finish hp hy => exact .finish hp hy
  | skip hp hy hq => exact advanceCursor_withOutputs o s ▸ .skip hp hy hq
  | seed hp hy hq room =>
    have hs := TracerStep.seed (s := withOutputs o s) hp hy hq room
    rwa [advanceCursor_withOutputs] at hs
  | resume hp hz => exact .resume hp hz
  | take hp hz => exact .take hp hz
  | pass hp hq => exact nextNeighbour_withOutputs o s ▸ .pass hp hq
  | spread x y hp hx hy hi hq room =>
    have hs := TracerStep.spread (s := withOutputs o s) x y hp hx hy hi hq room
    rwa [nextNeighbour_withOutputs] at hs

/-! ### Whole traversals -/

/-- From the first state the tracer discovers these pixels, in order, and ends in the last one. -/
inductive Traversal (depth : Nat) : State → List (Half × Half) → State → Prop
  | quiet {s t u : State} {ps : List (Half × Half)} (hs : tStep depth s = .step t .none) (ht : Traversal depth t ps u) :
      Traversal depth s ps u
  | found {s t u : State} {x y : Half} {ps : List (Half × Half)} (hs : tStep depth s = .step t (.found x y))
      (ht : Traversal depth t ps u) : Traversal depth s ((x, y) :: ps) u
  | done {s t : State} (hs : tStep depth s = .step t .done) : Traversal depth s [] t

theorem Fits.exists_traversal (h : Fits m s) (hm : m ≤ depth) : ∃ ps u, Traversal depth s ps u := by
  induction hn : stepsLeft s using Nat.strong_induction_on generalizing s with
  | _ n ih =>
    obtain ⟨t, e, hs⟩ := h.exists_step hm
    cases e with
    | done => exact ⟨[], t, .done hs⟩
    | none =>
      obtain ⟨ps, u, ht⟩ := ih _ (hn ▸ (h.toCursorInRange.step hs nofun).2) (h.step hs) rfl
      exact ⟨ps, u, .quiet hs ht⟩
    | found x y =>
      obtain ⟨ps, u, ht⟩ := ih _ (hn ▸ (h.toCursorInRange.step hs nofun).2) (h.step hs) rfl
      exact ⟨(x, y) :: ps, u, .found hs ht⟩

theorem unvisited_found (h : CursorInRange s) (hs : tStep depth s = .step t (.found x y)) : t.unvisited + 1 = s.unvisited := by
  have hi := h.interior_of_found hs
  cases tracerStep_of_tStep hs with
  | seed hp hy hq =>
    rw [← unvisited_advanceCursor s]
    exact unvisited_markAndPush (s := inPhase .pop (advanceCursor s)) ((advanceCursor_interior s _ _).trans hi)
      (by simpa using qualifies_unvisited hq)
  | spread _ _ _ _ _ _ hq =>
    rw [← unvisited_nextNeighbour s]
    exact unvisited_markAndPush (by simpa using hi) (by simpa using qualifies_unvisited hq)

/-- Fuel above the weight is left for the rest of the traversal. -/
theorem CursorInRange.step_fuel (h : CursorInRange s) (hs : tStep depth s = .step t e) (he : e ≠ .done) (hn : stepsLeft s < n) :
    ∃ k, n = k + 1 ∧ CursorInRange t ∧ stepsLeft t < k := by
  obtain ⟨ht, hlt⟩ := h.step hs he
  exact ⟨n - 1, by omega, ht, by omega⟩

theorem unvisited_quiet (hs : tStep depth s = .step t .none) : t.unvisited = s.unvisited :=
  (congrArg State.unvisited (sameButRegisters_step hs) :)

theorem idx_step (hs : tStep depth s = .step t e) (a b : Nat) : t.idx a b = s.idx a b :=
  (congrArg (State.idx · a b) (tStep_frame hs) :)

theorem interior_step (hs : tStep depth s = .step t e) (a b : Int) : t.interior a b = s.interior a b :=
  (congrArg (State.interior · a b) (tStep_frame hs) :)

namespace Traversal

variable (h : Traversal depth s ps u)
include h

theorem withOutputs (o : State) : Traversal depth (Proofs.withOutputs o s) ps (Proofs.withOutputs o u) := by
  induction h with
  | quiet hs _ ih => exact .quiet (tStep_withOutputs o hs) ih
  | found hs _ ih => exact .found (tStep_withOutputs o hs) ih
  | done hs => exact .done (tStep_withOutputs o hs)

/-! ### The pixels of a traversal -/

/-- Only interior pixels are discovered. -/
theorem interior (hc : CursorInRange s) : ∀ p ∈ ps, s.interior p.1.toNat p.2.toNat = true := by
  induction h with
  | quiet hs _ ih => exact fun p hp => (interior_step hs _ _).symm.trans (ih (hc.keep hs) p hp)
  | found hs _ ih =>
    exact List.forall_mem_cons.2
      ⟨hc.interior_of_found hs, fun p hp => (interior_step hs _ _).symm.trans (ih (hc.keep hs) p hp)⟩
  | done => exact nofun

/-- Each discovery takes one of the Unvisited pixels. -/
theorem length_le_unvisited (hc : CursorInRange s) : ps.length ≤ s.unvisited := by
  induction h with
  | quiet hs _ ih => exact (ih (hc.keep hs)).trans_eq (unvisited_quiet hs)
  | found hs _ ih => exact (Nat.succ_le_succ (ih (hc.keep hs))).trans_eq (unvisited_found hc hs)
  | done => exact Nat.zero_le _

/-- A pixel discovered was Unvisited until then, so none is discovered twice. -/
theorem unvisited_nodup : (∀ p ∈ ps, s.visit.read (s.idx p.1.toNat p.2.toNat) = 0#1) ∧ ps.Nodup := by
  induction h with
  | quiet hs _ ih =>
    have hv := (visitBitsNeverClear _ _ _ _ hs).2 nofun
    simpa only [hv, idx_step hs] using ih
  | @found s t u x y ps hs _ ih =>
    obtain ⟨hunvisited, hv⟩ := (visitBitsNeverClear _ _ _ _ hs).1 x y rfl
    simp only [idx_step hs, hv] at ih
    obtain ⟨hrest, hnodup⟩ := ih
    have hne : ∀ p ∈ ps, s.idx p.1.toNat p.2.toNat ≠ s.idx x.toNat y.toNat := by
      intro p hp he
      exact absurd ((if_pos he).symm.trans (hrest p hp)) (by decide)
    refine ⟨List.forall_mem_cons.2 ⟨hunvisited, fun p hp => ?_⟩, List.nodup_cons.2 ⟨fun hp => hne _ hp rfl, hnodup⟩⟩
    exact (if_neg (hne p hp)).symm.trans (hrest p hp)
  | done => exact ⟨nofun, List.nodup_nil⟩

/-- The visit bits set at the end are those set at the start and those of the pixels discovered. -/
theorem visit_iff : u.visit.read i = 1#1 ↔ s.visit.read i = 1#1 ∨ ∃ p ∈ ps, i = s.idx p.1.toNat p.2.toNat := by
  induction h with
  | quiet hs _ ih =>
    have hv := (visitBitsNeverClear _ _ _ _ hs).2 nofun
    simpa only [hv, idx_step hs] using ih
  | @found s t u x y ps hs _ ih =>
    have hv := ((visitBitsNeverClear _ _ _ _ hs).1 x y rfl).2 i
    rw [ih, hv, List.exists_mem_cons_iff]
    simp only [idx_step hs]
    split
    · next he => simp [he]
    · next he => simp [he]
  | done hs => simp [(visitBitsNeverClear _ _ _ _ hs).2 nofun]

/-! ### The loops of the two forms -/

theorem discoveries_eq (hc : CursorInRange s) (hn : stepsLeft s < n) : discoveries depth n s = ps := by
  induction h generalizing n with
  | quiet hs _ ih =>
    obtain ⟨n, rfl, ht, hlt⟩ := hc.step_fuel hs nofun hn
    rw [discoveries, hs]
    exact ih ht hlt
  | @found s t u x y ps hs _ ih =>
    obtain ⟨n, rfl, ht, hlt⟩ := hc.step_fuel hs nofun hn
    rw [discoveries, hs]
    exact congrArg ((x, y) :: ·) (ih ht hlt)
  | done hs =>
    obtain ⟨n, rfl⟩ := Nat.exists_eq_add_one.2 (Nat.zero_lt_of_lt hn)
    rw [discoveries, hs]

/-- `TRACE`'s loop follows the traversal, whatever it has written to `OUT`. -/
theorem traceLoop_eq (hc : CursorInRange s) (hn : stepsLeft s < n) (o : State) :
    ∃ o', traceLoop depth n (Proofs.withOutputs o s) = .done (Proofs.withOutputs o' u) := by
  induction h generalizing n o with
  | quiet hs _ ih =>
    obtain ⟨n, rfl, ht, hlt⟩ := hc.step_fuel hs nofun hn
    rw [traceLoop, tStep_withOutputs o hs]
    exact ih ht hlt o
  | @found s t u x y ps hs _ ih =>
    obtain ⟨n, rfl, ht, hlt⟩ := hc.step_fuel hs nofun hn
    rw [traceLoop, tStep_withOutputs o hs]
    exact ih ht hlt (writeForeground x y (Proofs.withOutputs o t))
  | done hs =>
    obtain ⟨n, rfl⟩ := Nat.exists_eq_add_one.2 (Nat.zero_lt_of_lt hn)
    rw [traceLoop, tStep_withOutputs o hs]
    exact ⟨o, rfl⟩

end Traversal

/-! ### The first step of a traversal -/

theorem Traversal.of_quiet (h : Traversal depth s ps u) (hs : tStep depth s = .step t .none) : Traversal depth t ps u := by
  cases h with
  | quiet hs' ht => cases hs.symm.trans hs'; exact ht
  | found hs' | done hs' => cases hs.symm.trans hs'

theorem Traversal.of_found (h : Traversal depth s ps u) (hs : tStep depth s = .step t (.found x y)) :
    ∃ qs, ps = (x, y) :: qs ∧ Traversal depth t qs u := by
  cases h with
  | found hs' ht => cases hs.symm.trans hs'; exact ⟨_, rfl, ht⟩
  | quiet hs' | done hs' => cases hs.symm.trans hs'

theorem Traversal.of_done (h : Traversal depth s ps u) (hs : tStep depth s = .step t .done) : ps = [] ∧ t = u := by
  cases h with
  | done hs' => cases hs.symm.trans hs'; exact ⟨rfl, rfl⟩
  | quiet hs' | found hs' => cases hs.symm.trans hs'

/-! ### The requests -/

/-- The requests of a consumer follow the traversal, each to its next discovery. -/
theorem requests_eq (h : Traversal Config.stackDepth s ps u) (hi : s.opstate = .idle) (hl : s.live = true) (hf : Fits m s)
    (hm : m ≤ Config.stackDepth) (hn : ps.length < n) :
    ∃ o, requests n s = some (ps.map fun p => coordWord p.1 p.2, withOutputs o u) := by
  induction n generalizing s ps u with
  | zero => exact absurd hn (Nat.not_lt_zero _)
  | succ n ih =>
    have keep : ∀ v w, Traversal Config.stackDepth v ps u ∧ sameButRegisters s v → tStep Config.stackDepth v = .step w .none →
        Traversal Config.stackDepth w ps u ∧ sameButRegisters s w :=
      fun v w ⟨hv, hsv⟩ hw => ⟨hv.of_quiet hw, sameButRegisters_trans hsv (sameButRegisters_step hw)⟩
    rcases exec_lnext_cases hi hl hf hm _ keep ⟨h, rfl⟩ with
      ⟨v, t, x, y, hfits, ⟨hv, hsv⟩, ht, hexec⟩ | ⟨v, t, -, ⟨hv, -⟩, ht, hexec⟩
    · obtain ⟨qs, rfl, hqs⟩ := hv.of_found ht
      have hframe := tStep_frame ht
      rw [hsv] at hframe
      have hi' : t.opstate = .idle := (congrArg State.opstate hframe).trans hi
      have hl' : t.live = true := (congrArg State.live hframe).trans hl
      obtain ⟨o, hreq⟩ := ih (s := yieldPixel x y t) (hqs.withOutputs (yieldPixel x y t)) hi' hl' { hfits.step ht with }
        (Nat.lt_of_succ_lt_succ hn)
      refine ⟨o, ?_⟩
      rw [requests, hexec]
      simp only [yieldPixel_exhausted, hreq]
      rfl
    · obtain ⟨rfl, rfl⟩ := hv.of_done ht
      refine ⟨reportExhausted t, ?_⟩
      rw [requests, hexec]
      rfl

/-! ### Eager and lazy -/

theorem coordWord_injective : Function.Injective fun p : Half × Half => coordWord p.1 p.2 := fun p q h =>
  Prod.ext (by simpa using congrArg coordX h) (by simpa using congrArg coordY h)

/-- From the start the visit bits of the raster are those of the pixels discovered. -/
theorem Traversal.visit_start_iff (h : Traversal depth (traceStart s) ps u) (hc : CursorInRange (traceStart s))
    (hx : x.toNat < s.w) (hy : y.toNat < s.h) : u.visit.read (s.idx x.toNat y.toNat) = 1#1 ↔ (x, y) ∈ ps := by
  have hzero : (traceStart s).visit.read (s.idx x.toNat y.toNat) ≠ 1#1 := by
    rw [traceStart_visit_read (idx_lt_area hx hy)]
    decide
  rw [h.visit_iff, or_iff_right hzero]
  refine ⟨fun ⟨p, hp, he⟩ => ?_, fun hp => ⟨_, hp, rfl⟩⟩
  have hi : s.interior x.toNat y.toNat = true := by
    by_contra hb
    exact idx_ne_of_border hx (by simpa using hb) (h.interior hc p hp) he
  obtain ⟨ex, ey⟩ := idx_inj_of_interior hi (h.interior hc p hp) he
  have hp' : (x, y) = p := Prod.ext (BitVec.eq_of_toNat_eq (Int.ofNat.inj ex)) (BitVec.eq_of_toNat_eq (Int.ofNat.inj ey))
  rwa [hp']

/-- Settles O51: `TRACE` and the requests follow one traversal from the start, and end in its last state. -/
theorem lazyAndEagerAgree : Obligations.LazyAndEagerAgree := by
  intro s hready
  have hck := traversalCheck_of_ready hready
  obtain ⟨t, hexec, hresult⟩ := exec_trace_completes hready
  obtain ⟨hi, -, -, hcap, hw, hh⟩ := hready
  have hm : s.interiorCount ≤ Config.stackDepth := (interiorCount_le_area s).trans hcap
  have hstart := (traceStart_tracerInv hw hh).fits
  have hc := hstart.toCursorInRange
  obtain ⟨ps, u, h⟩ := hstart.exists_traversal hm
  have hlen : ps.length ≤ s.interiorCount :=
    (h.length_le_unvisited hc).trans (unvisited_le_interiorCount (traceStart s))
  obtain ⟨o, ht⟩ := h.traceLoop_eq hc (stepsLeft_traceStart_lt s) (traceStart s)
  have htu : t = withOutputs o u := by
    have hbody : exec .trace s = traceBody Config.stackDepth s := exec_idle_ok (i := .trace) nofun hi hck
    exact Host.Outcome.next.inj (hexec.symm.trans (hbody.trans (traceBody_of_done ht)))
  obtain ⟨o', hreq⟩ := requests_eq (s := lstartBody s) (h.withOutputs (lstartBody s)) hi rfl { hstart with } hm
    (Nat.lt_succ_of_le hlen)
  refine ⟨t, lstartBody s, _, _, hexec, exec_idle_ok (i := .lstart) nofun hi hck, hreq, ?_, ?_, ?_, ?_, ?_, ?_⟩
  · rw [h.discoveries_eq hc (stepsLeft_traceStart_lt s)]
  · exact h.unvisited_nodup.2.map coordWord_injective
  · rwa [List.length_map]
  · intro x y hx hy
    refine (hresult.raster _ (idx_lt_area hx hy)).trans (if_congr ?_ rfl rfl)
    rw [htu]
    exact (h.visit_start_iff hc hx hy).trans (List.mem_map_of_injective coordWord_injective (a := (x, y))).symm
  · rw [List.forall_mem_map]
    intro p hp
    rw [coordX_coordWord, coordY_coordWord]
    exact h.interior hc p hp
  · have hsy : t.sy.toNat = s.h - 1 := Nat.eq_sub_of_add_eq hresult.sy_add_one
    have hsp := hresult.sp_eq
    have hsx := hresult.sx_eq
    rw [htu] at hsp hsx hsy ⊢
    exact ⟨fun _ _ => rfl, hsp, hsp, hsx, hsx, hsy, rfl⟩

end Sys2Proof.Proofs
end

section
/-! Register reads and the system commands (45_host_access_and_system.md R255, R260, R262): what each `OPSTATE` makes of a read, the soft
reset as one reset of the registers over at most an abandoned command's spaces (70_reset_and_hazards.md R321), and a command that comes
when the block is not idle. -/

open Sys2Proof Sys2Proof.Machine

namespace Sys2Proof.Proofs

variable {s : State} {i : Instr} {n : Byte} {v : Word} {rest : List Input}

/-! ### Reads (R255) -/

theorem step_read (ht : s.takes (.read n) rest) : step s = .next (readRegister n (takeInput rest s)) := step_takes ht

theorem regValue_takeInput (n : Byte) (rest : List Input) (s : State) : regValue n (takeInput rest s) = regValue n s := rfl

theorem readableWhenBusy_iff (n : Byte) : readableWhenBusy n = true ↔ n ∈ [0x00#8, 0x02#8, 0x03#8] := by
  simp [readableWhenBusy, or_assoc]

theorem readRegister_not_busy_some (hb : s.busyFlag = false) (hv : regValue n s = some v) :
    readRegister n s = returnValue v s := by
  cases ho : s.opstate with
  | busy i => simp [State.busyFlag, ho] at hb
  | idle | faulted => simp only [readRegister, ho, hv]

theorem readRegister_idle_none (hi : s.opstate = .idle) (hv : regValue n s = none) :
    readRegister n s = faultedWith .badAccess 0#8 n (returnFree s) := by
  simp only [readRegister, hi, hv]
  exact raiseFault_idle (s := returnFree s) hi _ _ _

theorem readRegister_faulted_none (hf : s.opstate = .faulted) (hv : regValue n s = none) : readRegister n s = returnFree s := by
  simp only [readRegister, hf, hv]

/-- The three registers that can be read while a command runs are among the readable ones. -/
theorem readRegister_busy_allowed (hb : s.opstate = .busy i) (hn : n ∈ [0x00#8, 0x02#8, 0x03#8]) :
    ∃ v, regValue n s = some v ∧ readRegister n s = returnValue v s := by
  have hr := (readableWhenBusy_iff n).2 hn
  have hv : regValue n s ≠ none := by
    rw [Ne, regValue_eq_none_iff]
    simp only [List.mem_cons, List.not_mem_nil, or_false] at hn
    rcases hn with rfl | rfl | rfl <;> decide
  obtain ⟨v, hv⟩ := Option.ne_none_iff_exists'.1 hv
  exact ⟨v, hv, by simp only [readRegister, hb, hr, if_true, hv]⟩

theorem readRegister_busy_violation (hb : s.opstate = .busy i) (hn : n ∉ [0x00#8, 0x02#8, 0x03#8]) :
    readRegister n s = faultedWith .busyViolation (opcodeOf i) n (abandon i (returnFree s)) := by
  have hr : ¬ readableWhenBusy n = true := mt (readableWhenBusy_iff n).1 hn
  simp only [readRegister, hb, if_neg hr]
  exact busyViolation_eq (s := returnFree s) hb n

/-- Settles O9, by what the operating state makes of the read. -/
theorem registerReadTransactions : Obligations.RegisterReadTransactions := by
  intro s n rest ht
  rw [step_read ht, ← regValue_takeInput n rest s]
  have hvalue (hb : s.busyFlag = false) (v : Word) (hv : regValue n (takeInput rest s) = some v) :
      readRegister n (takeInput rest s) = { takeInput rest s with lastRead := some v } :=
    readRegister_not_busy_some (s := takeInput rest s) hb hv
  refine ⟨fun hi v hv => ?_, fun hi hv => ?_, fun i hb hn => ?_, fun i hb hn => ?_, fun hf v hv => ?_, fun hf hv => ?_⟩
  · rw [hvalue (by rw [State.busyFlag, hi]) v hv]
  · exact ⟨_, rfl, by rw [readRegister_idle_none (s := takeInput rest s) hi hv]; rfl⟩
  · obtain ⟨v, hv, hread⟩ := readRegister_busy_allowed (s := takeInput rest s) hb hn
    exact ⟨v, hv, congrArg Host.Outcome.next hread⟩
  · rw [readRegister_busy_violation (s := takeInput rest s) hb hn]
    exact ⟨_, rfl, rfl, rfl, rfl, rfl⟩
  · rw [hvalue (by rw [State.busyFlag, hf]) v hv]
  · exact ⟨_, rfl, by rw [readRegister_faulted_none (s := takeInput rest s) hf hv]; rfl⟩

/-! ### The soft reset (R262, R321) -/

/-- The table of R320. -/
theorem resetRegisters_atReset (s : State) : (resetRegisters s).atReset := by
  simp [State.atReset, statusWord, faultWord, State.busyFlag, State.faultedFlag, causeCode]

theorem sameSpace_refl (sp : Space) (s : State) : sameSpace sp s s := by
  cases sp <;> rfl

theorem sameSpace_resetRegisters {sp : Space} {t : State} (h : sameSpace sp s t) : sameSpace sp s (resetRegisters t) := by
  cases sp <;> exact h

/-- All that the soft reset can do. -/
theorem softReset_cases (s : State) :
    (∃ i, s.opstate = .busy i ∧ softReset s = resetRegisters (abandonSpaces i s)) ∨
      (s.busyFlag = false ∧ softReset s = resetRegisters s) := by
  cases ho : s.opstate with
  | busy i => exact .inl ⟨i, rfl, by simp only [softReset, ho]⟩
  | idle | faulted => exact .inr ⟨by simp only [State.busyFlag, ho], by simp only [softReset, ho]⟩

theorem softReset_atReset (s : State) : (softReset s).atReset := by
  rcases softReset_cases s with ⟨i, -, h⟩ | ⟨-, h⟩ <;> rw [h] <;> exact resetRegisters_atReset _

/-- The soft reset writes no sample: only what an abandoned command was writing is lost. -/
theorem softReset_same {sp : Space} (h : ∀ i, s.opstate = .busy i → writesSpace i sp = false) : sameSpace sp s (softReset s) := by
  rcases softReset_cases s with ⟨i, hb, hr⟩ | ⟨-, hr⟩ <;> rw [hr]
  · exact sameSpace_resetRegisters (abandonSpaces_same (h i hb) s)
  · exact sameSpace_resetRegisters (sameSpace_refl sp s)

/-- Settles O19: the registers are those of the reset table, and the word of `SRST` is tried before `OPSTATE`. -/
theorem softResetKeepsMemory : Obligations.SoftResetKeepsMemory := by
  refine ⟨fun s => ⟨softReset s, exec_srst s, softReset_atReset s, fun sp h => softReset_same h⟩, fun s rest ht => ?_⟩
  rw [step_writeCmd ht]
  exact if_pos rfl

/-! ### A command when the block is not idle (R284, R292), and `NOP` (R260) -/

theorem exec_faulted (hn : i ≠ .srst) (hf : s.opstate = .faulted) : exec i s = .next s := by
  rw [exec_eq_issue hn, issue_faulted hf]

theorem exec_busy {j : Instr} (hn : i ≠ .srst) (hb : s.opstate = .busy j) :
    exec i s = .next (faultedWith .busyViolation (opcodeOf j) 0x01#8 (abandon j s)) := by
  rw [exec_eq_issue hn, issue_busy hb, busyViolation_eq hb]

theorem statusWord_accept (i : Instr) (s : State) : (statusWord (accept i s)).getLsbD 0 = true := by
  rw [(statusWord_bits _).1, busyFlag_iff]
  exact ⟨i, rfl⟩

/-- Settles O20: `NOP` has no check and its pseudocode is empty, and an accepted command completes as the one run at once does. -/
theorem nopChangesNothing : Obligations.NopChangesNothing := by
  have hidle : ∀ s : State, s.opstate = .idle → exec .nop s = .next s := fun _ hi => exec_idle_ok (i := .nop) nofun hi rfl
  refine ⟨rfl, fun s hi => ⟨hidle s hi, statusWord_accept .nop s, fun hq => ?_⟩, fun s hf => exec_faulted nofun hf,
    fun s i hb => ⟨_, exec_busy nofun hb, rfl, rfl, rfl, rfl⟩⟩
  rw [busyIntervalEndsInCompletion.2.1 s .nop hi hq, hidle s hi]

end Sys2Proof.Proofs
end

section
/-! The fault recorded at the issue of a command (60_exceptions.md R285 to R290, R295): which check gives which cause, and that the
pseudocode of a command that passes its checks records nothing but `STACK_OVF`. -/

open Sys2Proof Sys2Proof.Machine

namespace Sys2Proof.Proofs

variable {depth n : Nat} {s t : State} {i : Instr} {c : Cause}

/-! ### The checks -/

theorem traversalCheck_of_live (hl : s.live = true) : traversalCheck s = some .locked := if_pos hl

/-- With valid thresholds and no producer only the dimensions are checked. -/
theorem traversalCheck_of_valid (hl : s.live = false) (ht : thresholdsValid s = true) : traversalCheck s = dimCheck s := by
  simp [traversalCheck, hl, ht]

theorem lnextCheck_of_not_live (hl : s.live = false) : lnextCheck s = some .noProducer := by
  simp [lnextCheck, hl]

theorem stsCheck_sup_of_live (hl : s.live = true) : stsCheck .sup s = some .locked := if_pos hl

/-- `TRACE` and `LSTART` share their checks (R215, R231). -/
theorem exec_traversal_fault (hi : s.opstate = .idle) (hck : traversalCheck s = some c) :
    exec .trace s = .next (faultedWith c 0x03#8 0#8 s) ∧ exec .lstart s = .next (faultedWith c 0x04#8 0#8 s) :=
  ⟨exec_idle_fault (i := .trace) nofun hi hck, exec_idle_fault (i := .lstart) nofun hi hck⟩

/-- Settles O11: under the conditions of each clause the check gives its cause, and `HYPOT` on a raster that fits has no cause. -/
theorem issueTimeFaults : Obligations.IssueTimeFaults := by
  refine fun s hi => ⟨fun hbig => ?_, fun hl hbig => ?_, fun hl hfits hsmall => ?_, fun hl ht => ?_, fun hl ht hbig => ?_,
    fun hl ht hfits hsmall => ?_, fun hl => ?_, fun hfits => ?_⟩
  · exact exec_idle_fault (i := .hypot) nofun hi (hypotCheck_of_tooLarge hbig)
  · exact exec_idle_fault (i := .nms) nofun hi ((nmsCheck_of_not_live hl).trans (dimCheck_of_tooLarge hbig))
  · exact exec_idle_fault (i := .nms) nofun hi ((nmsCheck_of_not_live hl).trans (dimCheck_of_tooSmall hfits hsmall))
  · exact exec_traversal_fault hi (traversalCheck_of_invalid hl ht)
  · exact exec_traversal_fault hi ((traversalCheck_of_valid hl ht).trans (dimCheck_of_tooLarge hbig))
  · exact exec_traversal_fault hi ((traversalCheck_of_valid hl ht).trans (dimCheck_of_tooSmall hfits hsmall))
  · exact exec_idle_fault (i := .lnext) nofun hi (lnextCheck_of_not_live hl)
  · exact ⟨_, exec_idle_ok (i := .hypot) nofun hi (hypotCheck_of_fits hfits), hi⟩

/-! ### What the pseudocode records -/

/-- The operating state and the recorded cause are the same in both states. -/
def recordsNoFault (s t : State) : Prop := t.opstate = s.opstate ∧ t.faultCause = s.faultCause

theorem recordsNoFault_trans {u : State} (hu : recordsNoFault s u) (ht : recordsNoFault u t) : recordsNoFault s t :=
  ⟨ht.1.trans hu.1, ht.2.trans hu.2⟩

/-- `STACK_OVF` in `IDLE` is recorded over what the traversal was writing (R293). -/
theorem stackOverflow_idle (hi : s.opstate = .idle) (i : Instr) : stackOverflow i s =
    faultedWith .stackOvf (opcodeOf i) 0#8 (forgetPix (forgetTracer (abandonSpaces i s))) := by
  refine raiseFault_idle ?_ _ _ _
  rw [abandonSpaces_eq]
  exact hi

theorem recordsNoFault_tStep {e : Event} (h : tStep depth s = .step t e) : recordsNoFault s t := by
  rw [tStep_frame h]
  exact ⟨rfl, rfl⟩

/-- `TRACE` ends where its loop does, or overflows (R215). -/
theorem traceBody_records (hb : traceBody depth s = .next t) : recordsNoFault s t ∨
    traceLoop depth (traceBound s) (traceStart s) = .overflow ∧ t = stackOverflow .trace s := by
  have keep : ∀ u v e, recordsNoFault s u → tStep depth u = .step v e → recordsNoFault s v :=
    fun u v e hu hv => recordsNoFault_trans hu (recordsNoFault_tStep hv)
  rcases traceLoop_induct (recordsNoFault s) (fun u v => keep u v .none) (fun u v x y => keep u v (.found x y)) (traceBound s)
    (traceStart s) ⟨rfl, rfl⟩ with ⟨u, v, hu, hv, hl⟩ | ⟨-, -, -, hl⟩ | ⟨-, -, -, hl⟩ | hl <;>
    simp only [traceBody, hl, Host.Outcome.next.injEq, reduceCtorEq] at hb <;> subst hb
  · exact .inl (keep u v .done hu hv)
  · exact .inr ⟨hl, rfl⟩

/-- A request ends where its loop does, or overflows (R234). -/
theorem lnextBody_records (hb : lnextBody depth s = .next t) : recordsNoFault s t ∨
    nextLoop depth (nextBound s) s = .overflow ∧ t = stackOverflow .lnext s := by
  have keep : ∀ u v e, recordsNoFault s u → tStep depth u = .step v e → recordsNoFault s v :=
    fun u v e hu hv => recordsNoFault_trans hu (recordsNoFault_tStep hv)
  rcases nextLoop_induct (recordsNoFault s) (fun u v => keep u v .none) (nextBound s) s ⟨rfl, rfl⟩ with
    ⟨u, v, x, y, hu, hv, hl⟩ | ⟨u, v, hu, hv, hl⟩ | ⟨-, -, -, hl⟩ | ⟨-, -, -, hl⟩ | hl <;>
    simp only [lnextBody, hl, Host.Outcome.next.injEq, reduceCtorEq] at hb <;> subst hb
  · exact .inl (keep u v _ hu hv)
  · exact .inl (keep u v _ hu hv)
  · exact .inr ⟨hl, rfl⟩

/-- A command that has passed its checks records no fault but `STACK_OVF` (R104, R290). -/
theorem commandBody_records (hn : i ≠ .srst) (hb : commandBody i s = .next t) :
    recordsNoFault s t ∨ t = stackOverflow i s := by
  cases i with
  | trace => exact (traceBody_records hb).imp_right And.right
  | lnext => exact (lnextBody_records hb).imp_right And.right
  | nop | hypot | nms | lstart | ldrop | hypq | dirq =>
    cases hb
    exact .inl ⟨rfl, rfl⟩
  | lds sp inc =>
    cases hb
    rw [postIncrement_eq]
    exact .inl ⟨rfl, rfl⟩
  | sts sp inc =>
    cases hb
    rw [postIncrement_eq, sameProducer_memWrite]
    exact .inl ⟨memWrite_opstate sp _ _ s, rfl⟩
  | srst => exact absurd rfl hn

/-- Settles O13: a check that fails is recorded at once, and the pseudocode leaves `IDLE` by `STACK_OVF` only. -/
theorem issueFaultsArePrecise : Obligations.IssueFaultsArePrecise := by
  refine fun s i hi => ⟨fun c hck => ?_, fun hck t hx => ?_⟩
  · have hn : i ≠ .srst := by
      rintro rfl
      cases hck
    exact exec_idle_fault hn hi hck
  · by_cases hn : i = .srst
    · subst hn
      cases hx
      exact .inl (softReset_atReset s).1
    rw [exec_idle_ok hn hi hck] at hx
    rcases commandBody_records hn hx with ⟨ho, -⟩ | rfl
    · exact .inl (ho.trans hi)
    · rw [stackOverflow_idle hi]
      exact .inr rfl

/-! ### The producer lock (R285) -/

theorem dimCheck_ne_locked (s : State) : dimCheck s ≠ some .locked := by
  unfold dimCheck
  split
  · simp
  · split <;> simp

/-- Only a live producer locks the start of a traversal. -/
theorem live_of_traversalCheck (h : traversalCheck s = some .locked) : s.live = true := by
  by_contra hl
  rw [Bool.not_eq_true] at hl
  cases ht : thresholdsValid s with
  | true => exact dimCheck_ne_locked s ((traversalCheck_of_valid hl ht).symm.trans h)
  | false => exact nomatch (traversalCheck_of_invalid hl ht).symm.trans h

theorem live_of_nmsCheck (h : nmsCheck s = some .locked) : s.live = true := by
  by_contra hl
  rw [Bool.not_eq_true] at hl
  exact dimCheck_ne_locked s ((nmsCheck_of_not_live hl).symm.trans h)

theorem ldsCheck_ne_locked (sp : Space) (s : State) : ldsCheck sp s ≠ some .locked := by
  unfold ldsCheck
  split <;> simp

/-- Only the store to `SUP` is locked, and only by a live producer. -/
theorem sup_live_of_stsCheck {sp : Space} (h : stsCheck sp s = some .locked) : sp = .sup ∧ s.live = true := by
  by_contra hl
  by_cases hw : sp.hostWritable = true
  · obtain ⟨hv, hs⟩ := (hostWritable_iff sp).1 hw
    exact ldsCheck_ne_locked sp s ((stsCheck_of_unlocked hv hs hl).symm.trans h)
  · rw [stsCheck, if_neg hw] at h
    cases h

/-- The commands that `LOCKED` can stop (R285). -/
theorem issueFault_eq_locked (h : issueFault i s = some .locked) :
    s.live = true ∧ (i = .nms ∨ i = .trace ∨ i = .lstart ∨ ∃ inc, i = .sts .sup inc) := by
  cases i with
  | nms => exact ⟨live_of_nmsCheck h, by simp⟩
  | trace => exact ⟨live_of_traversalCheck h, by simp⟩
  | lstart => exact ⟨live_of_traversalCheck h, by simp⟩
  | sts sp inc =>
    obtain ⟨rfl, hl⟩ := sup_live_of_stsCheck h
    exact ⟨hl, by simp⟩
  | lds sp inc => exact absurd h (ldsCheck_ne_locked sp s)
  | hypot | lnext =>
    simp only [issueFault, hypotCheck, lnextCheck] at h
    split at h <;> cases h
  | nop | ldrop | hypq | dirq | srst => cases h

/-- Settles O12: the lock is the first check of each command it stops, and the pseudocode of a command never records it. -/
theorem liveProducerLocks : Obligations.LiveProducerLocks := by
  refine ⟨fun s n v rest ht hi hl hn => (registerWriteTransactions s n v rest ht hi).1 hn hl, fun s hi hl => ?_,
    fun s t i hi hx ht hs => ?_⟩
  · obtain ⟨htrace, hlstart⟩ := exec_traversal_fault hi (traversalCheck_of_live hl)
    exact ⟨exec_idle_fault (i := .nms) nofun hi (nmsCheck_of_live hl), htrace, hlstart,
      fun inc => exec_idle_fault (i := .sts .sup inc) nofun hi (stsCheck_sup_of_live hl)⟩
  · have hn : i ≠ .srst := by
      rintro rfl
      cases hx
      rcases softReset_cases s with ⟨_, -, hr⟩ | ⟨-, hr⟩ <;> rw [hr] at ht <;> cases ht
    cases hck : issueFault i s with
    | some c =>
      cases (exec_idle_fault hn hi hck).symm.trans hx
      obtain rfl : c = .locked := ht
      exact issueFault_eq_locked hck
    | none =>
      rw [exec_idle_ok hn hi hck] at hx
      rcases commandBody_records hn hx with ⟨-, hc⟩ | rfl
      · rw [hc, hs] at ht
        cases ht
      · rw [stackOverflow_idle hi] at ht
        cases ht

end Sys2Proof.Proofs
end

section
/-! Transactions when the block is not idle (60_exceptions.md R284, R292, R297): in `BUSY` one that is not allowed abandons the running
command, and in `FAULTED` nothing but a reset has an effect. -/

open Sys2Proof Sys2Proof.Machine

namespace Sys2Proof.Proofs

variable {s t u : State} {i : Instr} {n : Byte} {v : Word} {a : HostAction} {rest : List Input}

/-! ### The host's side of the state -/

/-- The two states differ in nothing but the queue of inputs, the value last read and the counter of free values. -/
def sameButHostSide (s t : State) : Prop := t = { s with inputs := t.inputs, lastRead := t.lastRead, freeCount := t.freeCount }

theorem sameSpace_of_hostSide {sp : Space} (h : sameButHostSide s u) (hs : sameSpace sp u t) : sameSpace sp s t := by
  rw [h] at hs
  cases sp <;> exact hs

/-! ### Busy violations (R284) -/

theorem writeRegister_busy (hb : s.opstate = .busy i) (hw : ¬(n = 0x01#8 ∧ v = srstWord)) :
    writeRegister n v s = .next (faultedWith .busyViolation (opcodeOf i) n (abandon i s)) := by
  by_cases hn : n = cmdNumber
  · subst hn
    rw [writeRegister, if_pos rfl, writeCmd_busy (fun hv => hw ⟨rfl, hv⟩) hb]
  · simp only [writeRegister, if_neg hn, hb]
    rw [busyViolation_eq hb]

/-- A transaction that is not allowed in `BUSY`: a read of any register but `ID`, `STATUS` and `FAULT`, or a write other than that of
`SRST` to `CMD`. -/
def violates (a : HostAction) (n : Byte) : Prop :=
  (a = .read n ∧ n ∉ [0x00#8, 0x02#8, 0x03#8]) ∨ ∃ v, a = .write n v ∧ ¬(n = 0x01#8 ∧ v = srstWord)

/-- Such a transaction abandons the running command where it stands. -/
theorem step_busyViolation (ht : s.takes a rest) (hb : s.opstate = .busy i) (ha : violates a n) :
    ∃ u, sameButHostSide s u ∧ step s = .next (faultedWith .busyViolation (opcodeOf i) n (abandon i u)) := by
  rcases ha with ⟨rfl, hn⟩ | ⟨v, rfl, hw⟩
  · refine ⟨returnFree (takeInput rest s), rfl, ?_⟩
    rw [step_read ht, readRegister_busy_violation (s := takeInput rest s) hb hn]
  · refine ⟨takeInput rest s, rfl, ?_⟩
    rw [step_takes ht]
    exact writeRegister_busy (s := takeInput rest s) hb hw

theorem opcodeOf_eq_opField_encode (i : Instr) : opcodeOf i = opField (encode i) := by
  cases i with
  | lds sp inc => exact (Laws.OpcodeField.lds sp inc).symm
  | sts sp inc => exact (Laws.OpcodeField.sts sp inc).symm
  | _ => rfl

/-- Settles O14: `abandon_eq` says which registers an abandoned command can lose, and `abandon_same` which spaces it cannot. -/
theorem busyViolationAbandons : Obligations.BusyViolationAbandons := by
  refine ⟨⟨opcodeOf_eq_opField_encode, rfl, fun _ _ => ⟨rfl, rfl⟩⟩, fun s i n a rest ht hb ha => ?_⟩
  obtain ⟨u, hu, hstep⟩ := step_busyViolation ht hb ha
  have hspaces : ∀ sp, writesSpace i sp = false → sameSpace sp s (abandon i u) :=
    fun sp hw => sameSpace_of_hostSide hu (abandon_same hw u)
  refine ⟨_, hstep, rfl, rfl, rfl, rfl, fun sp hw => ?_, ?_⟩
  · have hsame := hspaces sp hw
    cases sp <;> exact hsame
  · rw [abandon_eq, hu]
    exact ⟨rfl, rfl, rfl, rfl, rfl, rfl, rfl, rfl, rfl⟩

/-! ### `FAULTED` (R292, R297) -/

theorem writeRegister_faulted (hf : s.opstate = .faulted) (hw : ¬(n = 0x01#8 ∧ v = srstWord)) :
    writeRegister n v s = .next s := by
  by_cases hn : n = cmdNumber
  · subst hn
    rw [writeRegister, if_pos rfl, writeCmd_faulted (fun hv => hw ⟨rfl, hv⟩) hf]
  · simp only [writeRegister, if_neg hn, hf]

theorem busyFlag_of_faulted (hf : s.opstate = .faulted) : s.busyFlag = false := by
  simp only [State.busyFlag, hf]

/-- A read in `FAULTED` returns the value of a readable register, and a free value otherwise (R255, log 7). -/
theorem readRegister_faulted (hf : s.opstate = .faulted) (n : Byte) :
    ∃ w m, readRegister n s = { s with lastRead := some w, freeCount := m } ∧ ∀ v, regValue n s = some v → w = v := by
  cases hv : regValue n s with
  | some v =>
    exact ⟨v, s.freeCount, readRegister_not_busy_some (busyFlag_of_faulted hf) hv, fun _ => Option.some.inj⟩
  | none => exact ⟨_, _, readRegister_faulted_none hf hv, nofun⟩

/-- Settles O15, by what each transaction does in `FAULTED`. -/
theorem faultedIgnoresEverything : Obligations.FaultedIgnoresEverything := by
  refine fun s hf => ⟨fun n v rest ht hw => ?_, fun n rest ht => ?_, fun i hn => exec_faulted hn hf, fun hq => ?_⟩
  · rw [step_takes ht]
    exact writeRegister_faulted (s := takeInput rest s) hf hw
  · obtain ⟨w, m, hread, hw⟩ := readRegister_faulted (s := takeInput rest s) hf n
    rw [step_read ht, hread]
    exact ⟨_, rfl, rfl, fun v hv => congrArg some (hw v hv)⟩
  · rw [step_proceeds (.inl hq), proceed_of_not_busy (busyFlag_of_faulted hf)]

/-- An input in `FAULTED` leaves all but the host's side as it is, or it is a reset. -/
theorem perform_faulted (hf : s.opstate = .faulted) (h : perform a s = .next t) :
    sameButHostSide s t ∨ t.atReset ∧ (a = .hardReset ∨ a = .write 0x01#8 srstWord) := by
  cases a with
  | hardReset =>
    cases h
    exact .inr ⟨resetRegisters_atReset _, .inl rfl⟩
  | read n =>
    cases h
    obtain ⟨w, m, hread, -⟩ := readRegister_faulted hf n
    rw [hread]
    exact .inl rfl
  | write n v =>
    by_cases hw : n = 0x01#8 ∧ v = srstWord
    · obtain ⟨rfl, rfl⟩ := hw
      cases h
      exact .inr ⟨softReset_atReset s, .inr rfl⟩
    · cases (writeRegister_faulted hf hw).symm.trans h
      exact .inl rfl

/-- Settles O16: a step from `FAULTED` waits or takes an input, and only a reset leaves. -/
theorem onlyResetLeavesFaulted : Obligations.OnlyResetLeavesFaulted := by
  intro s t hf hx
  rcases step_cases s with hs | ⟨a, rest, ht, hs⟩ <;> rw [hs] at hx
  · cases (proceed_of_not_busy (busyFlag_of_faulted hf)).symm.trans hx
    exact .inl ⟨hf, rfl⟩
  · rcases perform_faulted (s := takeInput rest s) hf hx with hsame | ⟨hreset, ha⟩
    · exact .inl ⟨(congrArg State.opstate hsame).trans hf, hsame⟩
    · exact .inr ⟨hreset, a, rest, ht, ha⟩

end Sys2Proof.Proofs
end

section
/-! `STACK_OVF` (60_exceptions.md R293; 10_state.md R52). The idea: the loops of `TRACE` and of a request follow the tracer's run, which
does not read what the loop of `TRACE` writes to `OUT`, so a loop overflows where a state of the run discovers a pixel on a full stack;
and no step raises `SP` above the depth. -/

open Sys2Proof Sys2Proof.Machine Sys2Proof.Statement

namespace Sys2Proof.Proofs

variable {depth k n : Nat} {s t u : State} {e : Event} {i : Instr}

/-! ### The fault -/

/-- What `STACK_OVF` leaves after a command that writes no gradient, magnitude or suppressed sample. -/
theorem overflowed_stackOverflow (hi : s.opstate = .idle)
    (hw : ∀ sp ∈ [Space.gx, Space.gy, Space.mag, Space.sup], writesSpace i sp = false) :
    overflowed (opcodeOf i) s (stackOverflow i s) := by
  have hgx : (abandonSpaces i s).gx = s.gx := abandonSpaces_same (hw .gx (by simp)) s
  have hgy : (abandonSpaces i s).gy = s.gy := abandonSpaces_same (hw .gy (by simp)) s
  have hmag : (abandonSpaces i s).mag = s.mag := abandonSpaces_same (hw .mag (by simp)) s
  have hsup : (abandonSpaces i s).sup = s.sup := abandonSpaces_same (hw .sup (by simp)) s
  rw [stackOverflow_idle hi, abandonSpaces_eq]
  exact ⟨rfl, rfl, rfl, rfl, hgx, hgy, hmag, hsup, rfl, rfl, rfl, rfl, rfl, rfl, rfl, rfl, rfl, rfl, rfl, rfl⟩

/-- No step raises `SP` above the depth of the stack (R52). -/
theorem sp_le_depth_of_tStep (h : s.sp.toNat ≤ depth) (hs : tStep depth s = .step t e) : t.sp.toNat ≤ depth := by
  cases tracerStep_of_tStep hs with
  | stay | finish | resume => exact h
  | skip => rwa [advanceCursor_sp]
  | pass => rwa [nextNeighbour_sp]
  | take hp hz =>
    have hpop : (s.sp - 1#32).toNat ≤ s.sp.toNat := by bv_omega
    exact hpop.trans h
  | seed hp hy hq room =>
    have hsp : (inPhase .pop (advanceCursor s)).sp = s.sp := advanceCursor_sp s
    exact (markAndPush_sp_le _ _ _).trans (hsp ▸ room)
  | spread x y hp hx hy hi hq room =>
    exact (markAndPush_sp_le _ _ _).trans ((nextNeighbour_sp s).symm ▸ room)

theorem phase_ne_done_of_discovers (h : s.discovers) : s.phase ≠ .done := by
  rcases h with ⟨hp, -⟩ | ⟨hp, -⟩ <;> simp [hp]

/-! ### The run of the tracer -/

theorem tracerRun_step (hs : tStep depth s = .step t e) (k : Nat) : tracerRun depth (k + 1) s = tracerRun depth k t := by
  rw [tracerRun, hs]

theorem quietRun_step (hs : tStep depth s = .step t .none) (k : Nat) : quietRun depth (k + 1) s = quietRun depth k t := by
  rw [quietRun, hs]

/-- `DONE` is final (R207). -/
theorem tracerRun_of_done (hp : s.phase = .done) : tracerRun depth k s = some s := by
  induction k with
  | zero => rfl
  | succ k ih => rwa [tracerRun_step (tStep_done hp)]

theorem tracerRun_withOutputs (o : State) (h : tracerRun depth k s = some u) :
    tracerRun depth k (withOutputs o s) = some (withOutputs o u) := by
  induction k generalizing s with
  | zero => exact congrArg (Option.map (withOutputs o)) h
  | succ k ih =>
    cases hs : tStep depth s with
    | step t e =>
      rw [tracerRun_step (tStep_withOutputs o hs)]
      exact ih ((tracerRun_step hs k).symm.trans h)
    | overflow | off => simp only [tracerRun, hs, reduceCtorEq] at h

/-! ### The loop of `TRACE` -/

/-- The loop of `TRACE` first runs the steps of the tracer, as long as the scan is not complete. -/
theorem traceLoop_of_tracerRun (h : tracerRun depth k s = some u) (hp : u.phase ≠ .done) (o : State) :
    ∃ o', ∀ n, traceLoop depth (k + n) (withOutputs o s) = traceLoop depth n (withOutputs o' u) := by
  induction k generalizing s o with
  | zero =>
    cases h
    exact ⟨o, fun n => by rw [Nat.zero_add]⟩
  | succ k ih =>
    cases hs : tStep depth s with
    | step t e =>
      rw [tracerRun_step hs] at h
      simp only [Nat.succ_add, traceLoop, tStep_withOutputs o hs]
      cases e with
      | none => exact ih h o
      | found x y => exact ih h (writeForeground x y (withOutputs o t))
      | done =>
        rw [tracerRun_of_done (phase_of_done hs)] at h
        cases h
        exact absurd (phase_of_done hs) hp
    | overflow | off => simp only [tracerRun, hs, reduceCtorEq] at h

/-- The loop of `TRACE` overflows when its run comes to a discovery on a full stack: the bound on its steps is not reached before. -/
theorem traceLoop_overflows (hc : CursorInRange s) (hn : stepsLeft s < n) (h : tracerRun depth k s = some u) (hd : u.discovers)
    (hf : depth ≤ u.sp.toNat) : traceLoop depth n s = .overflow := by
  obtain ⟨o, ho⟩ := traceLoop_of_tracerRun h (phase_ne_done_of_discovers hd) s
  change ∀ n, traceLoop depth (k + n) s = _ at ho
  have hk : k < n := by
    by_contra hk
    rcases traceLoop_ends (depth := depth) hc (hn.trans_le (Nat.le_of_not_lt hk)) with ⟨t, ht⟩ | ht <;>
      exact nomatch (ho 0).symm.trans ht
  obtain ⟨m, rfl⟩ := Nat.exists_eq_add_of_lt hk
  have hover : tStep depth (withOutputs o u) = .overflow := tStep_overflow (s := withOutputs o u) hd hf
  rw [Nat.add_assoc, ho, traceLoop, hover]

/-- Where the loop of `TRACE` overflows, its run has come to a discovery on a full stack. -/
theorem exists_tracerRun_of_overflow (h : s.sp.toNat ≤ depth) (ho : traceLoop depth n s = .overflow) :
    ∃ k u, tracerRun depth k s = some u ∧ u.discovers ∧ u.sp.toNat = depth := by
  induction n generalizing s with
  | zero => cases ho
  | succ n ih =>
    unfold traceLoop at ho
    cases hs : tStep depth s with
    | step t e =>
      have ht := sp_le_depth_of_tStep h hs
      rw [hs] at ho
      cases e with
      | none =>
        obtain ⟨k, u, hr, hu⟩ := ih ht ho
        exact ⟨k + 1, u, (tracerRun_step hs k).trans hr, hu⟩
      | found x y =>
        obtain ⟨k, u, hr, hu⟩ := ih (s := writeForeground x y t) ht ho
        exact ⟨k + 1, withOutputs t u, (tracerRun_step hs k).trans (tracerRun_withOutputs (s := writeForeground x y t) t hr), hu⟩
      | done => cases ho
    | overflow =>
      obtain ⟨hd, hf⟩ := discovers_of_overflow hs
      exact ⟨0, s, rfl, hd, h.antisymm hf⟩
    | off =>
      rw [hs] at ho
      cases ho

/-! ### The loop of a request -/

/-- The loop of a request overflows when its run comes to a discovery on a full stack. -/
theorem nextLoop_overflows (hc : CursorInRange s) (h : quietRun depth k s = some u) (hd : u.discovers)
    (hf : depth ≤ u.sp.toNat) : nextLoop depth (nextBound s) s = .overflow := by
  have hn := stepsLeft_lt_nextBound s
  have hk : k < nextBound s := by
    by_contra hk
    exact nextLoop_ne_bound (depth := depth) (n := k) hc (by omega) (nextLoop_quiet (n := 0) h)
  obtain ⟨m, hm⟩ := Nat.exists_eq_add_of_lt hk
  rw [hm, Nat.add_assoc, nextLoop_quiet h, nextLoop, tStep_overflow hd hf]

/-- Where the loop of a request overflows, its run has come to a discovery on a full stack. -/
theorem exists_quietRun_of_overflow (h : s.sp.toNat ≤ depth) (ho : nextLoop depth n s = .overflow) :
    ∃ k u, quietRun depth k s = some u ∧ u.discovers ∧ u.sp.toNat = depth := by
  induction n generalizing s with
  | zero => cases ho
  | succ n ih =>
    unfold nextLoop at ho
    cases hs : tStep depth s with
    | step t e =>
      rw [hs] at ho
      cases e with
      | none =>
        obtain ⟨k, u, hr, hu⟩ := ih (sp_le_depth_of_tStep h hs) ho
        exact ⟨k + 1, u, (quietRun_step hs k).trans hr, hu⟩
      | found | done => cases ho
    | overflow =>
      obtain ⟨hd, hf⟩ := discovers_of_overflow hs
      exact ⟨0, s, rfl, hd, h.antisymm hf⟩
    | off =>
      rw [hs] at ho
      cases ho

theorem lnextBody_of_overflow (h : nextLoop depth (nextBound s) s = .overflow) :
    lnextBody depth s = .next (stackOverflow .lnext s) := by
  rw [lnextBody, h]

/-- Settles O17: both commands run their loop, which overflows where its run discovers a pixel on a full stack, and only there. -/
theorem stackOverflowFaults : Obligations.StackOverflowFaults := by
  refine ⟨⟨fun s h => exec_idle_ok (i := .trace) nofun h.1 (traversalCheck_of_ready h), fun s => exec_lnext_idle⟩,
    fun depth k s u hready hr hd hsp => ?_, fun depth k s u hinv hi hl hr hd hsp => ?_,
    fun depth s t _ hs hb ht => ?_, fun depth s t hinv hi hl hle hb ht => ?_⟩
  · obtain ⟨hi, -, -, -, hw, hh⟩ := hready
    have hover := traceLoop_overflows (traceStart_cursorInRange hw hh) (stepsLeft_traceStart_lt s) hr hd hsp.ge
    exact ⟨_, traceBody_of_overflow hover, overflowed_stackOverflow (i := .trace) hi (by decide)⟩
  · have hprod := hinv.producer (by simp [hi]) hl
    have hover := nextLoop_overflows (fits_of_producerInv hprod).toCursorInRange hr hd hsp.ge
    exact ⟨_, lnextBody_of_overflow hover, overflowed_stackOverflow (i := .lnext) hi (by decide)⟩
  · rcases traceBody_records hb with ⟨-, hc⟩ | ⟨hover, -⟩
    · exact nomatch ht.symm.trans (hc.trans hs)
    · exact exists_tracerRun_of_overflow (Nat.zero_le depth) hover
  · rcases lnextBody_records hb with ⟨-, hc⟩ | ⟨hover, -⟩
    · exact nomatch ht.symm.trans (hc.trans (hinv.noCause (by simp [hi])).1)
    · exact exists_quietRun_of_overflow hle hover

end Sys2Proof.Proofs
end

section
/-! The two resets of the table of 70_reset_and_hazards.md R320: the hardware reset, and the state after it, which holds no producer and
no running command, so that the invariant asks nothing of it but its memories. -/

open Sys2Proof Sys2Proof.Machine Sys2Proof.Statement

namespace Sys2Proof.Proofs

/-- The state after reset is the reset table over itself. -/
theorem resetRegisters_reset : resetRegisters State.reset = State.reset := rfl

theorem hardReset_nothingKnown (s : State) : nothingKnown (hardReset s) := ⟨rfl, rfl, rfl, rfl, rfl, rfl, rfl⟩

/-- Settles O18: the hardware reset ends in `resetRegisters`, over spaces that have each lost their contents. -/
theorem hardwareResetTable : Obligations.HardwareResetTable := by
  refine ⟨⟨?_, rfl, rfl, rfl, rfl, rfl, rfl, rfl, rfl⟩, fun s rest ht => ⟨hardReset (takeInput rest s), step_takes ht, ?_⟩⟩
  · rw [← resetRegisters_reset]
    exact resetRegisters_atReset State.reset
  · exact ⟨resetRegisters_atReset _, rfl, rfl, hardReset_nothingKnown _⟩

/-- Settles O56: the registers are those of the reset table, and the memories list no sample. -/
theorem invariantHoldsAtReset : Obligations.InvariantHoldsAtReset :=
  inv_resetRegisters (s := State.reset) reset_memCanonical reset_memSized

end Sys2Proof.Proofs
end

section
/-! The machine always has a next state (93_implementation_defined.md). The idea: only the loops of `TRACE` and `LNEXT` can end in a
fault of the model (log 14); `TRACE` ends within the bound of R211 once its checks have passed, and a request ends whenever the producer
is sound, which the invariant says. -/

open Sys2Proof Sys2Proof.Machine

namespace Sys2Proof.Proofs

variable {s : State} {i : Instr}

/-! ### Commands -/

theorem commandBody_ne_refused (i : Instr) (s : State) (r : Refusal) : commandBody i s ≠ .refused r := by
  cases i with
  | trace =>
    simp only [commandBody, traceBody]
    split <;> exact nofun
  | lnext =>
    simp only [commandBody, lnextBody]
    split <;> exact nofun
  | nop | hypot | nms | lstart | ldrop | hypq | dirq | lds | sts | srst => exact nofun

theorem exec_ne_refused (i : Instr) (s : State) (r : Refusal) : exec i s ≠ .refused r := by
  by_cases hn : i = .srst
  · subst hn
    exact nofun
  rw [exec_eq_issue hn]
  rcases issue_cases i (issueFault i) (commandBody i) s with ⟨-, -, hx⟩ | ⟨-, c, -, hx⟩ | ⟨j, -, hx⟩ | ⟨-, hx⟩ <;> rw [hx]
  · exact commandBody_ne_refused i s r
  all_goals exact nofun

/-- A failed check is recorded; past its checks a command has a next state, and of the two that loop, `TRACE` completes (R211, R212) and
so does a request to a sound producer (R234). -/
theorem exists_exec (h : Inv s) (hi : s.opstate = .idle) (i : Instr) : ∃ t, exec i s = .next t := by
  cases hck : issueFault i s with
  | some c => exact ⟨_, (issueFaultsArePrecise s i hi).1 c hck⟩
  | none =>
    cases i with
    | trace =>
      obtain ⟨hl, hth, hd⟩ := traversalCheck_eq_none hck
      obtain ⟨t, ht, -⟩ := exec_trace_completes ⟨hi, hl, hth, dimCheck_eq_none_iff.1 hd⟩
      exact ⟨t, ht⟩
    | lnext =>
      have hl : s.live = true := by
        by_contra hl
        exact nomatch hck.symm.trans (lnextCheck_of_not_live (Bool.eq_false_of_not_eq_true hl))
      obtain ⟨t, ht, -⟩ := lnextYieldsOrIsExhausted.2 s h hi hl
      exact ⟨t, ht⟩
    | srst => exact ⟨_, exec_srst s⟩
    | nop | hypot | nms | lstart | ldrop | hypq | dirq | lds | sts => exact ⟨_, exec_idle_ok nofun hi hck⟩

/-- The state from which a running command completes. -/
theorem inv_completing (h : Inv s) (hb : s.opstate = .busy i) : Inv { s with opstate := .idle } :=
  inv_of_same h rfl (by simp [hb]) (fun _ hj => nomatch hj) h.canonical h.sized

/-! ### Register writes -/

/-- All that the issue of a command in `IDLE` can do (R104 steps 5 and 6). -/
theorem issueIdle_cases (hi : s.opstate = .idle) (i : Instr) :
    issueIdle i s = exec i s ∨ issueIdle i s = .next (accept i s) := by
  cases ho : overlapped s with
  | false => exact .inl (issueIdle_of_not_overlapped ho)
  | true =>
    cases hck : issueFault i s with
    | none => exact .inr (issueIdle_of_overlapped ho hck)
    | some c =>
      have hn : i ≠ .srst := by
        rintro rfl
        cases hck
      exact .inl (issueIdle_of_fault hn hi hck)

/-- All that a register write can do in `IDLE` (R104, R256). -/
theorem writeRegister_idle_cases (hi : s.opstate = .idle) (n : Byte) (v : Word) :
    writeRegister n v s = .next (writeIdle n v s) ∨
    writeRegister n v s = .next (faultedWith .illegalCmd (opField v) 0#8 s) ∨
    (∃ i, writeRegister n v s = exec i s) ∨ ∃ i, writeRegister n v s = .next (accept i s) := by
  by_cases hn : n = cmdNumber
  · have hcmd : writeRegister n v s = writeCmd v s := if_pos hn
    rw [hcmd]
    cases hd : decode v with
    | error r => exact .inr (.inl (writeCmd_idle_error hd hi))
    | ok i =>
      rw [writeCmd_idle_ok hd hi]
      split
      · exact .inr (.inr (.inl ⟨i, rfl⟩))
      · exact .inr (.inr ((issueIdle_cases hi i).imp (⟨i, ·⟩) (⟨i, ·⟩)))
  · exact .inl (by simp only [writeRegister, if_neg hn, hi])

theorem exists_writeRegister (h : Inv s) (n : Byte) (v : Word) : ∃ t, writeRegister n v s = .next t := by
  by_cases hw : n = 0x01#8 ∧ v = srstWord
  · obtain ⟨rfl, rfl⟩ := hw
    exact ⟨softReset s, rfl⟩
  cases ho : s.opstate with
  | idle =>
    rcases writeRegister_idle_cases ho n v with hx | hx | ⟨i, hx⟩ | ⟨i, hx⟩ <;> rw [hx]
    · exact ⟨_, rfl⟩
    · exact ⟨_, rfl⟩
    · exact exists_exec h ho i
    · exact ⟨_, rfl⟩
  | busy i => exact ⟨_, writeRegister_busy ho hw⟩
  | faulted => exact ⟨_, writeRegister_faulted ho hw⟩

/-! ### The step -/

theorem exists_perform (h : Inv s) (a : HostAction) : ∃ t, perform a s = .next t := by
  cases a with
  | hardReset => exact ⟨hardReset s, rfl⟩
  | read n => exact ⟨readRegister n s, rfl⟩
  | write n v => exact exists_writeRegister h n v

theorem exists_proceed (h : Inv s) : ∃ t, proceed s = .next t := by
  cases hb : s.busyFlag with
  | false => exact ⟨s, proceed_of_not_busy hb⟩
  | true =>
    obtain ⟨i, ho⟩ := (busyFlag_iff s).1 hb
    rw [proceed_busy ho]
    exact exists_exec (inv_completing h ho) rfl i

/-- Settles O58: the step takes an input or is the block's own, and either comes to a command in `IDLE` or to a plain update. -/
theorem everyStepHasANextState : Obligations.EveryStepHasANextState := by
  refine ⟨fun s h => ?_, fun s i r => exec_ne_refused i s r⟩
  rcases step_cases s with hs | ⟨a, rest, -, hs⟩ <;> rw [hs]
  · exact exists_proceed h
  · exact exists_perform (inv_takeInput rest h) a

end Sys2Proof.Proofs
end

section
/-! A command writes no space but its own (70_reset_and_hazards.md R327): whether it is refused by a check, runs to its end or
overflows, a space that `writesSpace` does not name keeps its samples. -/

open Sys2Proof Sys2Proof.Machine

namespace Sys2Proof.Proofs

variable {depth : Nat} {s t u : State} {e : Event} {i : Instr} {sp : Space}

theorem sameSpace_trans (hu : sameSpace sp s u) (ht : sameSpace sp u t) : sameSpace sp s t := by
  cases sp <;> exact Eq.trans ht hu

/-! ### The tracer -/

/-- The visit map and the stack are all that the tracer's step writes (R200). -/
theorem tStep_same (hw : writesSpace .lnext sp = false) (h : tStep depth s = .step t e) : sameSpace sp s t := by
  rw [tStep_frame h]
  cases sp with
  | visit | stack => cases hw
  | gx | gy | mag | sup | out => rfl

theorem stackOverflow_same (hw : writesSpace i sp = false) (hi : s.opstate = .idle) : sameSpace sp s (stackOverflow i s) := by
  have h := abandonSpaces_same hw s
  rw [stackOverflow_idle hi]
  cases sp <;> exact h

theorem writesSpace_lnext_of_trace (hw : writesSpace .trace sp = false) : writesSpace .lnext sp = false :=
  (Bool.or_eq_false_iff.1 ((Bool.or_assoc _ _ _).symm.trans hw)).2

theorem writeForeground_same (hw : writesSpace .trace sp = false) (x y : Half) (s : State) :
    sameSpace sp s (writeForeground x y s) := by
  cases sp with
  | out | visit | stack => cases hw
  | gx | gy | mag | sup => rfl

theorem traceStart_same (hw : writesSpace .trace sp = false) (s : State) : sameSpace sp s (traceStart s) := by
  cases sp with
  | out | visit | stack => cases hw
  | gx | gy | mag | sup => rfl

theorem traceBody_same (hw : writesSpace .trace sp = false) (hi : s.opstate = .idle) (hb : traceBody depth s = .next t) :
    sameSpace sp s t := by
  have keep : ∀ u v e, sameSpace sp s u → tStep depth u = .step v e → sameSpace sp s v :=
    fun u v e hu hv => sameSpace_trans hu (tStep_same (writesSpace_lnext_of_trace hw) hv)
  have keepFound : ∀ u v x y, sameSpace sp s u → tStep depth u = .step v (.found x y) →
      sameSpace sp s (writeForeground x y v) :=
    fun u v x y hu hv => sameSpace_trans (keep u v _ hu hv) (writeForeground_same hw x y v)
  rcases traceLoop_induct (sameSpace sp s) (fun u v => keep u v .none) keepFound (traceBound s) (traceStart s)
    (traceStart_same hw s) with ⟨u, v, hu, hv, hl⟩ | ⟨-, -, -, hl⟩ | ⟨-, -, -, hl⟩ | hl <;>
    simp only [traceBody, hl, Host.Outcome.next.injEq, reduceCtorEq] at hb <;> subst hb
  · exact keep u v .done hu hv
  · exact stackOverflow_same hw hi

theorem lnextBody_same (hw : writesSpace .lnext sp = false) (hi : s.opstate = .idle) (hb : lnextBody depth s = .next t) :
    sameSpace sp s t := by
  have keep : ∀ u v e, sameSpace sp s u → tStep depth u = .step v e → sameSpace sp s v :=
    fun u v e hu hv => sameSpace_trans hu (tStep_same hw hv)
  rcases nextLoop_induct (sameSpace sp s) (fun u v => keep u v .none) (nextBound s) s (sameSpace_refl sp s) with
    ⟨u, v, x, y, hu, hv, hl⟩ | ⟨u, v, hu, hv, hl⟩ | ⟨-, -, -, hl⟩ | ⟨-, -, -, hl⟩ | hl <;>
    simp only [lnextBody, hl, Host.Outcome.next.injEq, reduceCtorEq] at hb <;> subst hb
  · exact sameSpace_trans (keep u v _ hu hv) (by cases sp <;> rfl)
  · exact sameSpace_trans (keep u v _ hu hv) (by cases sp <;> rfl)
  · exact stackOverflow_same hw hi

/-! ### Commands -/

theorem memWrite_same {sp' : Space} (h : sp ≠ sp') (n : Nat) (v : Word) (s : State) : sameSpace sp s (memWrite sp' n v s) := by
  revert h
  cases sp' <;> cases sp <;> simp [sameSpace, memWrite]

theorem postIncrement_same (inc : Bool) (s : State) : sameSpace sp s (postIncrement inc s) := by
  rw [postIncrement_eq]
  cases sp <;> rfl

theorem commandBody_same (hw : writesSpace i sp = false) (hi : s.opstate = .idle) (hb : commandBody i s = .next t) :
    sameSpace sp s t := by
  cases i with
  | trace => exact traceBody_same hw hi hb
  | lnext => exact lnextBody_same hw hi hb
  | srst =>
    cases hb
    exact softReset_same fun j hj => nomatch hi.symm.trans hj
  | sts sp' inc =>
    cases hb
    exact sameSpace_trans (memWrite_same (by simpa [writesSpace] using hw) _ _ s) (postIncrement_same inc _)
  | lds sp' inc =>
    cases hb
    exact sameSpace_trans (by cases sp <;> rfl) (postIncrement_same inc _)
  | nop | ldrop | hypq | dirq =>
    cases hb
    cases sp <;> rfl
  | hypot =>
    cases hb
    cases sp with
    | mag => cases hw
    | gx | gy | sup | out | visit | stack => rfl
  | nms =>
    cases hb
    cases sp with
    | sup => cases hw
    | gx | gy | mag | out | visit | stack => rfl
  | lstart =>
    cases hb
    cases sp with
    | visit | stack => cases hw
    | gx | gy | mag | sup | out => rfl

/-- A command in `IDLE` leaves every space it does not write. -/
theorem exec_same (hw : writesSpace i sp = false) (hi : s.opstate = .idle) (hx : exec i s = .next t) : sameSpace sp s t := by
  cases hck : issueFault i s with
  | some c =>
    cases ((issueFaultsArePrecise s i hi).1 c hck).symm.trans hx
    cases sp <;> rfl
  | none =>
    by_cases hn : i = .srst
    · subst hn
      exact commandBody_same (i := .srst) hw hi hx
    · exact commandBody_same hw hi ((exec_idle_ok hn hi hck).symm.trans hx)

/-- No command but `STS` writes a gradient (R327). -/
theorem writesSpace_gradient (hi : ∀ sp inc, i ≠ .sts sp inc) (hsp : sp = .gx ∨ sp = .gy) : writesSpace i sp = false := by
  cases i with
  | sts sp' inc => exact absurd rfl (hi sp' inc)
  | nop | hypot | nms | trace | lstart | lnext | ldrop | hypq | dirq | lds | srst => rcases hsp with rfl | rfl <;> rfl

/-- Settles O60: a gradient is written by `STS` alone, and the magnitudes and the suppressed raster by no tracer command. -/
theorem stagesPreserveTheirInputs : Obligations.StagesPreserveTheirInputs := by
  refine fun s t i hi hx => ⟨fun hsts => ?_, fun htracer => ?_⟩
  · exact ⟨exec_same (sp := .gx) (writesSpace_gradient hsts (.inl rfl)) hi hx,
      exec_same (sp := .gy) (writesSpace_gradient hsts (.inr rfl)) hi hx⟩
  · have hw : writesSpace i .mag = false ∧ writesSpace i .sup = false := by
      rcases htracer with rfl | rfl | rfl | rfl <;> exact ⟨rfl, rfl⟩
    exact ⟨exec_same (sp := .mag) hw.1 hi hx, exec_same (sp := .sup) hw.2 hi hx⟩

end Sys2Proof.Proofs
end

section
/-! While a producer stays live, what it works from cannot change (70_reset_and_hazards.md R331; 10_state.md R29). The idea: a command or
a write that could change it is locked and records a fault, one that was running cannot have been accepted, and a reset or `LDROP`
ends the producer. -/

open Sys2Proof Sys2Proof.Machine

namespace Sys2Proof.Proofs

variable {s t u : State} {i : Instr}

/-- The dimensions, the thresholds and the suppressed raster are the same in both states. -/
def sameProducerInputs (s t : State) : Prop :=
  t.width = s.width ∧ t.height = s.height ∧ t.low = s.low ∧ t.high = s.high ∧ t.sup = s.sup

theorem sameProducerInputs_refl (s : State) : sameProducerInputs s s := ⟨rfl, rfl, rfl, rfl, rfl⟩

/-- A fault writes `FAULT` and `OPSTATE` alone (R290). -/
theorem sameProducerInputs_faultedWith (h : sameProducerInputs s u) (c : Cause) (op n : Byte) :
    sameProducerInputs s (faultedWith c op n u) := h

/-! ### A running command -/

/-- A command that passes its checks while a producer is live does not write `SUP` (R29). -/
theorem writesSpace_sup_of_live (hl : s.live = true) (hck : issueFault i s = none) : writesSpace i .sup = false := by
  cases i with
  | nms => exact nomatch hck.symm.trans (nmsCheck_of_live hl)
  | sts sp inc => exact decide_eq_false (ne_sup_of_stsCheck hl hck).symm
  | nop | hypot | trace | lstart | lnext | ldrop | hypq | dirq | lds | srst => rfl

/-- Abandoning the running command leaves what the producer works from (R284). -/
theorem sameProducerInputs_abandon (h : Inv s) (hl : s.live = true) (hb : s.opstate = .busy i) :
    sameProducerInputs s (abandon i s) := by
  have hsup : (abandon i s).sup = s.sup := abandon_same (sp := .sup) (writesSpace_sup_of_live hl (h.accepted i hb).2) s
  refine ⟨?_, ?_, ?_, ?_, hsup⟩ <;> rw [abandon_eq]

/-! ### Commands -/

theorem softReset_live (s : State) : (softReset s).live = false := by
  rcases softReset_cases s with ⟨i, -, h⟩ | ⟨-, h⟩ <;> rw [h] <;> rfl

/-- A command in `IDLE` is locked (R285), ends the producer (R238, R262), is a request (R234), or leaves the producer alone (R240). -/
theorem exec_keepsProducerInputs (h : Inv s) (hi : s.opstate = .idle) (hl : s.live = true) (hx : exec i s = .next t)
    (ht : t.live = true) : sameProducerInputs s t := by
  obtain ⟨hnms, htrace, hlstart, -⟩ := liveProducerLocks.2.1 s hi hl
  cases i with
  | nms =>
    cases hnms.symm.trans hx
    exact sameProducerInputs_refl s
  | trace =>
    cases htrace.symm.trans hx
    exact sameProducerInputs_refl s
  | lstart =>
    cases hlstart.symm.trans hx
    exact sameProducerInputs_refl s
  | ldrop =>
    cases (ldropDiscardsTheProducer.2 s hi).symm.trans hx
    cases ht
  | srst =>
    cases hx
    exact nomatch (softReset_live s).symm.trans ht
  | lnext =>
    obtain ⟨u, hu, hframe, -⟩ := lnextYieldsOrIsExhausted.2 s h hi hl
    cases hu.symm.trans hx
    rw [hframe]
    exact sameProducerInputs_refl s
  | nop | hypot | hypq | dirq | lds | sts =>
    obtain ⟨⟨hw, hh, hlo, hhi, hsup, -⟩, -⟩ := suspendedProducerIsUntouched s t _ hi hl hx (by simp)
    exact ⟨hw, hh, hlo, hhi, hsup⟩

/-! ### Transactions -/

theorem readRegister_keepsProducerInputs (h : Inv s) (hf : s.opstate ≠ .faulted) (hl : s.live = true) (n : Byte) :
    sameProducerInputs s (readRegister n s) := by
  cases ho : s.opstate with
  | faulted => exact absurd ho hf
  | idle =>
    cases hv : regValue n s with
    | some v =>
      rw [readRegister_not_busy_some (by rw [State.busyFlag, ho]) hv]
      exact sameProducerInputs_refl s
    | none =>
      rw [readRegister_idle_none ho hv]
      exact sameProducerInputs_refl s
  | busy i =>
    by_cases hn : n ∈ [0x00#8, 0x02#8, 0x03#8]
    · obtain ⟨v, -, hread⟩ := readRegister_busy_allowed ho hn
      rw [hread]
      exact sameProducerInputs_refl s
    · rw [readRegister_busy_violation ho hn]
      exact sameProducerInputs_faultedWith (sameProducerInputs_abandon (s := returnFree s) (inv_returnFree h) hl ho) _ _ _

/-- The four registers a live producer owns are locked (R29). -/
theorem writeIdle_keepsProducerInputs (hi : s.opstate = .idle) (hl : s.live = true) (n : Byte) (v : Word) :
    sameProducerInputs s (writeIdle n v s) := by
  unfold writeIdle
  split
  iterate 4
    rw [lockedWrite_live hi hl]
    exact sameProducerInputs_refl s
  iterate 4 exact sameProducerInputs_refl s
  rw [raiseFault_idle hi]
  exact sameProducerInputs_refl s

theorem writeRegister_keepsProducerInputs {n : Byte} {v : Word} (h : Inv s) (hf : s.opstate ≠ .faulted) (hl : s.live = true)
    (hx : writeRegister n v s = .next t) (ht : t.live = true) : sameProducerInputs s t := by
  by_cases hw : n = 0x01#8 ∧ v = srstWord
  · obtain ⟨rfl, rfl⟩ := hw
    cases hx
    exact nomatch (softReset_live s).symm.trans ht
  cases ho : s.opstate with
  | faulted => exact absurd ho hf
  | busy i =>
    cases (writeRegister_busy ho hw).symm.trans hx
    exact sameProducerInputs_faultedWith (sameProducerInputs_abandon h hl ho) _ _ _
  | idle =>
    rcases writeRegister_idle_cases ho n v with hr | hr | ⟨i, hr⟩ | ⟨i, hr⟩ <;> rw [hr] at hx
    · cases hx
      exact writeIdle_keepsProducerInputs ho hl n v
    · cases hx
      exact sameProducerInputs_refl s
    · exact exec_keepsProducerInputs h ho hl hx ht
    · cases hx
      exact sameProducerInputs_refl s

/-! ### The step -/

theorem perform_keepsProducerInputs {a : HostAction} (h : Inv s) (hf : s.opstate ≠ .faulted) (hl : s.live = true)
    (hx : perform a s = .next t) (ht : t.live = true) : sameProducerInputs s t := by
  cases a with
  | hardReset =>
    cases hx
    cases ht
  | read n =>
    cases hx
    exact readRegister_keepsProducerInputs h hf hl n
  | write n v => exact writeRegister_keepsProducerInputs h hf hl hx ht

theorem proceed_keepsProducerInputs (h : Inv s) (hl : s.live = true) (hx : proceed s = .next t) (ht : t.live = true) :
    sameProducerInputs s t := by
  cases hb : s.busyFlag with
  | false =>
    cases (proceed_of_not_busy hb).symm.trans hx
    exact sameProducerInputs_refl s
  | true =>
    obtain ⟨i, ho⟩ := (busyFlag_iff s).1 hb
    rw [proceed_busy ho] at hx
    exact exec_keepsProducerInputs (s := { s with opstate := .idle }) (inv_completing h ho) rfl hl hx ht

/-- Settles O59: the step takes an input, a running command completes, or nothing happens. -/
theorem liveProducerKeepsItsInputs : Obligations.LiveProducerKeepsItsInputs := by
  intro s t h hf hl hx ht
  rcases step_cases s with hs | ⟨a, rest, -, hs⟩ <;> rw [hs] at hx
  · exact proceed_keepsProducerInputs h hl hx ht
  · exact perform_keepsProducerInputs (s := takeInput rest s) (inv_takeInput rest h) hf hl hx ht

end Sys2Proof.Proofs
end
